-- ==== Sys2Proof/Word.lean ====
section
/-! DEFINITION. The words of the block and the indices of its banks (00_scope.md R10). -/

namespace Sys2Proof

/-- A register value or a downstream byte address: 32 bits (R10). Also a window offset, to which the spec gives no width (R81,
R48): DESIGN CHOICE, 32 bits (log 39, unsafe). -/
abbrev Word := BitVec 32

/-- A byte of the downstream (R49) or of the chunk buffer (R42). -/
abbrev Byte := BitVec 8

/-- A core index within the hardware maximum `MAX_CORES = 2` (R10). -/
abbrev CoreId := Fin 2

/-- A channel index within the hardware maximum `MAX_CHANNELS = 5` (R10). -/
abbrev ChanId := Fin 5

end Sys2Proof
end

