-- ==== Sys2Proof/Config.lean ====
section
/-! DEFINITION. What is fixed when a device is constructed (00_scope.md R8, R9) and the values the spec leaves free. -/

namespace Sys2Proof

/-- The direction of a register access (R81) or of a downstream sub-access (R13). -/
inductive Dir where
  | read
  | write
  deriving DecidableEq, Repr

/-! ### The downstream (R18, R49, R174) -/

/-- What answers in a region of the downstream's address space. `ram` stores bytes and gives them back. `device` is
anything else that answers (a FIFO, a register block): every answer of it is a free value (R174, log 8). -/
inductive RegionKind where
  | ram
  | device
  deriving DecidableEq, Repr

/-- A region of the downstream: `size` bytes from `base` on, modulo 2^32. `readable`, `writable` and `aligned` (only
naturally aligned sub-accesses succeed) are the downstream's own conditions (R57, R66): the block checks none of them. -/
structure Region where
  base     : Word
  size     : Nat
  kind     : RegionKind
  readable : Bool
  writable : Bool
  aligned  : Bool
  deriving DecidableEq, Repr

/-- What a FAILING write did at its own bytes (R61, D23): `nothing` as in fixture F1 of 95_test_vectors.md, or `free`,
where each of its bytes that lies in RAM may or may not have landed. -/
inductive FailedWrite where
  | nothing
  | free
  deriving DecidableEq, Repr

/-- The downstream interface a device is constructed with. `ownWindow` is where the platform routes the block's own
register window in the downstream's space, if it does (R77). -/
structure Downstream where
  regions     : List Region
  ownWindow   : Option Word
  failedWrite : FailedWrite
  deriving DecidableEq, Repr

/-- One sub-access on the master port with the answer it got (R13): the bytes read, or `none` for `Fault`; the bytes
sent, and whether the downstream took them. -/
inductive BusOp where
  | read  (addr : Word) (width : Nat) (answer : Option (List Byte))
  | write (addr : Word) (bytes : List Byte) (accepted : Bool)
  deriving DecidableEq, Repr

/-! ### FIELD_LAYOUT (R9, D19): the positions of the single-bit fields the source names without positions -/

/-- The single-bit fields of `DCS` (R29). -/
structure DcsLayout where
  cte  : Fin 32
  hlt  : Fin 32
  tt   : Fin 32
  ar   : Fin 32
  berr : Fin 32
  des8 : Fin 32
  ndes : Fin 32
  deriving DecidableEq, Repr

/-- The single-bit fields of `DCM` (R31). -/
structure DcmLayout where
  link  : Fin 32
  tie   : Fin 32
  stde  : Fin 32
  nac   : Fin 32
  nwr   : Fin 32
  nrd   : Fin 32
  dai   : Fin 32
  sai   : Fin 32
  blast : Fin 32
  eackm : Fin 32
  eacks : Fin 32
  deriving DecidableEq, Repr

/-- The single-bit fields of `DMAC` (R36). -/
structure DmacLayout where
  dmae  : Fin 32
  ar    : Fin 32
  hlt   : Fin 32
  faic  : Fin 32
  fuart : Fin 32
  ftssi : Fin 32
  fssi  : Fin 32
  fmsc  : Fin 32
  deriving DecidableEq, Repr

/-- The parameter `FIELD_LAYOUT` of R9. -/
structure FieldLayout where
  dcs  : DcsLayout
  dcm  : DcmLayout
  dmac : DmacLayout
  deriving DecidableEq, Repr

/-! ### The configuration -/

/-- The construction parameters of R8 and R9. `downstream = none` is the missing `DOWNSTREAM` of R211. -/
structure Config where
  numCores    : Nat
  numChannels : Nat
  windowSize  : Nat
  drtAuto     : BitVec 6
  layout      : FieldLayout
  downstream  : Option Downstream
  deriving DecidableEq, Repr

/-- The parameters a construction error can name (R211, R212). -/
inductive Parameter where
  | numChannels
  | numCores
  | downstream
  deriving DecidableEq, Repr

/-! ### Free values: nothing says what they are, and no proof can see one -/

/-- A `draw` of R13: the value of a chunk-buffer byte no read filled (R160, D4), applied to the draws made so far (log 12). -/
opaque Config.drawByte : Nat → Byte

/-- Whether a device region answers a read sub-access, given every sub-access issued before it (R174, log 8). -/
opaque Config.deviceAnswers : List BusOp → Word → Nat → Bool

/-- Byte `j` of a device region's answer to a read sub-access (R174, log 8). -/
opaque Config.deviceByte : List BusOp → Word → Nat → Nat → Byte

/-- Whether a device region accepts a write sub-access (R174, log 8). -/
opaque Config.deviceAccepts : List BusOp → Word → List Byte → Bool

/-- Whether byte `j` of a failing write landed, where the downstream leaves that free (R61, D23, log 10). -/
opaque Config.failedByteLands : List BusOp → Word → List Byte → Nat → Bool

/-- Which of its failing parameters a construction error names (93_implementation_defined.md item 24, log 16). -/
opaque Config.namedFailure : Config → Nat

end Sys2Proof
end

