-- ==== Sys2Proof/Machine/Defaults.lean ====
section
/-! DEFINITION. The default values of the construction parameters (00_scope.md R9) and the checks on them
(70_reset_and_hazards.md R211, 20_memory.md R52). -/

namespace Sys2Proof

/-- The positions marked GK in R29 (D19, PRESUMED in log 5). -/
def DcsLayout.default : DcsLayout :=
  { cte := 0, hlt := 2, tt := 3, ar := 4, berr := 7, des8 := 30, ndes := 31 }

/-- The positions marked GK in R31 (D19, PRESUMED in log 5); `NAC`, `NWR` and `NRD` are D20. -/
def DcmLayout.default : DcmLayout :=
  { link := 0, tie := 1, stde := 2, nac := 3, nwr := 4, nrd := 5, dai := 22, sai := 23,
    blast := 25, eackm := 30, eacks := 31 }

/-- The positions marked GK in R36 (D19, PRESUMED in log 5). -/
def DmacLayout.default : DmacLayout :=
  { dmae := 0, ar := 2, hlt := 3, faic := 27, fuart := 28, ftssi := 29, fssi := 30, fmsc := 31 }

def FieldLayout.default : FieldLayout :=
  { dcs := .default, dcm := .default, dmac := .default }

/-- The 64 KiB RAM of fixture F1 of 95_test_vectors.md: addresses 0x0000 to 0xFFFF, a failing sub-access does nothing. -/
def Downstream.f1 : Downstream :=
  { regions := [{ base := 0, size := 0x10000, kind := .ram, readable := true, writable := true, aligned := false }],
    ownWindow := none, failedWrite := .nothing }

/-- The full 2^32-byte memory of fixture F2 of 95_test_vectors.md, where every sub-access succeeds. -/
def Downstream.f2 : Downstream :=
  { Downstream.f1 with
    regions := [{ base := 0, size := 0x100000000, kind := .ram, readable := true, writable := true, aligned := false }] }

/-- The parameter `DRT_AUTO`'s default (R9, D18, PRESUMED in log 6). -/
def Config.defaultDrtAuto : BitVec 6 := 0x08

/-- The configuration of 95_test_vectors.md's conventions: the maximum counts, the default parameters, fixture F1 (log 4). -/
def Config.default : Config :=
  { numCores := 2, numChannels := 5, windowSize := 0x414, drtAuto := Config.defaultDrtAuto,
    layout := .default, downstream := some .f1 }

/-- The parameters whose check of R211 fails. -/
def Config.failing (p : Config) : List Parameter :=
  (if 1 ≤ p.numChannels ∧ p.numChannels ≤ 5 then [] else [.numChannels]) ++
  (if 1 ≤ p.numCores ∧ p.numCores ≤ 2 then [] else [.numCores]) ++
  (if p.downstream.isSome then [] else [.downstream])

/-- `ConfigValid` of R211. -/
def Config.valid (p : Config) : Bool := p.failing.isEmpty

/-- The smallest window that holds every register (R52). -/
def Config.leastWindow (p : Config) : Nat := if p.numCores = 1 then 0x314 else 0x414

/-- The free parameters are among the values a model takes (R211): the window holds every register (R52, D10), however large
it is. `DRT_AUTO` may be any 6-bit value (D18), and the layout any layout (D19), two fields of a register on one bit
included: the accessors then read and set that one bit (log 17). -/
def Config.inRange (p : Config) : Bool := decide (p.leastWindow ≤ p.windowSize)

/-- A device with these parameters exists (R211, R212). -/
def Config.ok (p : Config) : Bool := p.valid && p.inRange

end Sys2Proof
end

