-- ==== Sys2Proof/Syntax.lean ====
section
/-! DEFINITION. The accesses of the register slave port (30_encoding.md R81, R86): the block has no instruction stream, and
each row of spec/opcode_table.json is one constructor of `Instr`. -/

namespace Sys2Proof

/-- An access as it arrives (R81): a direction, a byte offset in the register window, a size in bytes, and for a write the
32-bit value (absent for a read). That an offset has 32 bits is a DESIGN CHOICE (log 39, unsafe): R81 bounds it by
WINDOW_SIZE alone. -/
inductive Access where
  | read  (off : Word) (size : Nat)
  | write (off : Word) (size : Nat) (v : Word)
  deriving DecidableEq, Repr

/-- The operations of R86: one for each decoded register and direction, and the two `Bad` operations. `c` is the core
index, `h` the channel index, `off` the offset of a `Bad` access, `v` the written value. -/
inductive Instr where
  | rdDsa   (c : CoreId) (h : ChanId)
  | wrDsa   (c : CoreId) (h : ChanId) (v : Word)
  | rdDta   (c : CoreId) (h : ChanId)
  | wrDta   (c : CoreId) (h : ChanId) (v : Word)
  | rdDtc   (c : CoreId) (h : ChanId)
  | wrDtc   (c : CoreId) (h : ChanId) (v : Word)
  | rdDrt   (c : CoreId) (h : ChanId)
  | wrDrt   (c : CoreId) (h : ChanId) (v : Word)
  | rdDcs   (c : CoreId) (h : ChanId)
  | wrDcs   (c : CoreId) (h : ChanId) (v : Word)
  | rdDcm   (c : CoreId) (h : ChanId)
  | wrDcm   (c : CoreId) (h : ChanId) (v : Word)
  | rdDda   (c : CoreId) (h : ChanId)
  | wrDda   (c : CoreId) (h : ChanId) (v : Word)
  | rdDsd   (c : CoreId) (h : ChanId)
  | wrDsd   (c : CoreId) (h : ChanId) (v : Word)
  | rdDmac  (c : CoreId)
  | wrDmac  (c : CoreId) (v : Word)
  | rdDirqp (c : CoreId)
  | wrDirqp (c : CoreId) (v : Word)
  | rdDdr   (c : CoreId)
  | wrDdr   (c : CoreId) (v : Word)
  | rdDdrs  (c : CoreId)
  | wrDdrs  (c : CoreId) (v : Word)
  | rdDcke  (c : CoreId)
  | wrDcke  (c : CoreId) (v : Word)
  | rdBad   (off : Word)
  | wrBad   (off : Word) (v : Word)
  deriving DecidableEq, Repr

end Sys2Proof
end

