-- ==== Sys2Proof/Machine/State.lean ====
section
/-! DEFINITION. The state of the block (10_state.md), plain data, and the ways a step can stop. -/

namespace Sys2Proof.Machine

/-- The eight registers of a channel at their stored widths (R24 to R34). -/
structure Channel where
  dsa : Word
  dta : Word
  dtc : BitVec 24
  drt : BitVec 6
  dcs : Word
  dcm : Word
  dda : Word
  dsd : Word
  deriving DecidableEq, Repr

/-- A core's three storage cells (R35) and its channels, a fixed-capacity array of five (R15). -/
structure CoreBank where
  dmac     : Word
  pend     : Word
  dcke     : Word
  channels : Vector Channel 5
  deriving DecidableEq, Repr

/-- The diagnostic events that are logged, with the information R188 records: codes 1 to 9. -/
inductive Diag where
  | badOffsetRead     (off : Word)
  | badOffsetWrite    (off v : Word)
  | unimplRequestType (c : CoreId) (h : ChanId) (drt : BitVec 6)
  | unimplStride      (c : CoreId) (h : ChanId)
  | badSrcPortWidth   (c : CoreId) (h : ChanId) (sp : BitVec 2)
  | badDstPortWidth   (c : CoreId) (h : ChanId) (dp : BitVec 2)
  | badTransferSize   (c : CoreId) (h : ChanId) (tsz : BitVec 3)
  | unimplDescriptor  (c : CoreId) (h : ChanId)
  | unimplInterrupt   (c : CoreId) (h : ChanId)
  deriving DecidableEq, Repr

/-- The outcome of one run-channel (R194, R197). -/
inductive ChannelOutcome where
  /-- the predicate of R135 is false: nothing happens (R137) -/
  | notRunnable
  /-- `NDES = 0` (R141, code 8) -/
  | descriptorMode
  /-- a precondition failed: the halt outcome (R158), with the event logged (codes 3 to 7) -/
  | halted (d : Diag)
  /-- a sub-access failed (R166, codes 10 and 11) -/
  | addressError (dir : Dir)
  /-- the transfer succeeded (R143, R169) -/
  | success
  deriving DecidableEq, Repr

/-- The downstream's RAM: address and byte, in the canonical form of `Memory.wf`. -/
abbrev Memory := List Host.Cell

/-- What arrives at the block, one at a time (R14, R17): a register access, a reset (R20, R216), or a construction (R211). -/
inductive Request where
  | access (a : Access)
  | reset
  | construct (p : Config)
  deriving DecidableEq, Repr

/-- The machine. `cfg` is constant from construction on (R16, log 4). `cores`, `irq` and `log` are the spec's state (R15,
R19, R21); `mem` is the downstream's (R49); `port`, `reply`, `bus` and `draws` are the model's own: the requests not yet
served (log 2), what the last access returned (log 3), the sub-accesses issued so far (log 19), the draws made (log 12). -/
structure State where
  cfg   : Config
  cores : Vector CoreBank 2
  irq   : Bool
  log   : List Diag
  mem   : Memory
  port  : List Request
  reply : Option Word
  bus   : List BusOp
  draws : Nat
  deriving DecidableEq, Repr

/-- The faults the spec describes. -/
inductive Fault where
  /-- Raised by the step that constructs a device whose parameters fail R211 (code 12, `ConfigInvalid`), naming a failing
  parameter: no device exists (R212). Safe: the spec gives no state after it. -/
  | configInvalid (p : Parameter)
  deriving DecidableEq, Repr

/-- The refusals, each by name. -/
inductive Refusal where
  /-- Raised by an arm of exec whose instruction has no meaning yet. Safe. No arm raises it. -/
  | notModelled (mnemonic : String)
  /-- Raised by the step on an access of a size other than 4 (R129, D1, code 13). Safe: the spec refuses it too. -/
  | accessSize (off : Word) (size : Nat)
  /-- Raised by a sub-access that reaches the block's own register window (R77, D22). Safe: the spec refuses it too. -/
  | reentrant (dir : Dir) (addr : Word) (width : Nat)
  /-- Raised by the step on an access or a reset where no device exists (R212, D28). Safe: the spec refuses it too. -/
  | noDevice
  /-- Raised by the step that constructs a device whose WINDOW_SIZE is too small to hold every register (R52, R211). Safe: the
  spec gives such a model no meaning. -/
  | parameterOutOfRange
  deriving DecidableEq, Repr

/-- A channel after reset (R214). -/
def Channel.zero : Channel :=
  { dsa := 0, dta := 0, dtc := 0, drt := 0, dcs := 0, dcm := 0, dda := 0, dsd := 0 }

/-- A core after reset (R214). -/
def CoreBank.zero : CoreBank :=
  { dmac := 0, pend := 0, dcke := 0, channels := #v[.zero, .zero, .zero, .zero, .zero] }

/-- The state right after construction with parameters `p` over a downstream holding `mem` (R213, R214). -/
def State.constructed (p : Config) (mem : Memory) : State :=
  { cfg := p, cores := #v[.zero, .zero], irq := false, log := [], mem := mem, port := [], reply := none,
    bus := [], draws := 0 }

/-- The machine right after reset, under the default configuration (R214, R45, log 4, log 9). -/
def State.reset : State := State.constructed Config.default []

end Sys2Proof.Machine
end

