-- ==== Sys2Proof/Machine/Flags.lean ====
section
/-! DEFINITION. The bits and fields of the registers (10_state.md R29, R31, R33, R34, R36, R41) and the setting of a status
bit. The positions of the single-bit fields come from the configuration's FIELD_LAYOUT (R9). -/

namespace Sys2Proof.Machine

/-- The single bit `v[i]` (R11). -/
def bitAt (v : Word) (i : Fin 32) : Bool := v.getLsbD i.val

/-- `X.F <- 1`: sets a bit and leaves every other bit (R12). -/
def setBit (v : Word) (i : Fin 32) : Word := v ||| BitVec.twoPow 32 i.val

/-! ### DCS (R29) -/

def Channel.cte (l : FieldLayout) (ch : Channel) : Bool := bitAt ch.dcs l.dcs.cte
def Channel.hlt (l : FieldLayout) (ch : Channel) : Bool := bitAt ch.dcs l.dcs.hlt
def Channel.tt (l : FieldLayout) (ch : Channel) : Bool := bitAt ch.dcs l.dcs.tt
def Channel.ar (l : FieldLayout) (ch : Channel) : Bool := bitAt ch.dcs l.dcs.ar
def Channel.berr (l : FieldLayout) (ch : Channel) : Bool := bitAt ch.dcs l.dcs.berr
def Channel.des8 (l : FieldLayout) (ch : Channel) : Bool := bitAt ch.dcs l.dcs.des8
def Channel.ndes (l : FieldLayout) (ch : Channel) : Bool := bitAt ch.dcs l.dcs.ndes
def Channel.cdoa (ch : Channel) : BitVec 8 := ch.dcs.extractLsb' 16 8

/-! ### DCM (R31) -/

def Channel.link (l : FieldLayout) (ch : Channel) : Bool := bitAt ch.dcm l.dcm.link
def Channel.tie (l : FieldLayout) (ch : Channel) : Bool := bitAt ch.dcm l.dcm.tie
def Channel.stde (l : FieldLayout) (ch : Channel) : Bool := bitAt ch.dcm l.dcm.stde
def Channel.nac (l : FieldLayout) (ch : Channel) : Bool := bitAt ch.dcm l.dcm.nac
def Channel.nwr (l : FieldLayout) (ch : Channel) : Bool := bitAt ch.dcm l.dcm.nwr
def Channel.nrd (l : FieldLayout) (ch : Channel) : Bool := bitAt ch.dcm l.dcm.nrd
def Channel.dai (l : FieldLayout) (ch : Channel) : Bool := bitAt ch.dcm l.dcm.dai
def Channel.sai (l : FieldLayout) (ch : Channel) : Bool := bitAt ch.dcm l.dcm.sai
def Channel.blast (l : FieldLayout) (ch : Channel) : Bool := bitAt ch.dcm l.dcm.blast
def Channel.eackm (l : FieldLayout) (ch : Channel) : Bool := bitAt ch.dcm l.dcm.eackm
def Channel.eacks (l : FieldLayout) (ch : Channel) : Bool := bitAt ch.dcm l.dcm.eacks
def Channel.tsz (ch : Channel) : BitVec 3 := ch.dcm.extractLsb' 8 3
def Channel.dp (ch : Channel) : BitVec 2 := ch.dcm.extractLsb' 12 2
def Channel.sp (ch : Channel) : BitVec 2 := ch.dcm.extractLsb' 14 2
def Channel.rdil (ch : Channel) : BitVec 4 := ch.dcm.extractLsb' 16 4
def Channel.erdm (ch : Channel) : BitVec 2 := ch.dcm.extractLsb' 28 2

/-! ### DDA (R33) and DSD (R34) -/

def Channel.doa (ch : Channel) : BitVec 8 := ch.dda.extractLsb' 4 8
def Channel.dba (ch : Channel) : BitVec 20 := ch.dda.extractLsb' 12 20
def Channel.ssd (ch : Channel) : BitVec 16 := ch.dsd.extractLsb' 0 16
def Channel.tsd (ch : Channel) : BitVec 16 := ch.dsd.extractLsb' 16 16

/-! ### DMAC (R36) -/

def CoreBank.dmae (l : FieldLayout) (k : CoreBank) : Bool := bitAt k.dmac l.dmac.dmae
def CoreBank.ar (l : FieldLayout) (k : CoreBank) : Bool := bitAt k.dmac l.dmac.ar
def CoreBank.hlt (l : FieldLayout) (k : CoreBank) : Bool := bitAt k.dmac l.dmac.hlt
def CoreBank.faic (l : FieldLayout) (k : CoreBank) : Bool := bitAt k.dmac l.dmac.faic
def CoreBank.fuart (l : FieldLayout) (k : CoreBank) : Bool := bitAt k.dmac l.dmac.fuart
def CoreBank.ftssi (l : FieldLayout) (k : CoreBank) : Bool := bitAt k.dmac l.dmac.ftssi
def CoreBank.fssi (l : FieldLayout) (k : CoreBank) : Bool := bitAt k.dmac l.dmac.fssi
def CoreBank.fmsc (l : FieldLayout) (k : CoreBank) : Bool := bitAt k.dmac l.dmac.fmsc
def CoreBank.pm (k : CoreBank) : BitVec 2 := k.dmac.extractLsb' 8 2

/-! ### Setting a status bit (R41): the only writes the block itself makes to DCS and DMAC (R30, R37) -/

def Channel.setHlt (l : FieldLayout) (ch : Channel) : Channel := { ch with dcs := setBit ch.dcs l.dcs.hlt }
def Channel.setTt (l : FieldLayout) (ch : Channel) : Channel := { ch with dcs := setBit ch.dcs l.dcs.tt }
def Channel.setAr (l : FieldLayout) (ch : Channel) : Channel := { ch with dcs := setBit ch.dcs l.dcs.ar }
def CoreBank.setHlt (l : FieldLayout) (k : CoreBank) : CoreBank := { k with dmac := setBit k.dmac l.dmac.hlt }
def CoreBank.setAr (l : FieldLayout) (k : CoreBank) : CoreBank := { k with dmac := setBit k.dmac l.dmac.ar }

end Sys2Proof.Machine
end

