-- ==== Sys2Proof/Machine/Operands.lean ====
section
/-! DEFINITION. The operand forms: what a register keeps of a written value and gives back (30_encoding.md R87, R88), and
the codes of the port widths and the transfer size (R92, R93). -/

namespace Sys2Proof.Machine

/-- `DTC` keeps `v[23:0]` (R87, R27). -/
def dtcOf (v : Word) : BitVec 24 := v.extractLsb' 0 24

/-- `DRT` keeps `v[5:0]` (R87, R28). -/
def drtOf (v : Word) : BitVec 6 := v.extractLsb' 0 6

/-- `zext_32` (R11, R88). -/
def zext32 {n : Nat} (v : BitVec n) : Word := v.setWidth 32

/-- `PortWidth(code)` of R92: the width in bytes, or none (codes 1 and 2: D27, log 7). -/
def portWidth (code : BitVec 2) : Option Nat :=
  match code.toNat with
  | 0 => some 4
  | 1 => some 1
  | 2 => some 2
  | _ => none

/-- `TransferSize(code)` of R93: the size of a unit in bytes, or none. -/
def transferSize (code : BitVec 3) : Option Nat :=
  match code.toNat with
  | 0 => some 4
  | 1 => some 1
  | 2 => some 2
  | 3 => some 16
  | 4 => some 32
  | 5 => some 64
  | _ => none

/-- `ceil(tsz / width)`: the sub-accesses of a phase (R60, R161, R162). -/
def subCount (tsz width : Nat) : Nat := (tsz + width - 1) / width

end Sys2Proof.Machine
end

