-- ==== Sys2Proof/Machine/Ops.lean ====
section
/-! DEFINITION. The named operations over memory, registers and the diagnostic log, and the recording of an outcome
(42_bus_sequencer.md R158, R166; 41_scheduler.md R141, R143), which is all that stands for an exception here (R187). -/

namespace Sys2Proof.Machine

/-! ### Memory -/

/-- What an address that nothing has written reads as (log 9). -/
def Memory.unlisted : Byte := 0

/-- The byte at an address. -/
def Memory.read : Memory → Nat → Byte
  | [], _ => Memory.unlisted
  | (k, b) :: m, a => if k = a then b else Memory.read m a

/-- A cell in front of a memory, unless it holds what an unlisted address reads as. -/
def Memory.put (a : Nat) (b : Byte) (m : Memory) : Memory :=
  if b = Memory.unlisted then m else (a, b) :: m

/-- Writes a byte, keeping the canonical form. -/
def Memory.write : Memory → Nat → Byte → Memory
  | [], a, b => Memory.put a b []
  | (k, x) :: m, a, b =>
    if a < k then Memory.put a b ((k, x) :: m)
    else if a = k then Memory.put a b m
    else (k, x) :: Memory.write m a b

/-- Every address listed is above `a`, if any is. -/
def Memory.above (a : Nat) : Memory → Bool
  | [] => true
  | (k, _) :: _ => decide (a < k)

/-- The canonical form: addresses of the 2^32-byte space (R49) strictly rising, and no entry equal to what an unlisted
address reads as. -/
def Memory.wf : Memory → Bool
  | [] => true
  | (a, b) :: m => decide (a < 2 ^ 32) && decide (b ≠ Memory.unlisted) && Memory.above a m && Memory.wf m

/-- The byte address `a + j`, modulo 2^32 (R54, D6). -/
def byteAddr (a : Word) (j : Nat) : Word := a + BitVec.ofNat 32 j

/-- The `n` bytes from `a` on, in address order (R54). -/
def Memory.readBytes (m : Memory) (a : Word) (n : Nat) : List Byte :=
  (List.range n).map fun j => m.read (byteAddr a j).toNat

/-- Writes bytes from `a` on, in address order (R54). -/
def Memory.writeBytes (m : Memory) (a : Word) : List Byte → Memory
  | [] => m
  | b :: bs => Memory.writeBytes (m.write a.toNat b) (byteAddr a 1) bs

/-! ### The register banks -/

/-- `CORE[c]` (R12). -/
def State.core (s : State) (c : CoreId) : CoreBank := s.cores[c]

/-- `CH[c][h]` (R12). -/
def State.chan (s : State) (c : CoreId) (h : ChanId) : Channel := (s.core c).channels[h]

/-- Replaces the bank of a core. -/
def State.setCore (s : State) (c : CoreId) (k : CoreBank) : State :=
  { s with cores := s.cores.set c.val k c.isLt }

/-- Replaces the registers of a channel. -/
def State.setChan (s : State) (c : CoreId) (h : ChanId) (ch : Channel) : State :=
  s.setCore c { s.core c with channels := (s.core c).channels.set h.val ch h.isLt }

/-! ### The ports -/

/-- What the slave port returns for the access (R17): a word for a read, nothing for a write. -/
def State.respond (s : State) (r : Option Word) : State := { s with reply := r }

/-- The downstream's RAM after a write. -/
def State.setMem (s : State) (m : Memory) : State := { s with mem := m }

/-- The counter of free values after draws (R13). -/
def State.setDraws (s : State) (n : Nat) : State := { s with draws := n }

/-- The requests still waiting. -/
def State.setPort (s : State) (p : List Request) : State := { s with port := p }

/-- `log K(info)` (R13): appends an event and continues. -/
def State.logDiag (s : State) (d : Diag) : State := { s with log := s.log ++ [d] }

/-! ### Recording an outcome -/

/-- `HaltOutcome(c, h)` of R158. -/
def haltOutcome (c : CoreId) (h : ChanId) (s : State) : State :=
  let s1 := s.setCore c ((s.core c).setHlt s.cfg.layout)
  s1.setChan c h ((s1.chan c h).setHlt s1.cfg.layout)

/-- `AddressError(c, h)` of R166. -/
def addressError (c : CoreId) (h : ChanId) (s : State) : State :=
  let s1 := s.setChan c h ((s.chan c h).setAr s.cfg.layout)
  s1.setCore c ((s1.core c).setAr s1.cfg.layout)

/-- The detection of descriptor mode (R141): an event, and the core's halt bit only (C4). -/
def descriptorHalt (c : CoreId) (h : ChanId) (s : State) : State :=
  let s1 := s.logDiag (.unimplDescriptor c h)
  s1.setCore c ((s1.core c).setHlt s1.cfg.layout)

/-- The completion of a transfer (R143): the channel's `TT` only (C3). -/
def completeTransfer (c : CoreId) (h : ChanId) (s : State) : State :=
  s.setChan c h ((s.chan c h).setTt s.cfg.layout)

/-! ### The codes of R188 (D26) -/

/-- The code of a logged event. -/
def Diag.code : Diag → Nat
  | .badOffsetRead _ => 1
  | .badOffsetWrite _ _ => 2
  | .unimplRequestType _ _ _ => 3
  | .unimplStride _ _ => 4
  | .badSrcPortWidth _ _ _ => 5
  | .badDstPortWidth _ _ _ => 6
  | .badTransferSize _ _ _ => 7
  | .unimplDescriptor _ _ => 8
  | .unimplInterrupt _ _ => 9

/-- The two classes of the diagnostic log (R21, R188): true for a guest error, false for an unimplemented feature. -/
def Diag.guestError : Diag → Bool
  | .badOffsetRead _ => true
  | .badOffsetWrite _ _ => true
  | .unimplRequestType _ _ _ => false
  | .unimplStride _ _ => false
  | .badSrcPortWidth _ _ _ => true
  | .badDstPortWidth _ _ _ => true
  | .badTransferSize _ _ _ => true
  | .unimplDescriptor _ _ => false
  | .unimplInterrupt _ _ => false

/-- The code of an outcome of run-channel that has one. -/
def ChannelOutcome.code : ChannelOutcome → Option Nat
  | .notRunnable => none
  | .descriptorMode => some 8
  | .halted d => some d.code
  | .addressError .read => some 10
  | .addressError .write => some 11
  | .success => none

def Fault.code : Fault → Nat
  | .configInvalid _ => 12

/-- The code of the one refusal that has one. -/
def Refusal.code : Refusal → Option Nat
  | .accessSize _ _ => some 13
  | _ => none

end Sys2Proof.Machine
end

