-- ==== Sys2Proof/Machine/Construct.lean ====
section
/-! DEFINITION. Construction and reset as steps (00_scope.md R14, 70_reset_and_hazards.md R211 to R217), and the saving and
restoring of a device's state, which is no step (R218). -/

namespace Sys2Proof.Machine

/-- A channel after `Reset()`, by index: the configured ones are zeroed (R214). -/
def resetChan (cfg : Config) (k : CoreBank) (h : ChanId) : Channel :=
  if h.val < cfg.numChannels then .zero else k.channels[h]

/-- A core after `Reset()`, by index: the configured ones are zeroed (R214). -/
def resetCore (cfg : Config) (s : State) (c : CoreId) : CoreBank :=
  if c.val < cfg.numCores then
    { dmac := 0, pend := 0, dcke := 0,
      channels := #v[resetChan cfg (s.core c) 0, resetChan cfg (s.core c) 1, resetChan cfg (s.core c) 2,
        resetChan cfg (s.core c) 3, resetChan cfg (s.core c) 4] }
  else s.core c

/-- `Reset()` of R214: no pass, no downstream access, no event, and the log as it was (R215, D30). -/
def resetDevice (s : State) : State :=
  { s with cores := #v[resetCore s.cfg s 0, resetCore s.cfg s 1], irq := false, reply := none }

/-- The parameter a construction error names: any of the failing ones (R212, spec/93 item 24, log 16). -/
def namedParameter (p : Config) : Parameter :=
  match p.failing with
  | [] => .downstream
  | q :: qs => (q :: qs).getD (Config.namedFailure p % (q :: qs).length) q

/-- Construction (R211 to R213): a device in the reset state, or the construction error of code 12. The downstream and the
host's log are not the device's; they stay (log 16). -/
def construct (p : Config) (s : State) : Host.Outcome State Fault Refusal :=
  if p.valid then
    if p.inRange then
      .next { s with cfg := p, cores := #v[.zero, .zero], irq := false, reply := none }
    else .refused .parameterOutOfRange
  else .fault (.configInvalid (namedParameter p))

/-- The reset request (R216), on a device that exists (R212). -/
def resetRequest (s : State) : Host.Outcome State Fault Refusal :=
  if s.cfg.ok then .next (resetDevice s) else .refused .noDevice

/-- The state to save (R218): exactly the registers of R24 to R40. No format is given for it. -/
def State.saved (s : State) : Vector CoreBank 2 := s.cores

/-- Restoring a saved state (R218): the registers take the saved values, and no scheduler pass starts. -/
def State.restored (s : State) (saved : Vector CoreBank 2) : State := { s with cores := saved }

end Sys2Proof.Machine
end

