-- ==== Sys2Proof/Machine/RegMap.lean ====
section
/-! DEFINITION. The register map: from a window offset to a register location (30_encoding.md R82 to R85) and back
(10_state.md R24, R35). -/

namespace Sys2Proof

/-- The eight registers of a channel (R24). -/
inductive ChReg where
  | dsa | dta | dtc | drt | dcs | dcm | dda | dsd
  deriving DecidableEq, Repr

/-- The five register offsets of a core (R35, C1). -/
inductive CoReg where
  | dmac | dirqp | ddr | ddrs | dcke
  deriving DecidableEq, Repr

/-- What an offset selects (R83). -/
inductive Loc where
  | ch (c : CoreId) (h : ChanId) (r : ChReg)
  | co (c : CoreId) (r : CoReg)
  | bad
  deriving DecidableEq, Repr

/-- The selectors of form CH (R83, R24). -/
def ChReg.ofSel (sel : BitVec 5) : Option ChReg :=
  match sel.toNat with
  | 0x00 => some .dsa
  | 0x04 => some .dta
  | 0x08 => some .dtc
  | 0x0c => some .drt
  | 0x10 => some .dcs
  | 0x14 => some .dcm
  | 0x18 => some .dda
  | 0x1c => some .dsd
  | _ => none

/-- The selectors of form CR (R83, R35). -/
def CoReg.ofSel (sel : BitVec 8) : Option CoReg :=
  match sel.toNat with
  | 0x00 => some .dmac
  | 0x04 => some .dirqp
  | 0x08 => some .ddr
  | 0x0c => some .ddrs
  | 0x10 => some .dcke
  | _ => none

/-- A decoded core index is valid exactly when it is below the configured count (R84, D9); the counts are at most 2. -/
def coreIndex (cfg : Config) (n : Nat) : Option CoreId :=
  if hn : n < 2 then (if n < cfg.numCores then some ⟨n, hn⟩ else none) else none

/-- A decoded channel index is valid exactly when it is below the configured count (R84, D9); the counts are at most 5. -/
def chanIndex (cfg : Config) (n : Nat) : Option ChanId :=
  if hn : n < 5 then (if n < cfg.numChannels then some ⟨n, hn⟩ else none) else none

/-- `CH_BOUNDARY` (R10): offsets below it are form CH, the others form CR. -/
def chBoundary : Word := 0x300

/-- `Decode` of R83 for form CH: `c = off[9:8]`, `h = off[7:5]`, `sel = off[4:0]` (R82). -/
def locateCh (cfg : Config) (off : Word) : Loc :=
  match coreIndex cfg (off.extractLsb' 8 2).toNat, chanIndex cfg (off.extractLsb' 5 3).toNat,
      ChReg.ofSel (off.extractLsb' 0 5) with
  | some c, some h, some r => .ch c h r
  | _, _, _ => .bad

/-- `Decode` of R83 for form CR: `c = (off - 0x300)[9:8]`, `sel = off[7:0]` (R82). Only these bits count, so offsets from
0x700 up alias with period 0x400 (R85). -/
def locateCr (cfg : Config) (off : Word) : Loc :=
  match coreIndex cfg ((off - chBoundary).extractLsb' 8 2).toNat, CoReg.ofSel (off.extractLsb' 0 8) with
  | some c, some r => .co c r
  | _, _ => .bad

/-- `Decode(off)` of R83, a total function. -/
def locate (cfg : Config) (off : Word) : Loc :=
  if off.toNat < chBoundary.toNat then locateCh cfg off else locateCr cfg off

/-- The selector of a channel register (R24). -/
def ChReg.sel : ChReg → Nat
  | .dsa => 0x00 | .dta => 0x04 | .dtc => 0x08 | .drt => 0x0c
  | .dcs => 0x10 | .dcm => 0x14 | .dda => 0x18 | .dsd => 0x1c

/-- The selector of a core register (R35). -/
def CoReg.sel : CoReg → Nat
  | .dmac => 0x00 | .dirqp => 0x04 | .ddr => 0x08 | .ddrs => 0x0c | .dcke => 0x10

/-- The offset of a channel register: `0x100*c + 0x20*h + sel` (R24). -/
def ChReg.offset (c : CoreId) (h : ChanId) (r : ChReg) : Word :=
  BitVec.ofNat 32 (0x100 * c.val + 0x20 * h.val + r.sel)

/-- The offset of a core register: `0x300 + 0x100*c + sel` (R35). -/
def CoReg.offset (c : CoreId) (r : CoReg) : Word :=
  BitVec.ofNat 32 (0x300 + 0x100 * c.val + r.sel)

end Sys2Proof
end

