-- ==== Sys2Proof/WellFormed.lean ====
section
/-! DEFINITION. Which instructions an access can decode to under a configuration (30_encoding.md R83, R84; 20_memory.md
R48). -/

namespace Sys2Proof

/-- The core index exists (R84). -/
def coreExists (cfg : Config) (c : CoreId) : Bool := decide (c.val < cfg.numCores)

/-- The core and the channel index exist (R84). -/
def chanExists (cfg : Config) (c : CoreId) (h : ChanId) : Bool :=
  coreExists cfg c && decide (h.val < cfg.numChannels)

/-- A `Bad` access names an offset of the window that selects no register (R50, R83). -/
def badOffset (cfg : Config) (off : Word) : Bool :=
  decide (off.toNat < cfg.windowSize) && decide (locate cfg off = .bad)

/-- The instruction exists under the configuration. -/
def Instr.wf (cfg : Config) : Instr → Bool
  | .rdDsa c h => chanExists cfg c h
  | .wrDsa c h _ => chanExists cfg c h
  | .rdDta c h => chanExists cfg c h
  | .wrDta c h _ => chanExists cfg c h
  | .rdDtc c h => chanExists cfg c h
  | .wrDtc c h _ => chanExists cfg c h
  | .rdDrt c h => chanExists cfg c h
  | .wrDrt c h _ => chanExists cfg c h
  | .rdDcs c h => chanExists cfg c h
  | .wrDcs c h _ => chanExists cfg c h
  | .rdDcm c h => chanExists cfg c h
  | .wrDcm c h _ => chanExists cfg c h
  | .rdDda c h => chanExists cfg c h
  | .wrDda c h _ => chanExists cfg c h
  | .rdDsd c h => chanExists cfg c h
  | .wrDsd c h _ => chanExists cfg c h
  | .rdDmac c => coreExists cfg c
  | .wrDmac c _ => coreExists cfg c
  | .rdDirqp c => coreExists cfg c
  | .wrDirqp c _ => coreExists cfg c
  | .rdDdr c => coreExists cfg c
  | .wrDdr c _ => coreExists cfg c
  | .rdDdrs c => coreExists cfg c
  | .wrDdrs c _ => coreExists cfg c
  | .rdDcke c => coreExists cfg c
  | .wrDcke c _ => coreExists cfg c
  | .rdBad off => badOffset cfg off
  | .wrBad off _ => badOffset cfg off

end Sys2Proof
end

