-- ==== Sys2Proof/Decode.lean ====
section
/-! DEFINITION. The decoder of register accesses (30_encoding.md R81 to R86, R98, R99; 40_decode_dispatch.md R101, R102,
R129) and the encoder. The spec gives an access as a tuple, not as bits: the nine-byte record that carries the tuple here
is the model's own (log 1). -/

namespace Sys2Proof

/-- Why bytes or an access name no instruction. -/
inductive DecodeError where
  /-- fewer bytes than an access record has -/
  | truncated
  /-- an access of a size other than 4 has no meaning (R99, R129, D1) -/
  | accessSize (off : Word) (size : Nat)
  deriving DecidableEq, Repr

/-- The read operation of a location (R86, R101). -/
def Loc.readInstr (off : Word) : Loc → Instr
  | .ch c h .dsa => .rdDsa c h
  | .ch c h .dta => .rdDta c h
  | .ch c h .dtc => .rdDtc c h
  | .ch c h .drt => .rdDrt c h
  | .ch c h .dcs => .rdDcs c h
  | .ch c h .dcm => .rdDcm c h
  | .ch c h .dda => .rdDda c h
  | .ch c h .dsd => .rdDsd c h
  | .co c .dmac  => .rdDmac c
  | .co c .dirqp => .rdDirqp c
  | .co c .ddr   => .rdDdr c
  | .co c .ddrs  => .rdDdrs c
  | .co c .dcke  => .rdDcke c
  | .bad => .rdBad off

/-- The write operation of a location (R86, R102). -/
def Loc.writeInstr (off v : Word) : Loc → Instr
  | .ch c h .dsa => .wrDsa c h v
  | .ch c h .dta => .wrDta c h v
  | .ch c h .dtc => .wrDtc c h v
  | .ch c h .drt => .wrDrt c h v
  | .ch c h .dcs => .wrDcs c h v
  | .ch c h .dcm => .wrDcm c h v
  | .ch c h .dda => .wrDda c h v
  | .ch c h .dsd => .wrDsd c h v
  | .co c .dmac  => .wrDmac c v
  | .co c .dirqp => .wrDirqp c v
  | .co c .ddr   => .wrDdr c v
  | .co c .ddrs  => .wrDdrs c v
  | .co c .dcke  => .wrDcke c v
  | .bad => .wrBad off v

/-- The entry points `RegRead` and `RegWrite` (R101, R102): the size is checked first, then the offset is decoded. -/
def decodeAccess (cfg : Config) : Access → Except DecodeError Instr
  | .read off size =>
    if size = 4 then .ok ((locate cfg off).readInstr off) else .error (.accessSize off size)
  | .write off size v =>
    if size = 4 then .ok ((locate cfg off).writeInstr off v) else .error (.accessSize off size)

/-! ### The access record: bytes 0 to 3 the offset, 4 to 7 the value, byte 8 the direction (bit 0) and the size (bits 7:1,
stored exclusive-or 4, so that a record of zeros above the offset is a 4-byte read) (log 1) -/

/-- A word from its four bytes, the first the least significant. -/
def wordOfBytes (b0 b1 b2 b3 : Byte) : Word := b3 ++ b2 ++ b1 ++ b0

/-- The size field of a record's last byte. -/
def sizeOfControl (b : Byte) : Nat := (b.extractLsb' 1 7 ^^^ 4#7).toNat

/-- The access that a record carries, with the bytes after it. -/
def Access.ofBytes : List Byte → Except DecodeError (Access × List Byte)
  | o0 :: o1 :: o2 :: o3 :: v0 :: v1 :: v2 :: v3 :: ctl :: rest =>
    let off := wordOfBytes o0 o1 o2 o3
    let size := sizeOfControl ctl
    .ok (if ctl.getLsbD 0 then .write off size (wordOfBytes v0 v1 v2 v3) else .read off size, rest)
  | _ => .error .truncated

/-- The instruction that a list of bytes begins with, and the bytes after it: total, rejecting by name. -/
def decode (cfg : Config) (bytes : List Byte) : Except DecodeError (Instr × List Byte) :=
  match Access.ofBytes bytes with
  | .error e => .error e
  | .ok (a, rest) =>
    match decodeAccess cfg a with
    | .error e => .error e
    | .ok i => .ok (i, rest)

/-! ### The encoder -/

/-- The access that performs an instruction, at its register's offset (R24, R35, R100), 4 bytes wide. -/
def Instr.access : Instr → Access
  | .rdDsa c h => .read (ChReg.offset c h .dsa) 4
  | .wrDsa c h v => .write (ChReg.offset c h .dsa) 4 v
  | .rdDta c h => .read (ChReg.offset c h .dta) 4
  | .wrDta c h v => .write (ChReg.offset c h .dta) 4 v
  | .rdDtc c h => .read (ChReg.offset c h .dtc) 4
  | .wrDtc c h v => .write (ChReg.offset c h .dtc) 4 v
  | .rdDrt c h => .read (ChReg.offset c h .drt) 4
  | .wrDrt c h v => .write (ChReg.offset c h .drt) 4 v
  | .rdDcs c h => .read (ChReg.offset c h .dcs) 4
  | .wrDcs c h v => .write (ChReg.offset c h .dcs) 4 v
  | .rdDcm c h => .read (ChReg.offset c h .dcm) 4
  | .wrDcm c h v => .write (ChReg.offset c h .dcm) 4 v
  | .rdDda c h => .read (ChReg.offset c h .dda) 4
  | .wrDda c h v => .write (ChReg.offset c h .dda) 4 v
  | .rdDsd c h => .read (ChReg.offset c h .dsd) 4
  | .wrDsd c h v => .write (ChReg.offset c h .dsd) 4 v
  | .rdDmac c => .read (CoReg.offset c .dmac) 4
  | .wrDmac c v => .write (CoReg.offset c .dmac) 4 v
  | .rdDirqp c => .read (CoReg.offset c .dirqp) 4
  | .wrDirqp c v => .write (CoReg.offset c .dirqp) 4 v
  | .rdDdr c => .read (CoReg.offset c .ddr) 4
  | .wrDdr c v => .write (CoReg.offset c .ddr) 4 v
  | .rdDdrs c => .read (CoReg.offset c .ddrs) 4
  | .wrDdrs c v => .write (CoReg.offset c .ddrs) 4 v
  | .rdDcke c => .read (CoReg.offset c .dcke) 4
  | .wrDcke c v => .write (CoReg.offset c .dcke) 4 v
  | .rdBad off => .read off 4
  | .wrBad off v => .write off 4 v

/-- The four bytes of a word, the least significant first. -/
def bytesOfWord (w : Word) : List Byte :=
  [w.extractLsb' 0 8, w.extractLsb' 8 8, w.extractLsb' 16 8, w.extractLsb' 24 8]

/-- The last byte of a record. -/
def controlByte (write : Bool) (size : Nat) : Byte :=
  (BitVec.ofNat 7 size ^^^ 4#7) ++ BitVec.ofBool write

/-- The record that carries an access; a read's value bytes are zero. -/
def Access.bytes : Access → List Byte
  | .read off size => bytesOfWord off ++ [0, 0, 0, 0] ++ [controlByte false size]
  | .write off size v => bytesOfWord off ++ bytesOfWord v ++ [controlByte true size]

/-- The words of an instruction. -/
def encode (i : Instr) : List Byte := i.access.bytes

/-! ### The host's numbering of a record: bit 0 is bit 0 of the first byte, the offset's bit 0 -/

/-- The first `n` bytes of a number, the least significant first. -/
def bytesOfNat : Nat → Nat → List Byte
  | 0, _ => []
  | n + 1, w => BitVec.ofNat 8 w :: bytesOfNat n (w / 256)

/-- The nine bytes of a record whose low `nbits` bits are those of `w` and whose bits above are 0. -/
def recordOfNat (nbits w : Nat) : List Byte := bytesOfNat 9 (w % 2 ^ nbits)

/-- The access in a record given as a number; nine bytes always hold one. -/
def accessOfNat (nbits w : Nat) : Option Access :=
  match Access.ofBytes (recordOfNat nbits w) with
  | .ok (a, _) => some a
  | .error _ => none

/-- The instruction the decoder reads from a record given as a number, under the default configuration. -/
def decodeTableWord (nbits w : Nat) : Option Instr :=
  match decode Config.default (recordOfNat nbits w) with
  | .ok (i, _) => some i
  | .error _ => none

end Sys2Proof
end

