-- ==== Sys2Proof/Machine/Downstream.lean ====
section
/-! DEFINITION. The downstream master port: `MemRead` and `MemWrite` (00_scope.md R13, 10_state.md R18, 20_memory.md R49 to
R66, 42_bus_sequencer.md R174). The block checks nothing (R57, R66); what is checked here is the downstream's answer. -/

namespace Sys2Proof.Machine

/-- The address lies in the region, which may run over the top of the space. -/
def Region.covers (r : Region) (a : Word) : Bool := decide ((a - r.base).toNat < r.size)

/-- The first region that holds an address. -/
def regionAt (d : Downstream) (a : Word) : Option Region := d.regions.find? (Region.covers · a)

/-- The address lies in the block's own register window (R77). -/
def inOwnWindow (cfg : Config) (d : Downstream) (a : Word) : Bool :=
  match d.ownWindow with
  | none => false
  | some base => decide ((a - base).toNat < cfg.windowSize)

/-- The region lets a sub-access of `n` bytes at `a` in this direction succeed. -/
def Region.admits (r : Region) (dir : Dir) (a : Word) (n : Nat) : Bool :=
  (match dir with
    | .read => r.readable
    | .write => r.writable) &&
  (!r.aligned || decide (a.toNat % n = 0))

/-- Byte `j` of a sub-access lies in RAM that lets the sub-access succeed. -/
def ramByte (d : Downstream) (dir : Dir) (a : Word) (n j : Nat) : Bool :=
  match regionAt d (byteAddr a j) with
  | some r => decide (r.kind = .ram) && Region.admits r dir a n
  | none => false

/-- Byte `j` of a sub-access lies in a device that lets the sub-access succeed. -/
def deviceByte (d : Downstream) (dir : Dir) (a : Word) (n j : Nat) : Bool :=
  match regionAt d (byteAddr a j) with
  | some r => decide (r.kind = .device) && Region.admits r dir a n
  | none => false

/-- What answers a sub-access. -/
inductive Route where
  /-- the block's own register window: refused (R77, D22) -/
  | own
  | ram
  | device
  /-- no region lets it succeed -/
  | unmapped
  deriving DecidableEq, Repr

/-- What answers a sub-access of `n` bytes at `a`, over a downstream that is present. -/
def routeOn (cfg : Config) (d : Downstream) (dir : Dir) (a : Word) (n : Nat) : Route :=
  if (List.range n).any fun j => inOwnWindow cfg d (byteAddr a j) then .own
  else if (List.range n).all fun j => ramByte d dir a n j then .ram
  else if (List.range n).all fun j => deviceByte d dir a n j then .device
  else .unmapped

/-- What answers a sub-access of `n` bytes at `a`. -/
def route (cfg : Config) (dir : Dir) (a : Word) (n : Nat) : Route :=
  match cfg.downstream with
  | none => .unmapped
  | some d => routeOn cfg d dir a n

/-- What a piece of the engine's work ends in: a value and the state, a sub-access that failed (R166), or a sub-access the
model refuses (R77). -/
inductive EngineResult (α : Type) where
  | ok (x : α) (s : State)
  | fault (dir : Dir) (s : State)
  | refuse (r : Refusal)

/-- Records a sub-access that was issued (log 19). -/
def State.issue (s : State) (op : BusOp) : State := { s with bus := s.bus ++ [op] }

/-- A read sub-access that got bytes. -/
def readOk (a : Word) (n : Nat) (bytes : List Byte) (s : State) : EngineResult (List Byte) :=
  .ok bytes (s.issue (.read a n (some bytes)))

/-- A read sub-access that failed. -/
def readFault (a : Word) (n : Nat) (s : State) : EngineResult (List Byte) :=
  .fault .read (s.issue (.read a n none))

/-- `MemRead(addr, n)` (R13, R54): the bytes at `a` to `a + n - 1` in address order, or `Fault`. -/
def memRead (a : Word) (n : Nat) (s : State) : EngineResult (List Byte) :=
  match route s.cfg .read a n with
  | .own => .refuse (.reentrant .read a n)
  | .ram => readOk a n (s.mem.readBytes a n) s
  | .device =>
    if Config.deviceAnswers s.bus a n
    then readOk a n ((List.range n).map (Config.deviceByte s.bus a n)) s
    else readFault a n s
  | .unmapped => readFault a n s

/-- Byte `j` of a failing write lies in RAM and landed (R61, log 10). -/
def failedByteLands (d : Downstream) (bus : List BusOp) (a : Word) (bytes : List Byte) (j : Nat) : Bool :=
  match regionAt d (byteAddr a j) with
  | some r => decide (r.kind = .ram) && r.writable && Config.failedByteLands bus a bytes j
  | none => false

/-- What a failing write leaves in RAM, byte after byte from byte `j` on (R61, D23). -/
def Memory.afterFailedWrite (d : Downstream) (bus : List BusOp) (a : Word) (bytes : List Byte) :
    Nat → List Byte → Memory → Memory
  | _, [], m => m
  | j, b :: bs, m =>
    Memory.afterFailedWrite d bus a bytes (j + 1) bs
      (if failedByteLands d bus a bytes j then m.write (byteAddr a j).toNat b else m)

/-- The RAM after a write that failed: as it was, or with some of the write's bytes, as the downstream has it. -/
def memoryAfterFault (a : Word) (bytes : List Byte) (s : State) : Memory :=
  match s.cfg.downstream with
  | none => s.mem
  | some d =>
    match d.failedWrite with
    | .nothing => s.mem
    | .free => s.mem.afterFailedWrite d s.bus a bytes 0 bytes

/-- A write sub-access that the downstream took, with the RAM it leaves. -/
def writeOk (a : Word) (bytes : List Byte) (m : Memory) (s : State) : EngineResult Unit :=
  .ok () ((s.issue (.write a bytes true)).setMem m)

/-- A write sub-access that failed. -/
def writeFault (a : Word) (bytes : List Byte) (s : State) : EngineResult Unit :=
  .fault .write ((s.issue (.write a bytes false)).setMem (memoryAfterFault a bytes s))

/-- `MemWrite(addr, n, bytes)` (R13, R54), `n` being the number of bytes: stores them at `a` to `a + n - 1` in address
order, or `Fault`. -/
def memWrite (a : Word) (bytes : List Byte) (s : State) : EngineResult Unit :=
  match route s.cfg .write a bytes.length with
  | .own => .refuse (.reentrant .write a bytes.length)
  | .ram => writeOk a bytes (s.mem.writeBytes a bytes) s
  | .device =>
    if Config.deviceAccepts s.bus a bytes then writeOk a bytes s.mem s else writeFault a bytes s
  | .unmapped => writeFault a bytes s

end Sys2Proof.Machine
end

