-- ==== Sys2Proof/Machine/Stride.lean ====
section
/-! DEFINITION. The address-stride controller (43_address_stride.md R176 to R186). It reads no bit of `DSD` (R182). -/

namespace Sys2Proof.Machine

/-- An address after an advance by a port width, modulo 2^32 (R178), if the increment bit is set; fixed otherwise (R180). -/
def advanced (inc : Bool) (a : Word) (width : Nat) : Word :=
  if inc then a + BitVec.ofNat 32 width else a

/-- `AdvanceSrc(c, h, sp)` of R176. -/
def advanceSrc (c : CoreId) (h : ChanId) (sp : Nat) (s : State) : State :=
  let ch := s.chan c h
  s.setChan c h { ch with dsa := advanced (ch.sai s.cfg.layout) ch.dsa sp }

/-- `AdvanceDst(c, h, dp)` of R177. -/
def advanceDst (c : CoreId) (h : ChanId) (dp : Nat) (s : State) : State :=
  let ch := s.chan c h
  s.setChan c h { ch with dta := advanced (ch.dai s.cfg.layout) ch.dta dp }

end Sys2Proof.Machine
end

