-- ==== Sys2Proof/Machine/Engine.lean ====
section
/-! DEFINITION. The transfer engine and bus transaction sequencer (42_bus_sequencer.md R151 to R175). -/

namespace Sys2Proof.Machine

/-! ### The chunk buffer (R42, R160) -/

/-- The 64-byte buffer (`BUF_SIZE`, R10), local to a chunk. -/
abbrev Buffer := List Byte

/-- `buf[0..63] <- draw` (R160): 64 free values. -/
def drawnBuffer (draws : Nat) : Buffer := (List.range 64).map fun p => Config.drawByte (draws + p)

/-- `buf[i .. i+n-1] <- bytes`. -/
def Buffer.fill (buf : Buffer) (i : Nat) (bytes : List Byte) : Buffer :=
  buf.take i ++ bytes ++ buf.drop (i + bytes.length)

/-- `buf[i .. i+n-1]`. -/
def Buffer.slice (buf : Buffer) (i n : Nat) : List Byte := (buf.drop i).take n

/-! ### The preconditions (R152 to R157) -/

/-- The decoded fields a transfer works with. -/
structure Setup where
  sp  : Nat
  dp  : Nat
  tsz : Nat
  deriving DecidableEq, Repr

/-- The preconditions of R151 in their order: the event of the first that fails, or the decoded fields. -/
def setup (cfg : Config) (c : CoreId) (h : ChanId) (ch : Channel) : Except Diag Setup :=
  if ch.drt ≠ cfg.drtAuto then .error (.unimplRequestType c h ch.drt)
  else if ch.stde cfg.layout then .error (.unimplStride c h)
  else
    match portWidth ch.sp with
    | none => .error (.badSrcPortWidth c h ch.sp)
    | some sp =>
      match portWidth ch.dp with
      | none => .error (.badDstPortWidth c h ch.dp)
      | some dp =>
        match transferSize ch.tsz with
        | none => .error (.badTransferSize c h ch.tsz)
        | some tsz => .ok { sp := sp, dp := dp, tsz := tsz }

/-! ### The chunk loop (R159 to R165) -/

/-- The read phase from buffer offset `i` on, with `k` sub-accesses to go (R161). -/
def readPhase (c : CoreId) (h : ChanId) (sp : Nat) : Nat → Nat → Buffer → State → EngineResult Buffer
  | 0, _, buf, s => .ok buf s
  | k + 1, i, buf, s =>
    match memRead (s.chan c h).dsa sp s with
    | .ok bytes s1 => readPhase c h sp k (i + sp) (buf.fill i bytes) (advanceSrc c h sp s1)
    | .fault d s1 => .fault d s1
    | .refuse r => .refuse r

/-- The write phase from buffer offset `i` on, with `k` sub-accesses to go (R162). -/
def writePhase (c : CoreId) (h : ChanId) (dp : Nat) (buf : Buffer) : Nat → Nat → State → EngineResult Unit
  | 0, _, s => .ok () s
  | k + 1, i, s =>
    match memWrite (s.chan c h).dta (buf.slice i dp) s with
    | .ok _ s1 => writePhase c h dp buf k (i + dp) (advanceDst c h dp s1)
    | .fault d s1 => .fault d s1
    | .refuse r => .refuse r

/-- `DTC <- DTC - 1` (R164). -/
def decrementCount (c : CoreId) (h : ChanId) (s : State) : State :=
  let ch := s.chan c h
  s.setChan c h { ch with dtc := ch.dtc - 1 }

/-- One chunk: 64 draws, the read phase, the write phase, the decrement (R160 to R164). -/
def chunk (c : CoreId) (h : ChanId) (u : Setup) (s : State) : EngineResult Unit :=
  match readPhase c h u.sp (subCount u.tsz u.sp) 0 (drawnBuffer s.draws) (s.setDraws (s.draws + 64)) with
  | .fault d s1 => .fault d s1
  | .refuse r => .refuse r
  | .ok buf s1 =>
    match writePhase c h u.dp buf (subCount u.tsz u.dp) 0 s1 with
    | .fault d s2 => .fault d s2
    | .refuse r => .refuse r
    | .ok _ s2 => .ok () (decrementCount c h s2)

/-- `n` chunks. Run with `n = DTC` this is the loop of R159: each chunk that completes takes one off `DTC`
(Laws: `chunkLoop_while`). -/
def chunkLoop (c : CoreId) (h : ChanId) (u : Setup) : Nat → State → EngineResult Unit
  | 0, s => .ok () s
  | n + 1, s =>
    match chunk c h u s with
    | .ok _ s1 => chunkLoop c h u n s1
    | .fault d s1 => .fault d s1
    | .refuse r => .refuse r

/-- The end of a transfer whose loop ended with `DTC = 0`: the interrupt that is not delivered (R168). -/
def transferEnd (c : CoreId) (h : ChanId) (s : State) : State :=
  if (s.chan c h).tie s.cfg.layout then s.logDiag (.unimplInterrupt c h) else s

/-- `Transfer(c, h)` of R151, with the outcome it reports to the scheduler; a refusal where a sub-access reaches the
block's own window (R77). -/
def transfer (c : CoreId) (h : ChanId) (s : State) : Except Refusal (ChannelOutcome × State) :=
  match setup s.cfg c h (s.chan c h) with
  | .error d => .ok (.halted d, haltOutcome c h (s.logDiag d))
  | .ok u =>
    match chunkLoop c h u (s.chan c h).dtc.toNat s with
    | .refuse r => .error r
    | .fault d s1 => .ok (.addressError d, addressError c h s1)
    | .ok _ s1 => .ok (.success, transferEnd c h s1)

end Sys2Proof.Machine
end

