-- ==== Sys2Proof/Machine/Scheduler.lean ====
section
/-! DEFINITION. The multi-channel scheduler (41_scheduler.md R134 to R150). -/

namespace Sys2Proof.Machine

/-- `Runnable(c, h)` of R135 on a core's and a channel's registers: seven bits and nothing else. -/
def runnableBits (l : FieldLayout) (k : CoreBank) (ch : Channel) : Bool :=
  k.dmae l && ch.cte l && !k.hlt l && !k.ar l && !ch.hlt l && !ch.tt l && !ch.ar l

/-- `Runnable(c, h)` of R135, on the state at the moment of the check (R136). -/
def runnable (s : State) (c : CoreId) (h : ChanId) : Bool :=
  runnableBits s.cfg.layout (s.core c) (s.chan c h)

/-- `RunChannel(c, h)` of R138, with its outcome (R194). -/
def runChannel (c : CoreId) (h : ChanId) (s : State) : Except Refusal (ChannelOutcome × State) :=
  if runnable s c h then
    if (s.chan c h).ndes s.cfg.layout then
      match transfer c h s with
      | .error r => .error r
      | .ok (.success, s1) => .ok (.success, completeTransfer c h s1)
      | .ok (o, s1) => .ok (o, s1)
    else .ok (.descriptorMode, descriptorHalt c h s)
  else .ok (.notRunnable, s)

/-- The configured channels of a core in index order (R139, R148). -/
def channelIds (cfg : Config) : List ChanId :=
  ([0, 1, 2, 3, 4] : List ChanId).filter fun h => decide (h.val < cfg.numChannels)

/-- Runs channels one after another. -/
def runChannels (c : CoreId) : List ChanId → State → Except Refusal State
  | [], s => .ok s
  | h :: hs, s =>
    match runChannel c h s with
    | .error r => .error r
    | .ok (_, s1) => runChannels c hs s1

/-- `RunCore(c)` of R139. -/
def runCore (c : CoreId) (s : State) : Except Refusal State := runChannels c (channelIds s.cfg) s

/-- What a register write that started a pass answers: the state the pass left, or the refusal of R77. -/
def passOutcome : Except Refusal State → Host.Outcome State Fault Refusal
  | .ok s => .next s
  | .error r => .refused r

/-- The pass of `WR DCS` (R112), as a state. -/
def channelPass (c : CoreId) (h : ChanId) (s : State) : Except Refusal State :=
  match runChannel c h s with
  | .error r => .error r
  | .ok (_, s1) => .ok s1

end Sys2Proof.Machine
end

