-- ==== Sys2Proof/Machine/ChannelRegs.lean ====
section
/-! DEFINITION. The channel register operations (40_decode_dispatch.md R103 to R118). -/

namespace Sys2Proof.Machine

/-- A write that only stores: the channel takes its new registers, and the write returns nothing (R63). -/
def storeChan (c : CoreId) (h : ChanId) (ch : Channel) (s : State) : Host.Outcome State Fault Refusal :=
  .next ((s.setChan c h ch).respond none)

/-- A read: the value goes out on the slave port, and nothing else changes (R62). -/
def answer (v : Word) (s : State) : Host.Outcome State Fault Refusal := .next (s.respond (some v))

/-- `RD DSA` (R103). -/
def execRdDsa (c : CoreId) (h : ChanId) (s : State) : Host.Outcome State Fault Refusal :=
  answer (s.chan c h).dsa s

/-- `WR DSA` (R104). -/
def execWrDsa (c : CoreId) (h : ChanId) (v : Word) (s : State) : Host.Outcome State Fault Refusal :=
  storeChan c h { s.chan c h with dsa := v } s

/-- `RD DTA` (R105). -/
def execRdDta (c : CoreId) (h : ChanId) (s : State) : Host.Outcome State Fault Refusal :=
  answer (s.chan c h).dta s

/-- `WR DTA` (R106). -/
def execWrDta (c : CoreId) (h : ChanId) (v : Word) (s : State) : Host.Outcome State Fault Refusal :=
  storeChan c h { s.chan c h with dta := v } s

/-- `RD DTC` (R107). -/
def execRdDtc (c : CoreId) (h : ChanId) (s : State) : Host.Outcome State Fault Refusal :=
  answer (zext32 (s.chan c h).dtc) s

/-- `WR DTC` (R108). -/
def execWrDtc (c : CoreId) (h : ChanId) (v : Word) (s : State) : Host.Outcome State Fault Refusal :=
  storeChan c h { s.chan c h with dtc := dtcOf v } s

/-- `RD DRT` (R109). -/
def execRdDrt (c : CoreId) (h : ChanId) (s : State) : Host.Outcome State Fault Refusal :=
  answer (zext32 (s.chan c h).drt) s

/-- `WR DRT` (R110). -/
def execWrDrt (c : CoreId) (h : ChanId) (v : Word) (s : State) : Host.Outcome State Fault Refusal :=
  storeChan c h { s.chan c h with drt := drtOf v } s

/-- `RD DCS` (R111). -/
def execRdDcs (c : CoreId) (h : ChanId) (s : State) : Host.Outcome State Fault Refusal :=
  answer (s.chan c h).dcs s

/-- `WR DCS` (R112): stores the full raw value, then runs run-channel. -/
def execWrDcs (c : CoreId) (h : ChanId) (v : Word) (s : State) : Host.Outcome State Fault Refusal :=
  let s1 := (s.setChan c h { s.chan c h with dcs := v }).respond none
  passOutcome (channelPass c h s1)

/-- `RD DCM` (R113). -/
def execRdDcm (c : CoreId) (h : ChanId) (s : State) : Host.Outcome State Fault Refusal :=
  answer (s.chan c h).dcm s

/-- `WR DCM` (R114). -/
def execWrDcm (c : CoreId) (h : ChanId) (v : Word) (s : State) : Host.Outcome State Fault Refusal :=
  storeChan c h { s.chan c h with dcm := v } s

/-- `RD DDA` (R115). -/
def execRdDda (c : CoreId) (h : ChanId) (s : State) : Host.Outcome State Fault Refusal :=
  answer (s.chan c h).dda s

/-- `WR DDA` (R116). -/
def execWrDda (c : CoreId) (h : ChanId) (v : Word) (s : State) : Host.Outcome State Fault Refusal :=
  storeChan c h { s.chan c h with dda := v } s

/-- `RD DSD` (R117). -/
def execRdDsd (c : CoreId) (h : ChanId) (s : State) : Host.Outcome State Fault Refusal :=
  answer (s.chan c h).dsd s

/-- `WR DSD` (R118). -/
def execWrDsd (c : CoreId) (h : ChanId) (v : Word) (s : State) : Host.Outcome State Fault Refusal :=
  storeChan c h { s.chan c h with dsd := v } s

end Sys2Proof.Machine
end

