-- ==== Sys2Proof/Machine/BadAccess.lean ====
section
/-! DEFINITION. The accesses that decode to `Bad` (40_decode_dispatch.md R130 to R132). -/

namespace Sys2Proof.Machine

/-- `RD Bad` (R130): an event, and 0 returned. -/
def execRdBad (off : Word) (s : State) : Host.Outcome State Fault Refusal :=
  answer 0 (s.logDiag (.badOffsetRead off))

/-- `WR Bad` (R131): an event, and the value dropped. -/
def execWrBad (off v : Word) (s : State) : Host.Outcome State Fault Refusal :=
  .next ((s.logDiag (.badOffsetWrite off v)).respond none)

end Sys2Proof.Machine
end

