-- ==== Sys2Proof/Machine/CoreRegs.lean ====
section
/-! DEFINITION. The core register operations (40_decode_dispatch.md R119 to R128). -/

namespace Sys2Proof.Machine

/-- A write that only stores: the core takes its new registers, and the write returns nothing (R63). -/
def storeCore (c : CoreId) (k : CoreBank) (s : State) : Host.Outcome State Fault Refusal :=
  .next ((s.setCore c k).respond none)

/-- `RD DMAC` (R119). -/
def execRdDmac (c : CoreId) (s : State) : Host.Outcome State Fault Refusal := answer (s.core c).dmac s

/-- `WR DMAC` (R120): stores the raw value, then runs run-core. -/
def execWrDmac (c : CoreId) (v : Word) (s : State) : Host.Outcome State Fault Refusal :=
  let s1 := (s.setCore c { s.core c with dmac := v }).respond none
  passOutcome (runCore c s1)

/-- `RD DIRQP` (R121). -/
def execRdDirqp (c : CoreId) (s : State) : Host.Outcome State Fault Refusal := answer (s.core c).pend s

/-- `WR DIRQP` (R122). -/
def execWrDirqp (c : CoreId) (v : Word) (s : State) : Host.Outcome State Fault Refusal :=
  storeCore c { s.core c with pend := v } s

/-- `RD DDR` (R123): the read alias of the pending register (D7). -/
def execRdDdr (c : CoreId) (s : State) : Host.Outcome State Fault Refusal := answer (s.core c).pend s

/-- `WR DDR` (R124): a raw store into the pending register (D7). -/
def execWrDdr (c : CoreId) (v : Word) (s : State) : Host.Outcome State Fault Refusal :=
  storeCore c { s.core c with pend := v } s

/-- `RD DDRS` (R126): a register with no storage reads 0 (D8). -/
def execRdDdrs (_c : CoreId) (s : State) : Host.Outcome State Fault Refusal := answer 0 s

/-- `WR DDRS` (R125): ORs the value into the pending register, then runs run-core. -/
def execWrDdrs (c : CoreId) (v : Word) (s : State) : Host.Outcome State Fault Refusal :=
  let s1 := (s.setCore c { s.core c with pend := (s.core c).pend ||| v }).respond none
  passOutcome (runCore c s1)

/-- `RD DCKE` (R127). -/
def execRdDcke (c : CoreId) (s : State) : Host.Outcome State Fault Refusal := answer (s.core c).dcke s

/-- `WR DCKE` (R128). -/
def execWrDcke (c : CoreId) (v : Word) (s : State) : Host.Outcome State Fault Refusal :=
  storeCore c { s.core c with dcke := v } s

end Sys2Proof.Machine
end

