-- ==== Sys2Proof/Machine/Dispatch.lean ====
section
/-! DEFINITION. One arm for each operation of 30_encoding.md R86. -/

namespace Sys2Proof.Machine

def exec (i : Instr) (s : State) : Host.Outcome State Fault Refusal :=
  match i with
  | .rdDsa c h => Sys2Proof.Machine.execRdDsa c h s
  | .wrDsa c h v => Sys2Proof.Machine.execWrDsa c h v s
  | .rdDta c h => Sys2Proof.Machine.execRdDta c h s
  | .wrDta c h v => Sys2Proof.Machine.execWrDta c h v s
  | .rdDtc c h => Sys2Proof.Machine.execRdDtc c h s
  | .wrDtc c h v => Sys2Proof.Machine.execWrDtc c h v s
  | .rdDrt c h => Sys2Proof.Machine.execRdDrt c h s
  | .wrDrt c h v => Sys2Proof.Machine.execWrDrt c h v s
  | .rdDcs c h => Sys2Proof.Machine.execRdDcs c h s
  | .wrDcs c h v => Sys2Proof.Machine.execWrDcs c h v s
  | .rdDcm c h => Sys2Proof.Machine.execRdDcm c h s
  | .wrDcm c h v => Sys2Proof.Machine.execWrDcm c h v s
  | .rdDda c h => Sys2Proof.Machine.execRdDda c h s
  | .wrDda c h v => Sys2Proof.Machine.execWrDda c h v s
  | .rdDsd c h => Sys2Proof.Machine.execRdDsd c h s
  | .wrDsd c h v => Sys2Proof.Machine.execWrDsd c h v s
  | .rdDmac c => Sys2Proof.Machine.execRdDmac c s
  | .wrDmac c v => Sys2Proof.Machine.execWrDmac c v s
  | .rdDirqp c => Sys2Proof.Machine.execRdDirqp c s
  | .wrDirqp c v => Sys2Proof.Machine.execWrDirqp c v s
  | .rdDdr c => Sys2Proof.Machine.execRdDdr c s
  | .wrDdr c v => Sys2Proof.Machine.execWrDdr c v s
  | .rdDdrs c => Sys2Proof.Machine.execRdDdrs c s
  | .wrDdrs c v => Sys2Proof.Machine.execWrDdrs c v s
  | .rdDcke c => Sys2Proof.Machine.execRdDcke c s
  | .wrDcke c v => Sys2Proof.Machine.execWrDcke c v s
  | .rdBad off => Sys2Proof.Machine.execRdBad off s
  | .wrBad off v => Sys2Proof.Machine.execWrBad off v s

end Sys2Proof.Machine
end

