-- ==== Sys2Proof/Machine/Serve.lean ====
section
/-! DEFINITION. The slave port (10_state.md R17, 20_memory.md R48, R52; 40_decode_dispatch.md R101, R102, R129). -/

namespace Sys2Proof.Machine

/-- The offset an access names. -/
def accessOffset : Access → Word
  | .read off _ => off
  | .write off _ _ => off

/-- The size an access names, in bytes. -/
def accessSize : Access → Nat
  | .read _ size => size
  | .write _ size _ => size

/-- The access is within the register window (R48, R52). -/
def reaches (cfg : Config) (a : Access) : Bool := decide ((accessOffset a).toNat < cfg.windowSize)

/-- `RegRead` and `RegWrite` (R101, R102): the only access that decodes to no instruction is one of another size (R129). -/
def runAccess (a : Access) (s : State) : Host.Outcome State Fault Refusal :=
  match decodeAccess s.cfg a with
  | .ok i => exec i s
  | .error _ => .refused (.accessSize (accessOffset a) (accessSize a))

/-- Serves an access, on a device that exists (R212): at an offset of WINDOW_SIZE or above it never reaches the block, which
does nothing (R52, log 14). -/
def serve (a : Access) (s : State) : Host.Outcome State Fault Refusal :=
  if s.cfg.ok then
    if reaches s.cfg a then runAccess a s else .next (s.respond none)
  else .refused .noDevice

/-- Places the access that a record given as a number carries in front of every request waiting (log 2). -/
def placeAccess (s : State) (nbits w : Nat) : State :=
  match accessOfNat nbits w with
  | some a => s.setPort (.access a :: s.port)
  | none => s

end Sys2Proof.Machine
end

