-- ==== Sys2Proof/Machine/Step.lean ====
section
/-! DEFINITION. One step: the oldest request that has arrived is served whole (00_scope.md R14, 10_state.md R17). -/

namespace Sys2Proof.Machine

/-- One step of the block (R14). Nothing waiting: the block does nothing (R207). An access is served by the device, if one
exists (R212); at an offset of WINDOW_SIZE or above it does not reach the block (R52); otherwise it is decoded and its
operation runs to the end (R101, R102), or it is refused by name (R129). -/
def step (s : State) : Host.Outcome State Fault Refusal :=
  match s.port with
  | [] => .next s
  | .construct p :: rest => construct p (s.setPort rest)
  | .reset :: rest => resetRequest (s.setPort rest)
  | .access a :: rest => serve a (s.setPort rest)

/-- Places an access, given as a record's number, where the next step takes its request from (log 2). -/
def State.withFetchWord (s : State) (nbits w : Nat) : State := placeAccess s nbits w

end Sys2Proof.Machine
end

