-- ==== Sys2Proof/Safety.lean ====
section
/-! DEFINITION. What holds of the machine between steps, and the terms in which claims about it are made. -/

namespace Sys2Proof.Machine

/-! ### The invariant -/

/-- Between steps no channel is runnable (41_scheduler.md R134). -/
def Quiescent (s : State) : Prop := ∀ c h, runnable s c h = false

/-- A core or channel beyond the configured counts has no state (10_state.md R15): its place in the fixed-capacity arrays
stays as it was constructed. -/
def UnconfiguredZero (s : State) : Prop :=
  (∀ c : CoreId, s.cfg.numCores ≤ c.val → s.core c = CoreBank.zero) ∧
  ∀ (c : CoreId) (h : ChanId), s.cfg.numChannels ≤ h.val → s.chan c h = Channel.zero

/-- The invariant of the machine: a device exists, no channel is runnable, nothing stands beyond the configured counts, the
interrupt line is low (R19), and memory keeps its canonical form. -/
structure MachineInv (s : State) : Prop where
  cfgOk        : s.cfg.ok = true
  quiescent    : Quiescent s
  unconfigured : UnconfiguredZero s
  irqLow       : s.irq = false
  memWf        : s.mem.wf = true

/-- The platform routes no address to the block's own register window, so no sub-access is refused (R77). -/
def noOwnWindow (cfg : Config) : Bool :=
  match cfg.downstream with
  | none => true
  | some d => d.ownWindow.isNone

/-! ### Frames -/

/-- The registers of every channel but one are as before. -/
def OtherChannelsKept (c : CoreId) (h : ChanId) (s t : State) : Prop :=
  ∀ c' h', ¬(c' = c ∧ h' = h) → t.chan c' h' = s.chan c' h'

/-- The registers of every channel are as before. -/
def ChannelsKept (s t : State) : Prop := ∀ c h, t.chan c h = s.chan c h

/-- The registers of every core are as before. -/
def CoresKept (s t : State) : Prop :=
  ∀ c, (t.core c).dmac = (s.core c).dmac ∧ (t.core c).pend = (s.core c).pend ∧ (t.core c).dcke = (s.core c).dcke

/-- The doorbell and clock registers of every core are as before. -/
def PendDckeKept (s t : State) : Prop :=
  ∀ c, (t.core c).pend = (s.core c).pend ∧ (t.core c).dcke = (s.core c).dcke

/-- `DMAC` of every core but one is as before. -/
def OtherDmacKept (c : CoreId) (s t : State) : Prop := ∀ c', c' ≠ c → (t.core c').dmac = (s.core c').dmac

/-- Every byte of the downstream's RAM reads as before. -/
def MemoryKept (s t : State) : Prop := ∀ a, t.mem.read a = s.mem.read a

/-- Nothing of the block's surroundings changed but the reply and the log: configuration, interrupt line, waiting requests,
sub-accesses issued, draws made. -/
def SurroundingsKept (s t : State) : Prop :=
  t.cfg = s.cfg ∧ t.irq = s.irq ∧ t.port = s.port ∧ t.bus = s.bus ∧ t.draws = s.draws

/-- `t` is `s` with the registers of channel `(c, h)` now `ch`, and the write answered; nothing else changed. -/
def ChannelStored (c : CoreId) (h : ChanId) (ch : Channel) (s t : State) : Prop :=
  t.chan c h = ch ∧ OtherChannelsKept c h s t ∧ CoresKept s t ∧ MemoryKept s t ∧ SurroundingsKept s t ∧
  t.log = s.log ∧ t.reply = none

/-- `t` is `s` with the three registers of core `c` now those of `k`, and the write answered; nothing else changed. -/
def CoreStored (c : CoreId) (dmac pend dcke : Word) (s t : State) : Prop :=
  (t.core c).dmac = dmac ∧ (t.core c).pend = pend ∧ (t.core c).dcke = dcke ∧
  (∀ c', c' ≠ c → t.core c' = s.core c') ∧ ChannelsKept s t ∧ MemoryKept s t ∧ SurroundingsKept s t ∧
  t.log = s.log ∧ t.reply = none

/-- The halt outcome of R158 with event `d`: two halt bits set, one event logged, nothing else changed, and
so no channel of the core runnable. -/
def HaltedBy (c : CoreId) (h : ChanId) (d : Diag) (s t : State) : Prop :=
  t.chan c h = { s.chan c h with dcs := setBit (s.chan c h).dcs s.cfg.layout.dcs.hlt } ∧
  (t.core c).dmac = setBit (s.core c).dmac s.cfg.layout.dmac.hlt ∧
  t.log = s.log ++ [d] ∧ OtherChannelsKept c h s t ∧ OtherDmacKept c s t ∧ PendDckeKept s t ∧ MemoryKept s t ∧
  SurroundingsKept s t ∧ t.reply = s.reply ∧ ∀ h', runnable t c h' = false

/-! ### Instructions and passes -/

/-- The instruction is a read. -/
def isRead : Instr → Bool
  | .rdDsa _ _ | .rdDta _ _ | .rdDtc _ _ | .rdDrt _ _ | .rdDcs _ _ | .rdDcm _ _ | .rdDda _ _ | .rdDsd _ _ => true
  | .rdDmac _ | .rdDirqp _ | .rdDdr _ | .rdDdrs _ | .rdDcke _ | .rdBad _ => true
  | .wrDsa _ _ _ | .wrDta _ _ _ | .wrDtc _ _ _ | .wrDrt _ _ _ | .wrDcs _ _ _ | .wrDcm _ _ _ => false
  | .wrDda _ _ _ | .wrDsd _ _ _ | .wrDmac _ _ | .wrDirqp _ _ | .wrDdr _ _ | .wrDdrs _ _ | .wrDcke _ _ => false
  | .wrBad _ _ => false

/-- The diagnostic events an operation itself logs: those of the `Bad` operations (R130, R131). -/
def ownEvents : Instr → List Diag
  | .rdBad off => [.badOffsetRead off]
  | .wrBad off v => [.badOffsetWrite off v]
  | .rdDsa _ _ | .rdDta _ _ | .rdDtc _ _ | .rdDrt _ _ | .rdDcs _ _ | .rdDcm _ _ | .rdDda _ _ | .rdDsd _ _ => []
  | .rdDmac _ | .rdDirqp _ | .rdDdr _ | .rdDdrs _ | .rdDcke _ => []
  | .wrDsa _ _ _ | .wrDta _ _ _ | .wrDtc _ _ _ | .wrDrt _ _ _ | .wrDcs _ _ _ | .wrDcm _ _ _ => []
  | .wrDda _ _ _ | .wrDsd _ _ _ | .wrDmac _ _ | .wrDirqp _ _ | .wrDdr _ _ | .wrDdrs _ _ | .wrDcke _ _ => []

/-- The state in which `WR DCS` runs its pass (R112): the value is stored, the write answered. -/
def afterDcsWrite (c : CoreId) (h : ChanId) (v : Word) (s : State) : State :=
  (s.setChan c h { s.chan c h with dcs := v }).respond none

/-- The state in which `WR DMAC` runs its pass (R120): the value is stored, the write answered. -/
def afterDmacWrite (c : CoreId) (v : Word) (s : State) : State :=
  (s.setCore c { s.core c with dmac := v }).respond none

/-- The state in which `WR DDRS` runs its pass (R125): the value is ORed in, the write answered. -/
def afterDdrsWrite (c : CoreId) (v : Word) (s : State) : State :=
  (s.setCore c { s.core c with pend := (s.core c).pend ||| v }).respond none

/-- The channel is runnable in registers mode and its fields pass every precondition (R135, R91, R151). -/
def Ready (c : CoreId) (h : ChanId) (u : Setup) (s : State) : Prop :=
  runnable s c h = true ∧ (s.chan c h).ndes s.cfg.layout = true ∧ setup s.cfg c h (s.chan c h) = .ok u

/-- Applies a function to the next state of an outcome. -/
def mapNext (f : State → State) : Host.Outcome State Fault Refusal → Host.Outcome State Fault Refusal
  | .next s => .next (f s)
  | .fault e => .fault e
  | .refused r => .refused r

/-! ### Transfers -/

/-- The value of an address after `n` advances by `width` (R176 to R180). -/
def stepped (inc : Bool) (a : Word) (n width : Nat) : Word :=
  if inc then a + BitVec.ofNat 32 (n * width) else a

/-- Direction, address and width of a sub-access. -/
def shape : BusOp → Dir × Word × Nat
  | .read a n _ => (.read, a, n)
  | .write a bytes _ => (.write, a, bytes.length)

/-- The downstream answered the sub-access with success. -/
def succeeded : BusOp → Bool
  | .read _ _ answer => answer.isSome
  | .write _ _ accepted => accepted

/-- The sub-access was to write the byte at address `a`. -/
def writesTo (a : Nat) : BusOp → Prop
  | .read _ _ _ => False
  | .write addr bytes _ => ∃ j < bytes.length, a = (byteAddr addr j).toNat

/-- The bytes a sub-access got from the downstream. -/
def received : BusOp → List Byte
  | .read _ _ (some bytes) => bytes
  | .read _ _ none => []
  | .write _ _ _ => []

/-- The bytes a sub-access sent to the downstream. -/
def sent : BusOp → List Byte
  | .read _ _ _ => []
  | .write _ bytes _ => bytes

/-- The sub-access is a write that RAM took. -/
def storedInRam (cfg : Config) : BusOp → Bool
  | .read _ _ _ => false
  | .write a bytes accepted => accepted && decide (route cfg .write a bytes.length = .ram)

/-- RAM after sub-accesses that began with RAM `m` (R54, R167): each write that RAM took stores its bytes from its address
on, and nothing else changes RAM. -/
def ramAfter (cfg : Config) : List BusOp → Memory → Memory
  | [], m => m
  | .read _ _ _ :: ops, m => ramAfter cfg ops m
  | .write a bytes accepted :: ops, m =>
    ramAfter cfg ops (if storedInRam cfg (.write a bytes accepted) then m.writeBytes a bytes else m)

/-- Every read that was answered got as many bytes as it asked for (R13), and where RAM answered it, those that RAM held then
(R54), in a run of sub-accesses that began with RAM `m`. -/
def ReadsAnswered (cfg : Config) (m : Memory) (ops : List BusOp) : Prop :=
  ∀ before a n bytes after, ops = before ++ .read a n (some bytes) :: after →
    bytes.length = n ∧ (route cfg .read a n = .ram → bytes = (ramAfter cfg before m).readBytes a n)

/-- The sub-accesses of one chunk from `DSA = src` and `DTA = dst` (R165): `ceil(tsz/sp)` reads at the successive values of
`DSA`, then `ceil(tsz/dp)` writes at the successive values of `DTA`. -/
def chunkTrace (u : Setup) (sai dai : Bool) (src dst : Word) : List (Dir × Word × Nat) :=
  (List.range (subCount u.tsz u.sp)).map (fun k => (Dir.read, stepped sai src k u.sp, u.sp)) ++
  (List.range (subCount u.tsz u.dp)).map (fun k => (Dir.write, stepped dai dst k u.dp, u.dp))

/-- The sub-accesses of `n` chunks (R165). -/
def transferTrace (u : Setup) (sai dai : Bool) : Nat → Word → Word → List (Dir × Word × Nat)
  | 0, _, _ => []
  | n + 1, src, dst =>
    chunkTrace u sai dai src dst ++
    transferTrace u sai dai n (stepped sai src (subCount u.tsz u.sp) u.sp) (stepped dai dst (subCount u.tsz u.dp) u.dp)

/-- The address of byte `p` of the run of bytes that a phase's successive sub-accesses of `width` bytes reach (R54): byte
`p % width` of sub-access `p / width`. -/
def runAddr (inc : Bool) (a : Word) (width p : Nat) : Word := byteAddr (stepped inc a (p / width) width) (p % width)

/-- The bytes of a chunk's read phase (R161), and of its write phase (R162). -/
def readRun (u : Setup) : Nat := subCount u.tsz u.sp * u.sp
def writeRun (u : Setup) : Nat := subCount u.tsz u.dp * u.dp

/-- The sub-accesses of chunk `k`, counted from 0, of a transfer's. -/
def opsOfChunk (u : Setup) (k : Nat) (ops : List BusOp) : List BusOp :=
  (ops.drop (k * (subCount u.tsz u.sp + subCount u.tsz u.dp))).take (subCount u.tsz u.sp + subCount u.tsz u.dp)

/-- What one chunk's sub-accesses send, one after another, are the first bytes of its buffer: the bytes its reads got, one
after another, whatever answered them, and beyond a whole read phase the draws that stand there (R160 to R163). -/
def ChunkSends (u : Setup) (draws : Nat) (ops : List BusOp) : Prop :=
  ops.flatMap sent <+: ops.flatMap received ++ (drawnBuffer draws).drop (readRun u)

/-- Every chunk of a transfer sends what it read; the buffers are drawn from draw number `draws` on, 64 for each chunk. -/
def SendsWhatItRead (u : Setup) (draws : Nat) (ops : List BusOp) : Prop :=
  ∀ k, ChunkSends u (draws + 64 * k) (opsOfChunk u k ops)

/-- Byte `q` of what a transfer sends, where RAM `m` answers its reads and keeps the source's bytes: byte `q % writeRun` of
chunk `q / writeRun` is the byte that chunk's read phase put at that buffer position, or, beyond the read phase's bytes, the
draw that stands there (R160 to R163). -/
def sentByte (u : Setup) (sai : Bool) (draws : Nat) (src : Word) (m : Memory) (q : Nat) : Byte :=
  if q % writeRun u < readRun u then m.read (runAddr sai src u.sp (q / writeRun u * readRun u + q % writeRun u)).toNat
  else Config.drawByte (draws + 64 * (q / writeRun u) + q % writeRun u)

/-- RAM after the write phase of a chunk sent the bytes `f 0`, `f 1`, ... in sub-accesses of `dp` bytes (R162). -/
def unitImage (u : Setup) (dai : Bool) (dst : Word) (f : Nat → Byte) (m : Memory) : Memory :=
  (List.range (subCount u.tsz u.dp)).foldl
    (fun m k => m.writeBytes (stepped dai dst k u.dp) ((List.range u.dp).map fun j => f (k * u.dp + j))) m

/-- RAM after `n` chunks, each read whole before it is written (R68, R71), whose buffers are drawn from draw number `draws`
on, 64 for each chunk (R160). -/
def transferImage (u : Setup) (sai dai : Bool) : Nat → Nat → Word → Word → Memory → Memory
  | 0, _, _, _, m => m
  | n + 1, draws, src, dst, m =>
    transferImage u sai dai n (draws + 64) (stepped sai src (subCount u.tsz u.sp) u.sp)
      (stepped dai dst (subCount u.tsz u.dp) u.dp) (unitImage u dai dst (sentByte u sai draws src m) m)

/-- The sub-accesses of the transfer that a channel's registers ask for (R165). -/
def channelTrace (u : Setup) (l : FieldLayout) (ch : Channel) : List (Dir × Word × Nat) :=
  transferTrace u (ch.sai l) (ch.dai l) ch.dtc.toNat ch.dsa ch.dta

/-- RAM after `n` units of `tsz` bytes were copied one after another, each read whole before it is written (R68, R71). -/
def copyUnits (tsz : Nat) : Nat → Word → Word → Memory → Memory
  | 0, _, _, m => m
  | n + 1, src, dst, m =>
    copyUnits tsz n (byteAddr src tsz) (byteAddr dst tsz) (m.writeBytes dst (m.readBytes src tsz))

/-- Every sub-access of a list of them is answered by RAM that lets it succeed. -/
def AllRam (cfg : Config) (ops : List (Dir × Word × Nat)) : Prop :=
  ∀ op ∈ ops, route cfg op.1 op.2.1 op.2.2 = .ram

/-- The first sub-access of a list that RAM does not answer is `op`, and it reaches the block's own register window (R77). -/
def StopsAtOwn (cfg : Config) (ops : List (Dir × Word × Nat)) (op : Dir × Word × Nat) : Prop :=
  ∃ before after, ops = before ++ op :: after ∧ AllRam cfg before ∧ route cfg op.1 op.2.1 op.2.2 = .own

end Sys2Proof.Machine
end

