-- ==== Sys2Proof/Certificates/Slice0/Obligations.lean ====
section
/-! DEFINITION. The statements for the provers. Each holds for every configuration, so for every FIELD_LAYOUT, DRT_AUTO,
WINDOW_SIZE and downstream (R8, R9), unless it says otherwise. -/

open Sys2Proof Sys2Proof.Machine

/-- Cites R103, R105, R107, R109, R111, R113, R115, R117. RD DSA, DTA, DTC, DRT, DCS, DCM, DDA and DSD each answer the
next state that is the state before but for the reply, which is the stored register, zero-extended to 32 bits for DTC
and DRT. -/
def Obligations.ChannelReadsReturnStored : Prop :=
  ∀ (s : State) (c : CoreId) (h : ChanId),
    exec (.rdDsa c h) s = .next { s with reply := some (s.chan c h).dsa } ∧
    exec (.rdDta c h) s = .next { s with reply := some (s.chan c h).dta } ∧
    exec (.rdDtc c h) s = .next { s with reply := some ((s.chan c h).dtc.setWidth 32) } ∧
    exec (.rdDrt c h) s = .next { s with reply := some ((s.chan c h).drt.setWidth 32) } ∧
    exec (.rdDcs c h) s = .next { s with reply := some (s.chan c h).dcs } ∧
    exec (.rdDcm c h) s = .next { s with reply := some (s.chan c h).dcm } ∧
    exec (.rdDda c h) s = .next { s with reply := some (s.chan c h).dda } ∧
    exec (.rdDsd c h) s = .next { s with reply := some (s.chan c h).dsd }

/-- Cites R119, R121, R127. RD DMAC, RD DIRQP and RD DCKE each answer the next state that is the state before but for
the reply, which is the stored register (PEND for DIRQP). -/
def Obligations.CoreReadsReturnStored : Prop :=
  ∀ (s : State) (c : CoreId),
    exec (.rdDmac c) s = .next { s with reply := some (s.core c).dmac } ∧
    exec (.rdDirqp c) s = .next { s with reply := some (s.core c).pend } ∧
    exec (.rdDcke c) s = .next { s with reply := some (s.core c).dcke }

/-- Cites R123, R126, 92_eei_decisions.md D7, 92_eei_decisions.md D8. RD DDR answers the next state with PEND returned,
as RD DIRQP does, and RD DDRS the next state with 0 returned; nothing else changes. Both rest on decisions of spec/92
(D7, D8; log 24 and 25), not on the source. -/
def Obligations.DoorbellAliasReads : Prop :=
  ∀ (s : State) (c : CoreId),
    exec (.rdDdr c) s = .next { s with reply := some (s.core c).pend } ∧ exec (.rdDdr c) s = exec (.rdDirqp c) s ∧
    exec (.rdDdrs c) s = .next { s with reply := some 0 }

/-- Cites R130. RD Bad at any offset answers the next state that is the state before but for the reply, which is 0, and
the log, which has BadOffsetRead of that offset appended; the event is a guest error of code 1. -/
def Obligations.BadReadReturnsZero : Prop :=
  ∀ (s : State) (off : Word),
    exec (.rdBad off) s = .next { s with reply := some 0, log := s.log ++ [.badOffsetRead off] } ∧
    (Diag.badOffsetRead off).code = 1 ∧ (Diag.badOffsetRead off).guestError = true

/-- Cites R131. WR Bad at any offset answers the next state that is the state before but for the log, which has
BadOffsetWrite of the offset and the value appended, and the reply, which is none; the event is a guest error of code 2.
-/
def Obligations.BadWriteIsDropped : Prop :=
  ∀ (s : State) (off v : Word),
    exec (.wrBad off v) s = .next { s with reply := none, log := s.log ++ [.badOffsetWrite off v] } ∧
    (Diag.badOffsetWrite off v).code = 2 ∧ (Diag.badOffsetWrite off v).guestError = true

/-- Cites R62. For every read instruction and every state, exec answers a next state t in which every register, the
interrupt line, every byte of RAM, the sub-accesses issued and the draws are as before, and the log is as before with,
for an invalid read only, its event; and the same read from t answers a next state with the same reply. -/
def Obligations.ReadsHaveNoSideEffects : Prop :=
  ∀ (i : Instr) (s : State), isRead i = true →
    ∃ t, exec i s = .next t ∧ ChannelsKept s t ∧ CoresKept s t ∧ MemoryKept s t ∧ SurroundingsKept s t ∧
      t.log = s.log ++ ownEvents i ∧
      ∃ t', exec i t = .next t' ∧ t'.reply = t.reply

/-- Cites R104, R106, R108, R110, R114, R116, R118. Each of these writes answers a next state in which the channel's
register holds the value (its bits 23:0 for DTC, 5:0 for DRT), every other register of the channel, every other channel,
every core register, every byte of RAM, the log, the sub-accesses issued, the draws and the interrupt line are as
before, and nothing is returned: no scheduler pass runs. -/
def Obligations.ChannelWritesStore : Prop :=
  ∀ (s : State) (c : CoreId) (h : ChanId) (v : Word),
    (∃ t, exec (.wrDsa c h v) s = .next t ∧ ChannelStored c h { s.chan c h with dsa := v } s t) ∧
    (∃ t, exec (.wrDta c h v) s = .next t ∧ ChannelStored c h { s.chan c h with dta := v } s t) ∧
    (∃ t, exec (.wrDtc c h v) s = .next t ∧ ChannelStored c h { s.chan c h with dtc := v.extractLsb' 0 24 } s t) ∧
    (∃ t, exec (.wrDrt c h v) s = .next t ∧ ChannelStored c h { s.chan c h with drt := v.extractLsb' 0 6 } s t) ∧
    (∃ t, exec (.wrDcm c h v) s = .next t ∧ ChannelStored c h { s.chan c h with dcm := v } s t) ∧
    (∃ t, exec (.wrDda c h v) s = .next t ∧ ChannelStored c h { s.chan c h with dda := v } s t) ∧
    (∃ t, exec (.wrDsd c h v) s = .next t ∧ ChannelStored c h { s.chan c h with dsd := v } s t)

/-- Cites R122, R128. WR DIRQP answers a next state in which PEND holds the value, WR DCKE one in which DCKE holds it;
the core's other registers, the other core, every channel, every byte of RAM, the log, the sub-accesses issued, the
draws and the interrupt line are as before. -/
def Obligations.CoreWritesStore : Prop :=
  ∀ (s : State) (c : CoreId) (v : Word),
    (∃ t, exec (.wrDirqp c v) s = .next t ∧ CoreStored c (s.core c).dmac v (s.core c).dcke s t) ∧
    (∃ t, exec (.wrDcke c v) s = .next t ∧ CoreStored c (s.core c).dmac (s.core c).pend v s t)

/-- Cites R124, 92_eei_decisions.md D7. WR DDR answers a next state in which PEND holds the value and everything else is
as before. That DDR's write reaches the cell of DIRQP is decision D7 of spec/92 (log 24). -/
def Obligations.DdrWriteStoresPend : Prop :=
  ∀ (s : State) (c : CoreId) (v : Word),
    ∃ t, exec (.wrDdr c v) s = .next t ∧ CoreStored c (s.core c).dmac v (s.core c).dcke s t

/-- Cites 95_test_vectors.md L1.1, 95_test_vectors.md L1.2, 95_test_vectors.md L1.3, 95_test_vectors.md L2.2,
92_eei_decisions.md D7. A read of DSA, DTA, DCM, DDA, DSD, DIRQP, DDR or DCKE after a write of v to the same register
returns v; of DTC it returns v with bits 31:24 clear, of DRT v with bits 31:6 clear. A read of DDR after a write of
DIRQP returns v, and so does a read of DIRQP after a write of DDR; that, and what a read of DDR returns, is decision D7
of spec/92 (one cell at both offsets, log 24). -/
def Obligations.WriteThenReadBack : Prop :=
  ∀ (s : State) (c : CoreId) (h : ChanId) (v : Word) (w r : Instr) (x : Word),
    (w, r, x) ∈ [(Instr.wrDsa c h v, Instr.rdDsa c h, v), (.wrDta c h v, .rdDta c h, v),
      (.wrDtc c h v, .rdDtc c h, v &&& 0x00ffffff#32), (.wrDrt c h v, .rdDrt c h, v &&& 0x3f#32),
      (.wrDcm c h v, .rdDcm c h, v), (.wrDda c h v, .rdDda c h, v), (.wrDsd c h v, .rdDsd c h, v),
      (.wrDirqp c v, .rdDirqp c, v), (.wrDdr c v, .rdDdr c, v), (.wrDdr c v, .rdDirqp c, v),
      (.wrDirqp c v, .rdDdr c, v), (.wrDcke c v, .rdDcke c, v)] →
    ∃ t t', exec w s = .next t ∧ exec r t = .next t' ∧ t'.reply = some x

/-- Cites R112, 40_decode_dispatch.md. WR DCS answers the state that run-channel leaves when it starts from the state
with DCS set to the raw value and the write answered, or the refusal that run-channel ends in. -/
def Obligations.DcsWriteStoresThenRunsChannel : Prop :=
  ∀ (s : State) (c : CoreId) (h : ChanId) (v : Word),
    exec (.wrDcs c h v) s =
      match runChannel c h ({ s.setChan c h { s.chan c h with dcs := v } with reply := none }) with
      | .ok (_, t) => .next t
      | .error r => .refused r

/-- Cites R120, R139, 40_decode_dispatch.md. WR DMAC answers the state that run-channel leaves when it is applied to the
core's configured channels one after another from the state with DMAC set to the raw value, or the refusal one of them
ends in; the channels visited are those with index below NUM_CHANNELS, in index order. -/
def Obligations.DmacWriteStoresThenRunsCore : Prop :=
  ∀ (s : State) (c : CoreId) (v : Word),
    (exec (.wrDmac c v) s =
      match (channelIds s.cfg).foldlM (fun t h => (runChannel c h t).map Prod.snd)
          { s.setCore c { s.core c with dmac := v } with reply := none } with
      | .ok t => .next t
      | .error r => .refused r) ∧
    (channelIds s.cfg).map Fin.val = List.range (min s.cfg.numChannels 5)

/-- Cites R135, 92_eei_decisions.md D11. The predicate holds exactly when DMAE and CTE are 1 and the core's HLT and AR
and the channel's HLT, TT and AR are 0, the bits being those of the configured layout; in particular it depends on no
other register. That these conditions are sufficient is decision D11 of spec/92 (log 21). -/
def Obligations.RunnableIsSevenBits : Prop :=
  ∀ (s : State) (c : CoreId) (h : ChanId),
    runnable s c h = true ↔
      (s.core c).dmac.getLsbD s.cfg.layout.dmac.dmae = true ∧ (s.chan c h).dcs.getLsbD s.cfg.layout.dcs.cte = true ∧
      (s.core c).dmac.getLsbD s.cfg.layout.dmac.hlt = false ∧ (s.core c).dmac.getLsbD s.cfg.layout.dmac.ar = false ∧
      (s.chan c h).dcs.getLsbD s.cfg.layout.dcs.hlt = false ∧ (s.chan c h).dcs.getLsbD s.cfg.layout.dcs.tt = false ∧
      (s.chan c h).dcs.getLsbD s.cfg.layout.dcs.ar = false

/-- Cites R137. If the channel is not runnable once DCS holds the written value, WR DCS answers a next state in which
DCS holds it and every other register, every byte of RAM, the log, the sub-accesses issued and the draws are as before;
and run-channel of a channel that is not runnable answers the state it was given. -/
def Obligations.NotRunnableWriteOnlyStores : Prop :=
  ∀ (s : State) (c : CoreId) (h : ChanId),
    (runnable s c h = false → runChannel c h s = .ok (.notRunnable, s)) ∧
    ∀ v, runnable (afterDcsWrite c h v s) c h = false →
      ∃ t, exec (.wrDcs c h v) s = .next t ∧ ChannelStored c h { s.chan c h with dcs := v } s t

/-- Cites R141. Run-channel of a runnable channel with NDES = 0 answers a state whose DMAC has HLT set and every other
bit as before, whose log has UnimplDescriptor (code 8, no guest error) appended, and in which every channel register
(DCS, DTC, DSA and DTA among them), every other core register, every byte of RAM and the sub-accesses issued are as
before. A later DMAC write with DMAE set and HLT and AR clear, by which the channel becomes runnable again and no
channel before it is, sets HLT again. -/
def Obligations.DescriptorModeHaltsCoreOnly : Prop :=
  ∀ (s : State) (c : CoreId) (h : ChanId),
    (runnable s c h = true → (s.chan c h).ndes s.cfg.layout = false →
      ∃ t, runChannel c h s = .ok (.descriptorMode, t) ∧
        (t.core c).dmac = setBit (s.core c).dmac s.cfg.layout.dmac.hlt ∧
        t.log = s.log ++ [.unimplDescriptor c h] ∧ (Diag.unimplDescriptor c h).code = 8 ∧
        (Diag.unimplDescriptor c h).guestError = false ∧
        ChannelsKept s t ∧ OtherDmacKept c s t ∧ PendDckeKept s t ∧ MemoryKept s t ∧ SurroundingsKept s t ∧
        t.reply = s.reply) ∧
    (h.val < s.cfg.numChannels → ∀ v, runnable (afterDmacWrite c v s) c h = true →
      (s.chan c h).ndes s.cfg.layout = false →
      (∀ h' : ChanId, h'.val < h.val → runnable (afterDmacWrite c v s) c h' = false) →
      ∃ t, exec (.wrDmac c v) s = .next t ∧ (t.core c).dmac = setBit v s.cfg.layout.dmac.hlt ∧
        t.log = s.log ++ [.unimplDescriptor c h] ∧ ChannelsKept s t)

/-- Cites R152, R153, R158. Run-channel of a runnable channel in registers mode with DRT other than DRT_AUTO answers the
halt outcome with UnimplRequestType (code 3) logged, whatever its other fields; with DRT = DRT_AUTO and STDE = 1 it
answers the halt outcome with UnimplStride (code 4) logged. In both, the core's and the channel's HLT are set, every
other bit and register, every byte of RAM and the sub-accesses issued are as before, and no channel of the core is
runnable then. Neither event is a guest error. -/
def Obligations.UnimplementedRequestHalts : Prop :=
  ∀ (s : State) (c : CoreId) (h : ChanId), runnable s c h = true → (s.chan c h).ndes s.cfg.layout = true →
    ((s.chan c h).drt ≠ s.cfg.drtAuto →
      ∃ t, runChannel c h s = .ok (.halted (.unimplRequestType c h (s.chan c h).drt), t) ∧
        HaltedBy c h (.unimplRequestType c h (s.chan c h).drt) s t) ∧
    ((s.chan c h).drt = s.cfg.drtAuto → (s.chan c h).stde s.cfg.layout = true →
      ∃ t, runChannel c h s = .ok (.halted (.unimplStride c h), t) ∧
        HaltedBy c h (.unimplStride c h) s t) ∧
    (Diag.unimplRequestType c h (s.chan c h).drt).code = 3 ∧ (Diag.unimplStride c h).code = 4 ∧
    (Diag.unimplRequestType c h (s.chan c h).drt).guestError = false ∧ (Diag.unimplStride c h).guestError = false

/-- Cites R154, R155, R156, R158, 92_eei_decisions.md D29. Run-channel of a runnable channel in registers mode with DRT
= DRT_AUTO and STDE = 0 answers the halt outcome with BadSrcPortWidth (code 5) logged if SP = 3; and, if SP and DP are
not 3, with BadTransferSize (code 7) logged if TSZ is 6 or 7. Nothing but the two HLT bits and the log changes, no
channel of the core is runnable then, and the event is a guest error. That SP = DP = 3 logs code 5 and not code 6 is
decision D29 of spec/92, SP before DP (log 29). -/
def Obligations.ConfigurationErrorHalts : Prop :=
  ∀ (s : State) (c : CoreId) (h : ChanId), runnable s c h = true → (s.chan c h).ndes s.cfg.layout = true →
    (s.chan c h).drt = s.cfg.drtAuto → (s.chan c h).stde s.cfg.layout = false →
    ((s.chan c h).sp = 3 →
      ∃ t, runChannel c h s = .ok (.halted (.badSrcPortWidth c h 3), t) ∧ HaltedBy c h (.badSrcPortWidth c h 3) s t) ∧
    ((s.chan c h).sp ≠ 3 → (s.chan c h).dp ≠ 3 → ((s.chan c h).tsz = 6 ∨ (s.chan c h).tsz = 7) →
      ∃ t, runChannel c h s = .ok (.halted (.badTransferSize c h (s.chan c h).tsz), t) ∧
        HaltedBy c h (.badTransferSize c h (s.chan c h).tsz) s t) ∧
    (Diag.badSrcPortWidth c h 3).code = 5 ∧ (Diag.badTransferSize c h (s.chan c h).tsz).code = 7 ∧
    (Diag.badSrcPortWidth c h 3).guestError = true ∧ (Diag.badTransferSize c h (s.chan c h).tsz).guestError = true

/-- Cites R155, 92_eei_decisions.md D29. Run-channel of a runnable channel in registers mode with DRT = DRT_AUTO, STDE =
0, SP not 3 and DP = 3 answers the halt outcome with BadDstPortWidth (code 6, a guest error) logged, whatever TSZ is.
That SP is checked before DP is decision D29 of spec/92 (log 29). -/
def Obligations.DestinationWidthHaltsAfterSource : Prop :=
  ∀ (s : State) (c : CoreId) (h : ChanId), runnable s c h = true → (s.chan c h).ndes s.cfg.layout = true →
    (s.chan c h).drt = s.cfg.drtAuto → (s.chan c h).stde s.cfg.layout = false → (s.chan c h).sp ≠ 3 → (s.chan c h).dp = 3 →
    ∃ t, runChannel c h s = .ok (.halted (.badDstPortWidth c h 3), t) ∧ HaltedBy c h (.badDstPortWidth c h 3) s t ∧
      (Diag.badDstPortWidth c h 3).code = 6 ∧ (Diag.badDstPortWidth c h 3).guestError = true

/-- Cites R92, R93, R151, 92_eei_decisions.md D27. The preconditions pass with widths sp, dp and size tsz exactly when
DRT = DRT_AUTO, STDE = 0, SP and DP are codes 0, 1, 2 for 4, 1, 2 bytes and TSZ is one of codes 0 to 5 for 4, 1, 2, 16,
32, 64 bytes. The widths of codes 1 and 2 are decision D27 of spec/92 (log 7). -/
def Obligations.SetupReadsFieldCodes : Prop :=
  ∀ (cfg : Config) (c : CoreId) (h : ChanId) (ch : Channel) (u : Setup),
    setup cfg c h ch = .ok u ↔
      ch.drt = cfg.drtAuto ∧ ch.stde cfg.layout = false ∧
      (ch.sp, u.sp) ∈ [(0#2, 4), (1#2, 1), (2#2, 2)] ∧ (ch.dp, u.dp) ∈ [(0#2, 4), (1#2, 1), (2#2, 2)] ∧
      (ch.tsz, u.tsz) ∈ [(0#3, 4), (1#3, 1), (2#3, 2), (3#3, 16), (4#3, 32), (5#3, 64)]

/-- Cites R159, R168, R143, R188. Run-channel of a ready channel with DTC = 0 answers success with DCS having TT set and
every other bit as before; every other register, every byte of RAM, the sub-accesses issued and the draws are as before;
the log has UnimplInterrupt appended exactly if TIE = 1. That event has code 9 and is an unimplemented feature, no guest
error. -/
def Obligations.ZeroCountSucceedsWithoutAccess : Prop :=
  ∀ (s : State) (c : CoreId) (h : ChanId) (u : Setup), Ready c h u s → (s.chan c h).dtc = 0 →
    ∃ t, runChannel c h s = .ok (.success, t) ∧
      t.chan c h = { s.chan c h with dcs := setBit (s.chan c h).dcs s.cfg.layout.dcs.tt } ∧
      OtherChannelsKept c h s t ∧ CoresKept s t ∧ MemoryKept s t ∧ SurroundingsKept s t ∧ t.reply = s.reply ∧
      t.log = s.log ++ (if (s.chan c h).tie s.cfg.layout then [.unimplInterrupt c h] else []) ∧
      (Diag.unimplInterrupt c h).code = 9 ∧ (Diag.unimplInterrupt c h).guestError = false

/-- Cites R175. A DCS write that makes a channel ready with SP = DP = TSZ code 0, DTC = 1, SAI = DAI = 1, where the
downstream's RAM answers the 4-byte read at DSA and the 4-byte write at DTA, answers a next state whose new sub-accesses
are that read and that write of the bytes read, with DSA and DTA advanced by 4, DTC = 0, DCS the written value with TT
set, DMAC as before, the four bytes at DTA holding the bytes read, and every other byte of RAM as before. -/
def Obligations.SuccessScenario : Prop :=
  ∀ (s : State) (c : CoreId) (h : ChanId) (v : Word) (u : Setup), Ready c h u (afterDcsWrite c h v s) →
    (s.chan c h).sp = 0 → (s.chan c h).dp = 0 → (s.chan c h).tsz = 0 → (s.chan c h).dtc = 1 →
    (s.chan c h).sai s.cfg.layout = true → (s.chan c h).dai s.cfg.layout = true → s.mem.wf = true →
    route s.cfg .read (s.chan c h).dsa 4 = .ram → route s.cfg .write (s.chan c h).dta 4 = .ram →
    ∃ t, exec (.wrDcs c h v) s = .next t ∧
      t.bus = s.bus ++ [.read (s.chan c h).dsa 4 (some (s.mem.readBytes (s.chan c h).dsa 4)),
        .write (s.chan c h).dta (s.mem.readBytes (s.chan c h).dsa 4) true] ∧
      t.chan c h = { s.chan c h with
        dsa := (s.chan c h).dsa + 4, dta := (s.chan c h).dta + 4, dtc := 0
        dcs := setBit v s.cfg.layout.dcs.tt } ∧
      CoresKept s t ∧ OtherChannelsKept c h s t ∧
      (∀ j < 4, t.mem.read (byteAddr (s.chan c h).dta j).toNat = s.mem.read (byteAddr (s.chan c h).dsa j).toNat) ∧
      ∀ a, (∀ j < 4, a ≠ (byteAddr (s.chan c h).dta j).toNat) → t.mem.read a = s.mem.read a

/-- Cites R184, R143, R168, R178, R179, R180, 92_eei_decisions.md D6. If run-channel of a ready channel that starts with
count N succeeds, over any downstream, then DSA has advanced by SAI*N*ceil(tsz/sp)*sp and DTA by DAI*N*ceil(tsz/dp)*dp
modulo 2^32, DTC is 0, DCS has TT set and every other bit as before, the channel's other registers, every other channel,
every core register and the interrupt line are as before, and the log has UnimplInterrupt appended exactly if TIE = 1.
That addresses wrap modulo 2^32 is decision D6 of spec/92 (log 23). -/
def Obligations.SuccessClosedForm : Prop :=
  ∀ (s t : State) (c : CoreId) (h : ChanId) (u : Setup), Ready c h u s → runChannel c h s = .ok (.success, t) →
    t.chan c h = { s.chan c h with
      dsa := stepped ((s.chan c h).sai s.cfg.layout) (s.chan c h).dsa ((s.chan c h).dtc.toNat * subCount u.tsz u.sp) u.sp,
      dta := stepped ((s.chan c h).dai s.cfg.layout) (s.chan c h).dta ((s.chan c h).dtc.toNat * subCount u.tsz u.dp) u.dp,
      dtc := 0, dcs := setBit (s.chan c h).dcs s.cfg.layout.dcs.tt } ∧
    OtherChannelsKept c h s t ∧ CoresKept s t ∧ t.irq = s.irq ∧ t.cfg = s.cfg ∧
    t.log = s.log ++ (if (s.chan c h).tie s.cfg.layout then [.unimplInterrupt c h] else [])

/-- Cites R185, R172, R167, R197, R178, R181, R166, 92_eei_decisions.md D5, 92_eei_decisions.md D6, 92_eei_decisions.md
D15, 92_eei_decisions.md D23. If run-channel of a ready channel that starts with count N ends in an address error, there
are a chunk k < N and a sub-access j of the failing phase such that DTC = N - k and DSA and DTA have the values of R185
(read phase: k*R + j source and k*W destination advances; write phase: (k+1)*R and k*W + j), DCS and DMAC have AR set
and every other bit as before, and the channel's other registers, every other channel and core register and the log are
as before. The sub-accesses issued before the one that failed are those of k chunks and j more of the failing phase (its
chunk's whole read phase before a write's), each succeeded, and at every address that the failing sub-access was not to
write RAM holds what those left: every write of theirs that RAM took is stored, none is undone. That the failing sub-
access does not advance its address is decision D5 of spec/92 (log 22), that nothing is logged decision D15 (log 27),
that addresses wrap decision D6 (log 23), that a failing write changes at most its own bytes, and a failing read none,
the modelled downstream's answer (D23, log 10 and 8). -/
def Obligations.AddressErrorClosedForm : Prop :=
  ∀ (s t : State) (c : CoreId) (h : ChanId) (u : Setup) (dir : Dir), Ready c h u s →
    runChannel c h s = .ok (.addressError dir, t) →
    ∃ k j, k < (s.chan c h).dtc.toNat ∧
      (match dir with
        | .read => j < subCount u.tsz u.sp
        | .write => j < subCount u.tsz u.dp) ∧
      t.chan c h = { s.chan c h with
        dsa := stepped ((s.chan c h).sai s.cfg.layout) (s.chan c h).dsa
          (match dir with
            | .read => k * subCount u.tsz u.sp + j
            | .write => (k + 1) * subCount u.tsz u.sp) u.sp,
        dta := stepped ((s.chan c h).dai s.cfg.layout) (s.chan c h).dta
          (match dir with
            | .read => k * subCount u.tsz u.dp
            | .write => k * subCount u.tsz u.dp + j) u.dp,
        dtc := BitVec.ofNat 24 ((s.chan c h).dtc.toNat - k),
        dcs := setBit (s.chan c h).dcs s.cfg.layout.dcs.ar } ∧
      (t.core c).dmac = setBit (s.core c).dmac s.cfg.layout.dmac.ar ∧
      OtherChannelsKept c h s t ∧ OtherDmacKept c s t ∧ PendDckeKept s t ∧ t.log = s.log ∧ t.irq = s.irq ∧
      ∃ ops op, t.bus = s.bus ++ ops ++ [op] ∧
        ops.length = k * (subCount u.tsz u.sp + subCount u.tsz u.dp) +
          (match dir with
            | .read => j
            | .write => subCount u.tsz u.sp + j) ∧
        (∀ o ∈ ops, succeeded o = true) ∧ succeeded op = false ∧
        ∀ a, ¬ writesTo a op → t.mem.read a = (ramAfter s.cfg ops s.mem).read a

/-- Cites R165, R171, R68, R54, R161, R162, R163, R178, R180, 92_eei_decisions.md D3, 92_eei_decisions.md D4,
92_eei_decisions.md D6. If run-channel of a ready channel that starts with count N succeeds, the sub-accesses it issued
are, in order and with nothing else, N times the chunk's ceil(tsz/sp) reads of sp bytes at the successive values of DSA
followed by its ceil(tsz/dp) writes of dp bytes at the successive values of DTA, and the downstream answered each with
success; there are N*ceil(tsz/sp) reads and N*ceil(tsz/dp) writes. Over any downstream, devices included: each read got
as many bytes as it asked for, those that RAM held then where RAM answered it; the bytes that a chunk's writes send, one
after another, are the first of the bytes its reads got, one after another, and beyond them the draws at those buffer
positions; and RAM is then the RAM before with each write that RAM took stored, in order, and nothing else changed. So a
FIFO read at a fixed DSA fills a chunk with its successive answers. The places of the bytes rest on decision D3 of
spec/92 (log 13), the draws and the one sub-access of a size below a width on decision D4 (log 12), the wrap of
addresses on decision D6 (log 23). -/
def Obligations.SuccessfulTransferTrace : Prop :=
  ∀ (s t : State) (c : CoreId) (h : ChanId) (u : Setup), Ready c h u s → runChannel c h s = .ok (.success, t) →
    ∃ ops, t.bus = s.bus ++ ops ∧
      ops.map shape = transferTrace u ((s.chan c h).sai s.cfg.layout) ((s.chan c h).dai s.cfg.layout)
        (s.chan c h).dtc.toNat (s.chan c h).dsa (s.chan c h).dta ∧
      (∀ op ∈ ops, succeeded op = true) ∧
      ops.countP (fun op => decide ((shape op).1 = .read)) = (s.chan c h).dtc.toNat * subCount u.tsz u.sp ∧
      ops.countP (fun op => decide ((shape op).1 = .write)) = (s.chan c h).dtc.toNat * subCount u.tsz u.dp ∧
      ReadsAnswered s.cfg s.mem ops ∧ SendsWhatItRead u s.draws ops ∧ t.mem = ramAfter s.cfg ops s.mem

/-- Cites R165, R166, R167, R172, R197, R198, R54, R162, 92_eei_decisions.md D3, 92_eei_decisions.md D4,
92_eei_decisions.md D6, 92_eei_decisions.md D23. If run-channel of a ready channel ends in an address error of a
direction, the sub-accesses it issued are an initial part of those of R165: all but the last succeeded, the last failed
and has that direction. Over any downstream, devices included: each read that succeeded got as many bytes as it asked
for, those that RAM held then where RAM answered it; the bytes that a chunk's writes send, the failing one among them,
are the first of the bytes its reads got and beyond a whole read phase the draws at those buffer positions. There is no
rollback: at every address that the failing sub-access was not to write, RAM is the RAM before with each write that
succeeded and that RAM took stored, in order, of earlier chunks and of the failing one, and nothing else changed. The
places of the bytes rest on decision D3 of spec/92 (log 13), the draws and the one sub-access of a size below a width on
decision D4 (log 12), the wrap of addresses on decision D6 (log 23), that a failing write changes at most its own bytes,
and a failing read none, on the modelled downstream's answer (D23, log 10 and 8). -/
def Obligations.FailingTransferStopsAtFailure : Prop :=
  ∀ (s t : State) (c : CoreId) (h : ChanId) (u : Setup) (dir : Dir), Ready c h u s →
    runChannel c h s = .ok (.addressError dir, t) →
    ∃ ops op, t.bus = s.bus ++ ops ++ [op] ∧
      (ops ++ [op]).map shape <+: transferTrace u ((s.chan c h).sai s.cfg.layout) ((s.chan c h).dai s.cfg.layout)
        (s.chan c h).dtc.toNat (s.chan c h).dsa (s.chan c h).dta ∧
      (∀ o ∈ ops, succeeded o = true) ∧ succeeded op = false ∧ (shape op).1 = dir ∧
      ReadsAnswered s.cfg s.mem ops ∧ SendsWhatItRead u s.draws (ops ++ [op]) ∧
      ∀ a, ¬ writesTo a op → t.mem.read a = (ramAfter s.cfg ops s.mem).read a

/-- Cites R54, R55, R71, R160, R163, R180, R227, 92_eei_decisions.md D3, 92_eei_decisions.md D4, 92_eei_decisions.md D6.
If a DCS write makes a channel ready, with addresses that increment or stay fixed and with any size and port widths, and
every sub-access of the transfer is answered by RAM, then the write answers a next state whose RAM is that of the chunks
one after another, each read whole before it is written, overlapping or not: each write sub-access sends the bytes at
its buffer positions, which are the bytes the chunk's reads put there and, beyond them, draws. DTC is 0, DCS the written
value with TT set, and every core register as before. With SAI = DAI = 1 and a size no smaller than either port width,
that RAM is the one of DTC units of tsz bytes copied one after another. The places of the bytes between ports of
different widths rest on decision D3 of spec/92 (log 13), the draws and the one sub-access of a size below a width on
decision D4 (log 12), the wrap of addresses on decision D6 (log 23). -/
def Obligations.RamTransferCopiesUnitByUnit : Prop :=
  ∀ (s : State) (c : CoreId) (h : ChanId) (v : Word) (u : Setup), Ready c h u (afterDcsWrite c h v s) →
    AllRam s.cfg (channelTrace u s.cfg.layout (s.chan c h)) →
    ∃ t, exec (.wrDcs c h v) s = .next t ∧
      t.mem = transferImage u ((s.chan c h).sai s.cfg.layout) ((s.chan c h).dai s.cfg.layout) (s.chan c h).dtc.toNat s.draws
        (s.chan c h).dsa (s.chan c h).dta s.mem ∧
      ((s.chan c h).sai s.cfg.layout = true → (s.chan c h).dai s.cfg.layout = true → u.sp ≤ u.tsz → u.dp ≤ u.tsz →
        t.mem = copyUnits u.tsz (s.chan c h).dtc.toNat (s.chan c h).dsa (s.chan c h).dta s.mem) ∧
      (t.chan c h).dtc = 0 ∧ (t.chan c h).dcs = setBit v s.cfg.layout.dcs.tt ∧ CoresKept s t

/-- Cites R54, R55, R163, R180, 20_memory.md section 3, 95_test_vectors.md L2.4, 92_eei_decisions.md D3,
92_eei_decisions.md D4, 92_eei_decisions.md D6. If a DCS write makes a channel ready, every sub-access of the transfer
is answered by RAM, memory is in canonical form and no byte the transfer reads is one it writes, then the write answers
a next state in which: with DAI = 1, byte q from the old DTA is the byte sent at place q of the chunks' write phases one
after another (the byte read at its buffer position, or beyond the read phase a draw); with DAI = 0 and DTC not 0, the
dp bytes at DTA are the last dp bytes sent; with SAI = DAI = 1 and a size no smaller than either port width, byte i from
the old DTA reads what byte i from the old DSA read before, for all DTC*tsz bytes; and every address the transfer does
not write reads as before. The places of the bytes between ports of different widths rest on decision D3 of spec/92 (log
13), the draws and the one sub-access of a size below a width on decision D4 (log 12), the wrap of addresses on decision
D6 (log 23). -/
def Obligations.DisjointRamTransferCopiesImage : Prop :=
  ∀ (s : State) (c : CoreId) (h : ChanId) (v : Word) (u : Setup), Ready c h u (afterDcsWrite c h v s) →
    AllRam s.cfg (channelTrace u s.cfg.layout (s.chan c h)) → s.mem.wf = true →
    (∀ p < (s.chan c h).dtc.toNat * readRun u, ∀ q < (s.chan c h).dtc.toNat * writeRun u,
      runAddr ((s.chan c h).sai s.cfg.layout) (s.chan c h).dsa u.sp p ≠
        runAddr ((s.chan c h).dai s.cfg.layout) (s.chan c h).dta u.dp q) →
    ∃ t, exec (.wrDcs c h v) s = .next t ∧
      ((s.chan c h).dai s.cfg.layout = true → ∀ q < (s.chan c h).dtc.toNat * writeRun u,
        t.mem.read (byteAddr (s.chan c h).dta q).toNat =
          sentByte u ((s.chan c h).sai s.cfg.layout) s.draws (s.chan c h).dsa s.mem q) ∧
      ((s.chan c h).dai s.cfg.layout = false → (s.chan c h).dtc ≠ 0 → ∀ j < u.dp,
        t.mem.read (byteAddr (s.chan c h).dta j).toNat =
          sentByte u ((s.chan c h).sai s.cfg.layout) s.draws (s.chan c h).dsa s.mem
            ((s.chan c h).dtc.toNat * writeRun u - u.dp + j)) ∧
      ((s.chan c h).sai s.cfg.layout = true → (s.chan c h).dai s.cfg.layout = true → u.sp ≤ u.tsz → u.dp ≤ u.tsz →
        ∀ i < (s.chan c h).dtc.toNat * u.tsz,
          t.mem.read (byteAddr (s.chan c h).dta i).toNat = s.mem.read (byteAddr (s.chan c h).dsa i).toNat) ∧
      ∀ a, (∀ q < (s.chan c h).dtc.toNat * writeRun u,
        a ≠ (runAddr ((s.chan c h).dai s.cfg.layout) (s.chan c h).dta u.dp q).toNat) → t.mem.read a = s.mem.read a

/-- Cites R54, R160, R163, 92_eei_decisions.md D3, 92_eei_decisions.md D4, 92_eei_decisions.md D6. If a DCS write makes
a channel ready with tsz = 1, sp = 1, dp = 4 and DTC = 1, and RAM answers the read and the write, then of the four bytes
written at DTA the first is the byte read at DSA and the others are the free values drawn for their buffer positions, so
nothing is known of them. That a chunk's buffer is drawn anew is decision D4 of spec/92 (log 12), that the byte read
stands at DTA itself decision D3 (log 13), that addresses wrap decision D6 (log 23). -/
def Obligations.UnfilledBytesAreFree : Prop :=
  ∀ (s : State) (c : CoreId) (h : ChanId) (v : Word) (u : Setup), Ready c h u (afterDcsWrite c h v s) →
    u.tsz = 1 → u.sp = 1 → u.dp = 4 → (s.chan c h).dtc = 1 → s.mem.wf = true →
    route s.cfg .read (s.chan c h).dsa 1 = .ram → route s.cfg .write (s.chan c h).dta 4 = .ram →
    ∃ t, exec (.wrDcs c h v) s = .next t ∧
      t.mem.read (s.chan c h).dta.toNat = s.mem.read (s.chan c h).dsa.toNat ∧
      (∀ j, 0 < j → j < 4 → t.mem.read (byteAddr (s.chan c h).dta j).toNat = Config.drawByte (s.draws + j)) ∧
      ∀ a, (∀ j < 4, a ≠ (byteAddr (s.chan c h).dta j).toNat) → t.mem.read a = s.mem.read a

/-- Cites R166, R181, R61, 92_eei_decisions.md D5, 92_eei_decisions.md D15, 92_eei_decisions.md D23. If a DCS write
makes a channel ready with DTC not 0 and the downstream has nothing that answers the first read, the write answers a
next state in which DCS is the written value with AR set, DMAC has AR set and every other bit as before, HLT and TT are
as they were, DSA, DTA and DTC and every other register are as before, nothing is logged, every byte of RAM is as
before, and the one failed read was issued; the channel is not runnable then. That nothing is logged is decision D15 of
spec/92 (log 27), that the failing read does not advance DSA decision D5 (log 22), that it leaves RAM alone the modelled
downstream's answer (R61, D23, log 8). -/
def Obligations.FirstReadFaultIsAddressError : Prop :=
  ∀ (s : State) (c : CoreId) (h : ChanId) (v : Word) (u : Setup), Ready c h u (afterDcsWrite c h v s) →
    (s.chan c h).dtc ≠ 0 → route s.cfg .read (s.chan c h).dsa u.sp = .unmapped →
    ∃ t, exec (.wrDcs c h v) s = .next t ∧
      t.chan c h = { s.chan c h with dcs := setBit v s.cfg.layout.dcs.ar } ∧
      (t.core c).dmac = setBit (s.core c).dmac s.cfg.layout.dmac.ar ∧
      OtherChannelsKept c h s t ∧ OtherDmacKept c s t ∧ PendDckeKept s t ∧ MemoryKept s t ∧ t.log = s.log ∧
      t.bus = s.bus ++ [.read (s.chan c h).dsa u.sp none] ∧ runnable t c h = false

/-- Cites R166, R167, R181, R61, 95_test_vectors.md L1.7, 92_eei_decisions.md D5, 92_eei_decisions.md D15,
92_eei_decisions.md D23. If a DCS write makes a channel ready with SP = DP = TSZ code 0, DTC not 0 and SAI = 1, RAM
answers the first read and nothing answers the first write, then the write answers a next state in which DSA has
advanced by 4, DTA and DTC are as before, DCS is the written value with AR set, DMAC has AR set, nothing is logged, and
every address outside the four bytes of the failing write reads as before. That DSA has advanced and DTA has not is
decision D5 of spec/92 (log 22), that nothing is logged decision D15 (log 27), that a failing write changes at most its
own bytes of RAM the modelled downstream's answer (R61, D23, log 10). -/
def Obligations.FirstWriteFaultIsAddressError : Prop :=
  ∀ (s : State) (c : CoreId) (h : ChanId) (v : Word) (u : Setup), Ready c h u (afterDcsWrite c h v s) →
    (s.chan c h).sp = 0 → (s.chan c h).dp = 0 → (s.chan c h).tsz = 0 → (s.chan c h).dtc ≠ 0 →
    (s.chan c h).sai s.cfg.layout = true → route s.cfg .read (s.chan c h).dsa 4 = .ram →
    route s.cfg .write (s.chan c h).dta 4 = .unmapped →
    ∃ t, exec (.wrDcs c h v) s = .next t ∧
      t.chan c h = { s.chan c h with dsa := (s.chan c h).dsa + 4, dcs := setBit v s.cfg.layout.dcs.ar } ∧
      (t.core c).dmac = setBit (s.core c).dmac s.cfg.layout.dmac.ar ∧ t.log = s.log ∧
      OtherChannelsKept c h s t ∧ OtherDmacKept c s t ∧ PendDckeKept s t ∧
      ∀ a, (∀ j < 4, a ≠ (byteAddr (s.chan c h).dta j).toNat) → t.mem.read a = s.mem.read a

/-- Cites R77, R18, 92_eei_decisions.md D22. If a DCS write makes a channel ready, RAM answers the first sub-accesses of
its transfer, none, some or many, and the next one, a read or a write, reaches the block's own register window, then the
write is refused with that sub-access named. The same holds of a DMAC or DDRS write whose pass comes to such a channel,
first or after other channels have run. And whenever exec of any instruction is refused, the refusal names a sub-access
that reaches the block's own window. This is decision D22 of spec/92 (log 11). -/
def Obligations.OwnWindowAccessIsRefused : Prop :=
  ∀ (s : State) (c : CoreId) (u : Setup) (op : Dir × Word × Nat),
    (∀ h v, Ready c h u (afterDcsWrite c h v s) → StopsAtOwn s.cfg (channelTrace u s.cfg.layout (s.chan c h)) op →
      exec (.wrDcs c h v) s = .refused (.reentrant op.1 op.2.1 op.2.2)) ∧
    (∀ v hs h hs' t, channelIds s.cfg = hs ++ h :: hs' → runChannels c hs (afterDmacWrite c v s) = .ok t → Ready c h u t →
      StopsAtOwn s.cfg (channelTrace u s.cfg.layout (t.chan c h)) op →
      exec (.wrDmac c v) s = .refused (.reentrant op.1 op.2.1 op.2.2)) ∧
    (∀ v hs h hs' t, channelIds s.cfg = hs ++ h :: hs' → runChannels c hs (afterDdrsWrite c v s) = .ok t → Ready c h u t →
      StopsAtOwn s.cfg (channelTrace u s.cfg.layout (t.chan c h)) op →
      exec (.wrDdrs c v) s = .refused (.reentrant op.1 op.2.1 op.2.2)) ∧
    ∀ i r, exec i s = .refused r → ∃ dir a n, r = .reentrant dir a n ∧ route s.cfg dir a n = .own

/-- Cites R187. For every instruction and every state whose platform routes nothing to the block's own window, exec
answers a next state, in which the interrupt line is as before: every outcome is contained in the block. A read returns
a value, an invalid one 0, a write none. -/
def Obligations.EveryAccessCompletes : Prop :=
  ∀ (i : Instr) (s : State), noOwnWindow s.cfg = true →
    ∃ t, exec i s = .next t ∧ t.irq = s.irq ∧ (isRead i = true ↔ t.reply.isSome = true) ∧
      ∀ off, i = .rdBad off → t.reply = some 0

/-- Cites R170, R30, R37, R164, R61, 92_eei_decisions.md D23. Where nothing routes to the block's own window, WR DCS
answers a next state in which DRT, DCM, DDA and DSD of the channel, every register of every other channel, PEND and DCKE
of every core, DMAC of the other core, the interrupt line and the configuration are as before; DCS is the written value
but for HLT, TT and AR, DMAC is as before but for HLT and AR, and none of their bits was cleared; DTC has not risen; and
every address that no new write sub-access sends to reads as before. That a failing write changes at most its own bytes
of RAM, and a failing read none, is the modelled downstream's answer (R61, D23, log 10 and 8). -/
def Obligations.DcsWriteFrame : Prop :=
  ∀ (s : State) (c : CoreId) (h : ChanId) (v : Word), noOwnWindow s.cfg = true →
    ∃ t, exec (.wrDcs c h v) s = .next t ∧
      (t.chan c h).drt = (s.chan c h).drt ∧ (t.chan c h).dcm = (s.chan c h).dcm ∧
      (t.chan c h).dda = (s.chan c h).dda ∧ (t.chan c h).dsd = (s.chan c h).dsd ∧
      (t.chan c h).dtc.toNat ≤ (s.chan c h).dtc.toNat ∧
      (∀ j, bitAt (t.chan c h).dcs j = bitAt v j ∨
        (bitAt (t.chan c h).dcs j = true ∧ (j = s.cfg.layout.dcs.hlt ∨ j = s.cfg.layout.dcs.tt ∨ j = s.cfg.layout.dcs.ar))) ∧
      (∀ j, bitAt (t.core c).dmac j = bitAt (s.core c).dmac j ∨
        (bitAt (t.core c).dmac j = true ∧ (j = s.cfg.layout.dmac.hlt ∨ j = s.cfg.layout.dmac.ar))) ∧
      OtherChannelsKept c h s t ∧ OtherDmacKept c s t ∧ PendDckeKept s t ∧ t.irq = s.irq ∧ t.cfg = s.cfg ∧
      ∃ ops, t.bus = s.bus ++ ops ∧ ∀ a, (∀ op ∈ ops, ¬ writesTo a op) → t.mem.read a = s.mem.read a

/-- Cites R120, R149, R170, R37, R61, 92_eei_decisions.md D23. Where nothing routes to the block's own window, WR DMAC
answers a next state in which every register of the other core and of its channels, PEND and DCKE of the core, DRT, DCM,
DDA and DSD of its channels, the interrupt line and the configuration are as before; DMAC is the written value but for
HLT and AR; DCS of its channels is as before but for HLT, TT and AR, and none of their bits was cleared; and every
address that no new write sub-access sends to reads as before. That a failing write changes at most its own bytes of
RAM, and a failing read none, is the modelled downstream's answer (R61, D23, log 10 and 8). -/
def Obligations.DmacWriteFrame : Prop :=
  ∀ (s : State) (c : CoreId) (v : Word), noOwnWindow s.cfg = true →
    ∃ t, exec (.wrDmac c v) s = .next t ∧
      (∀ c', c' ≠ c → t.core c' = s.core c') ∧
      (∀ j, bitAt (t.core c).dmac j = bitAt v j ∨
        (bitAt (t.core c).dmac j = true ∧ (j = s.cfg.layout.dmac.hlt ∨ j = s.cfg.layout.dmac.ar))) ∧
      (∀ h, (t.chan c h).drt = (s.chan c h).drt ∧ (t.chan c h).dcm = (s.chan c h).dcm ∧
        (t.chan c h).dda = (s.chan c h).dda ∧ (t.chan c h).dsd = (s.chan c h).dsd ∧
        ∀ j, bitAt (t.chan c h).dcs j = bitAt (s.chan c h).dcs j ∨
          (bitAt (t.chan c h).dcs j = true ∧ (j = s.cfg.layout.dcs.hlt ∨ j = s.cfg.layout.dcs.tt ∨ j = s.cfg.layout.dcs.ar))) ∧
      PendDckeKept s t ∧ t.irq = s.irq ∧ t.cfg = s.cfg ∧
      ∃ ops, t.bus = s.bus ++ ops ∧ ∀ a, (∀ op ∈ ops, ¬ writesTo a op) → t.mem.read a = s.mem.read a

/-- Cites R125, R134, R146. In a state in which no channel is runnable, WR DDRS answers a next state in which PEND is
the bitwise OR of its old value and the written one, and every other register, every byte of RAM, the log, the sub-
accesses issued and the draws are as before. -/
def Obligations.DdrsWriteOnlySetsPend : Prop :=
  ∀ (s : State) (c : CoreId) (v : Word), Quiescent s →
    ∃ t, exec (.wrDdrs c v) s = .next t ∧ CoreStored c (s.core c).dmac ((s.core c).pend ||| v) (s.core c).dcke s t

/-- Cites R120, R135, R221. If no channel of the core is runnable once DMAC holds the written value, which is so if its
DMAE is 0 or its HLT or AR is 1, WR DMAC answers a next state in which DMAC holds it and every other register, every
byte of RAM, the log, the sub-accesses issued and the draws are as before. -/
def Obligations.DmacWriteRunningNothingOnlyStores : Prop :=
  ∀ (s : State) (c : CoreId) (v : Word),
    ((bitAt v s.cfg.layout.dmac.dmae = false ∨ bitAt v s.cfg.layout.dmac.hlt = true ∨ bitAt v s.cfg.layout.dmac.ar = true) →
      ∀ h, runnable (afterDmacWrite c v s) c h = false) ∧
    ((∀ h, runnable (afterDmacWrite c v s) c h = false) →
      ∃ t, exec (.wrDmac c v) s = .next t ∧ CoreStored c v (s.core c).pend (s.core c).dcke s t)

/-- Cites R120, R139, R221. If exactly one configured channel of the core is runnable once DMAC holds the written value,
WR DMAC answers the state run-channel of that channel leaves. -/
def Obligations.DmacWriteStartsWaitingChannel : Prop :=
  ∀ (s t : State) (c : CoreId) (h : ChanId) (v : Word) (o : ChannelOutcome), h.val < s.cfg.numChannels →
    runnable (afterDmacWrite c v s) c h = true →
    (∀ h', h' ≠ h → runnable (afterDmacWrite c v s) c h' = false) →
    runChannel c h (afterDmacWrite c v s) = .ok (o, t) → exec (.wrDmac c v) s = .next t

/-- Cites R195. The channels a pass visits are the configured ones in index order; and if run-channel ends in descriptor
mode, a halt or an address error, then no channel of the core is runnable in the state it leaves, and running any list
of channels from there answers that state: a later channel reports nothing. -/
def Obligations.OutcomeBlocksRestOfPass : Prop :=
  ∀ (s t : State) (c : CoreId) (h : ChanId) (o : ChannelOutcome), runChannel c h s = .ok (o, t) →
    o ≠ .notRunnable → o ≠ .success →
    (∀ h', runnable t c h' = false) ∧ (∀ hs, runChannels c hs t = .ok t) ∧
    (channelIds s.cfg).map Fin.val = List.range (min s.cfg.numChannels 5)

/-- Cites R134, R199. If run-channel answers a state, its channel is not runnable there, and any channel of any core
that was not runnable before is not runnable there. -/
def Obligations.RunChannelLeavesChannelNotRunnable : Prop :=
  ∀ (s t : State) (c : CoreId) (h : ChanId) (o : ChannelOutcome), runChannel c h s = .ok (o, t) →
    runnable t c h = false ∧ ∀ c' h', runnable s c' h' = false → runnable t c' h' = false

/-- Cites R149. Replacing the whole bank of another core before WR DCS, WR DMAC or WR DDRS of a core changes the answer
only in that bank, which stands as it was put there: what the access does to everything else, and whether it is refused,
is the same. So a halt or address error on the other core blocks nothing. -/
def Obligations.CoresDoNotInteract : Prop :=
  ∀ (s : State) (c c' : CoreId) (h : ChanId) (k : CoreBank) (v : Word), c' ≠ c →
    exec (.wrDmac c v) (s.setCore c' k) = mapNext (fun t => t.setCore c' k) (exec (.wrDmac c v) s) ∧
    exec (.wrDdrs c v) (s.setCore c' k) = mapNext (fun t => t.setCore c' k) (exec (.wrDdrs c v) s) ∧
    exec (.wrDcs c h v) (s.setCore c' k) = mapNext (fun t => t.setCore c' k) (exec (.wrDcs c h v) s) ∧
    ∀ t, exec (.wrDmac c v) s = .next t → t.core c' = s.core c'

/-- Cites R145. If exec answers a next state, every bit of a channel's DCS that was set is still set unless the
instruction is WR DCS of that channel, and every bit of a core's DMAC that was set is still set unless it is WR DMAC of
that core; after WR DCS or WR DMAC every bit set in the written value is set. -/
def Obligations.StatusBitsAreSticky : Prop :=
  ∀ (i : Instr) (s t : State), exec i s = .next t →
    (∀ c h, (∀ v, i ≠ .wrDcs c h v) → ∀ j, bitAt (s.chan c h).dcs j = true → bitAt (t.chan c h).dcs j = true) ∧
    (∀ c, (∀ v, i ≠ .wrDmac c v) → ∀ j, bitAt (s.core c).dmac j = true → bitAt (t.core c).dmac j = true) ∧
    (∀ c h v, i = .wrDcs c h v → ∀ j, bitAt v j = true → bitAt (t.chan c h).dcs j = true) ∧
    (∀ c v, i = .wrDmac c v → ∀ j, bitAt v j = true → bitAt (t.core c).dmac j = true)

/-- Cites R164, R197. If run-channel answers a state, DTC there is 0 on success, between 1 and the count before on an
address error, and the count before on every other outcome. -/
def Obligations.CountOnlyFalls : Prop :=
  ∀ (s t : State) (c : CoreId) (h : ChanId) (o : ChannelOutcome), runChannel c h s = .ok (o, t) →
    match o with
    | .success => (t.chan c h).dtc = 0
    | .addressError _ => 0 < (t.chan c h).dtc.toNat ∧ (t.chan c h).dtc.toNat ≤ (s.chan c h).dtc.toNat
    | .halted _ => (t.chan c h).dtc = (s.chan c h).dtc
    | .descriptorMode => (t.chan c h).dtc = (s.chan c h).dtc
    | .notRunnable => (t.chan c h).dtc = (s.chan c h).dtc

/-- Cites R140, R150, R173. If exec answers a next state, the sub-accesses issued have grown at their end, by at most
max(1, NUM_CHANNELS) (NUM_CHANNELS counted as at most 5) transfers of at most 2^24 - 1 chunks of at most 64 reads and 64
writes; by at most one such transfer for a WR DCS; and by none for an instruction that is not WR DCS, WR DMAC or WR
DDRS. -/
def Obligations.PassIsBounded : Prop :=
  ∀ (i : Instr) (s t : State), exec i s = .next t →
    ∃ ops, t.bus = s.bus ++ ops ∧ ops.length ≤ max 1 (min s.cfg.numChannels 5) * ((2 ^ 24 - 1) * 128) ∧
      (∀ c h v, i = .wrDcs c h v → ops.length ≤ (2 ^ 24 - 1) * 128) ∧
      ((∀ c h v, i ≠ .wrDcs c h v) → (∀ c v, i ≠ .wrDmac c v) → (∀ c v, i ≠ .wrDdrs c v) → ops = [])

/-- Cites R20, R45, R126, 92_eei_decisions.md D7, 92_eei_decisions.md D8. A reset request on a device that exists
answers a next state in which, for every configured core and channel, all eight channel registers and DMAC, PEND and
DCKE are 0, and each of the thirteen reads returns 0. That RD DDRS returns 0 is decision D8 of spec/92 (log 25), that RD
DDR returns PEND decision D7 (log 24). -/
def Obligations.ResetZeroesEveryRegister : Prop :=
  ∀ (s : State) (rest : List Request), s.cfg.ok = true → s.port = .reset :: rest →
    ∃ t, step s = .next t ∧
      ∀ c : CoreId, c.val < s.cfg.numCores →
        (t.core c).dmac = 0 ∧ (t.core c).pend = 0 ∧ (t.core c).dcke = 0 ∧
        (∀ i ∈ [Instr.rdDmac c, .rdDirqp c, .rdDdr c, .rdDdrs c, .rdDcke c], ∃ t', exec i t = .next t' ∧ t'.reply = some 0) ∧
        ∀ h : ChanId, h.val < s.cfg.numChannels →
          t.chan c h = Channel.zero ∧
          ∀ i ∈ [Instr.rdDsa c h, .rdDta c h, .rdDtc c h, .rdDrt c h, .rdDcs c h, .rdDcm c h, .rdDda c h, .rdDsd c h],
            ∃ t', exec i t = .next t' ∧ t'.reply = some 0

/-- Cites R46, R215, 92_eei_decisions.md D13, 92_eei_decisions.md D30. A reset request on a device that exists answers a
next state with the same configuration, log, RAM, sub-accesses issued and draws, the interrupt line at 0, and the
request consumed. That the log stays is decision D30, the line decision D13 of spec/92 (log 30 and 31). -/
def Obligations.ResetKeepsLogAndDownstream : Prop :=
  ∀ (s : State) (rest : List Request), s.cfg.ok = true → s.port = .reset :: rest →
    ∃ t, step s = .next t ∧ t.cfg = s.cfg ∧ t.log = s.log ∧ t.mem = s.mem ∧ t.bus = s.bus ∧ t.draws = s.draws ∧
      t.irq = false ∧ t.port = rest

/-- Cites R214, R217, R46, 92_eei_decisions.md D13, 92_eei_decisions.md D18, 92_eei_decisions.md D19. In State.reset the
eight registers of every channel and DMAC, PEND and DCKE of every core are 0, NDES of every channel and DMAE of every
core are 0, DRT of every channel is not DRT_AUTO, no channel is runnable, the log is empty and the interrupt line is
low. The configuration of State.reset, and so its layout and that its DRT_AUTO is not 0, is the model's choice (log 4, 5
and 6; D18, D19), the empty log is log 27's, and the line's level is decision D13 of spec/92 (log 31). -/
def Obligations.StateResetIsZero : Prop :=
  (∀ c h, State.reset.chan c h = Channel.zero ∧ runnable State.reset c h = false ∧
      (State.reset.chan c h).ndes State.reset.cfg.layout = false ∧ (State.reset.chan c h).drt ≠ State.reset.cfg.drtAuto) ∧
    (∀ c, State.reset.core c = CoreBank.zero ∧ (State.reset.core c).dmae State.reset.cfg.layout = false) ∧
    State.reset.log = [] ∧ State.reset.irq = false

/-- Cites R211. For parameters whose window is at least as large as R52 asks for, with any layout and any request type,
the step that constructs a device answers a next state exactly when 1 to 5 channels, 1 or 2 cores and a downstream are
given; otherwise it stops with the construction error naming a parameter whose check fails. -/
def Obligations.ConstructionChecks : Prop :=
  ∀ (s : State) (p : Config) (rest : List Request), s.port = .construct p :: rest →
    (p.numCores = 1 → 0x314 ≤ p.windowSize) → (p.numCores = 2 → 0x414 ≤ p.windowSize) →
    ((∃ t, step s = .next t) ↔
      (1 ≤ p.numChannels ∧ p.numChannels ≤ 5) ∧ (1 ≤ p.numCores ∧ p.numCores ≤ 2) ∧ p.downstream.isSome = true) ∧
    ((¬ ∃ t, step s = .next t) → ∃ q, step s = .fault (.configInvalid q) ∧
      match q with
      | .numChannels => ¬(1 ≤ p.numChannels ∧ p.numChannels ≤ 5)
      | .numCores => ¬(1 ≤ p.numCores ∧ p.numCores ≤ 2)
      | .downstream => p.downstream = none)

/-- Cites R213, 92_eei_decisions.md D13, 92_eei_decisions.md D14. If the step that constructs a device answers a next
state, its configuration is the given parameters, every register of every core and channel is 0, the line is low,
nothing is runnable, and the log, RAM and sub-accesses issued are as before. That construction leaves the reset state is
decision D14 of spec/92 (log 32), the line's level decision D13 (log 31). That the log, RAM and sub-accesses stay is the
model's own choice and no rule of the spec (log 16, unsafe). -/
def Obligations.ConstructionGivesResetState : Prop :=
  ∀ (s t : State) (p : Config) (rest : List Request), s.port = .construct p :: rest → step s = .next t →
    t.cfg = p ∧ (∀ c, t.core c = CoreBank.zero) ∧ (∀ c h, t.chan c h = Channel.zero ∧ runnable t c h = false) ∧
    t.irq = false ∧ t.port = rest ∧ t.log = s.log ∧ t.mem = s.mem ∧ t.bus = s.bus

/-- Cites R101, R102, R14, R129, R52. If the oldest request is an access within the window that decodes to an
instruction, on a device that exists, the step answers what exec of that instruction answers on the state with the
request consumed; an access of another size is refused by name (decision D1, log 20); one beyond the window leaves the
registers, the log and the downstream as they are and returns nothing (log 14). An offset has 32 bits by the model's
choice (log 39). -/
def Obligations.StepRunsDecodedAccess : Prop :=
  ∀ (s : State) (a : Access) (rest : List Request), s.port = .access a :: rest → s.cfg.ok = true →
    (∀ i, decodeAccess s.cfg a = .ok i → (accessOffset a).toNat < s.cfg.windowSize →
      step s = exec i { s with port := rest }) ∧
    (accessSize a ≠ 4 → (accessOffset a).toNat < s.cfg.windowSize →
      step s = .refused (.accessSize (accessOffset a) (accessSize a))) ∧
    (s.cfg.windowSize ≤ (accessOffset a).toNat → step s = .next { s with port := rest, reply := none })

/-- Cites R101, R102, 30_encoding.md section 1. For every well-formed instruction whose offset lies in the window of a
device that exists, the step from the state with the instruction's record placed as a number of 72 bits answers what
exec of the instruction answers on the state itself. R101 and R102 give the decoding and running of an access; the
record of 72 bits that carries it is the model's own layout (log 1), and that withFetchWord places it in front of every
waiting request is the model's choice (log 2). -/
def Obligations.FetchedWordRunsNext : Prop :=
  ∀ (s : State) (i : Instr), s.cfg.ok = true → i.wf s.cfg = true →
    step (s.withFetchWord 72 ((encode i).foldr (fun b n => b.toNat + 256 * n) 0)) = exec i s

/-- Cites R207, 60_exceptions.md section 6. If no request is waiting, the step answers the state itself. -/
def Obligations.IdleStepChangesNothing : Prop :=
  ∀ (s : State), s.port = [] → step s = .next s

/-- Cites R212, 92_eei_decisions.md D28. If the configuration is none with which a device exists, a step that serves an
access or a reset is refused with noDevice. This is decision D28 of spec/92 (log 18). -/
def Obligations.NoDeviceIsRefused : Prop :=
  ∀ (s : State) (a : Access) (rest : List Request), s.cfg.ok = false →
    (s.port = .access a :: rest → step s = .refused .noDevice) ∧ (s.port = .reset :: rest → step s = .refused .noDevice)

/-- Cites R24, R35, R82, 95_test_vectors.md L2.1. Under the default configuration, nine-byte records decode to the
instruction they stand for. Their first four bytes are the offset, written out from R24, R35 and R82; the value's bytes
and the last byte (direction and size) are in the model's own layout (log 1). They are RD DSA(0,0), WR DTA(1,4), WR
DCS(1,0), RD DMAC(0), WR DDRS(1), RD DCKE(1), RD Bad 0x0a0 and WR Bad 0x314. -/
def Obligations.DecodedWords : Prop :=
  decode Config.default [0x00, 0x00, 0, 0, 0, 0, 0, 0, 0x00] = .ok (.rdDsa 0 0, []) ∧
    decode Config.default [0x84, 0x01, 0, 0, 0x03, 0, 0, 0x80, 0x01] = .ok (.wrDta 1 4 0x80000003, []) ∧
    decode Config.default [0x10, 0x01, 0, 0, 0x01, 0, 0, 0x80, 0x01] = .ok (.wrDcs 1 0 0x80000001, []) ∧
    decode Config.default [0x00, 0x03, 0, 0, 0, 0, 0, 0, 0x00] = .ok (.rdDmac 0, []) ∧
    decode Config.default [0x0c, 0x04, 0, 0, 0x04, 0, 0, 0, 0x01] = .ok (.wrDdrs 1 4, []) ∧
    decode Config.default [0x10, 0x04, 0, 0, 0, 0, 0, 0, 0x00] = .ok (.rdDcke 1, []) ∧
    decode Config.default [0xa0, 0x00, 0, 0, 0, 0, 0, 0, 0x00] = .ok (.rdBad 0xa0, []) ∧
    decode Config.default [0x14, 0x03, 0, 0, 0xff, 0, 0, 0, 0x01] = .ok (.wrBad 0x314 0xff, [])

/-- Cites R81, R82, R83, R24, R35. For every configuration with at most 2 cores and 5 channels and every instruction
that is well-formed under it, with every operand at every value, decoding its record followed by any bytes gives the
instruction and those bytes. -/
def Obligations.DecodeEncodeRoundTrip : Prop :=
  ∀ (cfg : Config) (i : Instr) (rest : List Byte), i.wf cfg = true → decode cfg (encode i ++ rest) = .ok (i, rest)

/-- Cites R83, R84, R85, R56, 92_eei_decisions.md D9, 92_eei_decisions.md D10. An offset decodes to a channel register
exactly when the core and channel exist and it is 0x100*c + 0x20*h + sel; to a core register exactly when the core
exists and it is 0x300 + 0x100*c + sel plus a multiple of 0x400; every other offset is Bad. That a core or channel
exists exactly when its index is below the configured count, and that the core is checked in both forms, is decision D9
of spec/92 (log 26). The aliases are read from the decode formula as written (decision D10, log 37). An offset has 32
bits by the model's choice (log 39). -/
def Obligations.OffsetsDecodeExactly : Prop :=
  ∀ (cfg : Config) (off : Word),
    (∀ c h r, locate cfg off = .ch c h r ↔
      c.val < cfg.numCores ∧ h.val < cfg.numChannels ∧ off.toNat = 0x100 * c.val + 0x20 * h.val + r.sel) ∧
    (∀ c r, locate cfg off = .co c r ↔
      c.val < cfg.numCores ∧ ∃ n, off.toNat = 0x300 + 0x100 * c.val + r.sel + 0x400 * n)

/-- Cites R52. If a device with the configuration exists, WINDOW_SIZE is at least 0x314 for one core and 0x414 for two,
the offset of every register of every configured core and channel is below it, and a step that serves an access at
WINDOW_SIZE or above changes nothing but the request consumed and the reply (log 14). An offset has 32 bits by the
model's choice (log 39). -/
def Obligations.WindowHoldsEveryRegister : Prop :=
  ∀ (cfg : Config), cfg.ok = true →
    (∀ c : CoreId, c.val < cfg.numCores → ∀ r, (CoReg.offset c r).toNat < cfg.windowSize ∧
      ∀ (h : ChanId) (q : ChReg), (ChReg.offset c h q).toNat < cfg.windowSize) ∧
    ((cfg.numCores = 1 → 0x314 ≤ cfg.windowSize) ∧ (cfg.numCores = 2 → 0x414 ≤ cfg.windowSize)) ∧
    ∀ (s : State) (a : Access) (rest : List Request), s.cfg = cfg → s.port = .access a :: rest →
      cfg.windowSize ≤ (accessOffset a).toNat → step s = .next { s with port := rest, reply := none }

/-- Cites R134, R15, R19, R43, 92_eei_decisions.md D13. For every state that meets the invariant (a device exists, no
channel of any core is runnable, cores and channels beyond the configured counts are zero, the interrupt line is low,
memory is in canonical form), if a step answers a next state, that state meets it too. That the line stays low is
decision D13 of spec/92 (log 31), the places beyond the counts are the model's (log 34). -/
def Obligations.StepKeepsInvariant : Prop :=
  ∀ (s t : State), MachineInv s → step s = .next t → MachineInv t

/-- Cites R217, R45, R46, R214, 92_eei_decisions.md D13. State.reset meets the invariant. Its configuration and its
empty memory are the model's choices (log 4 and 9), and so are the places beyond the counts (log 34); that the line is
low is decision D13 of spec/92 (log 31). -/
def Obligations.ResetMeetsInvariant : Prop :=
  MachineInv State.reset

/-- Cites R16. If a step that serves an access or a reset, or finds no request, answers a next state, the configuration
there is the one before. -/
def Obligations.ConfigurationNeverChanges : Prop :=
  ∀ (s t : State), step s = .next t → (∀ p rest, s.port ≠ .construct p :: rest) → t.cfg = s.cfg

/-- Cites R208, R194, R64, R215, 92_eei_decisions.md D30. If a step answers a next state, its log is the log before with
at most max(1, NUM_CHANNELS) events appended (NUM_CHANNELS counted as at most 5), and at most one where the request is
an access at an offset that decodes to Bad; and its sub-accesses are those before with new ones appended. That the log
stays across a reset is decision D30 of spec/92 (log 30). That the log and the record of sub-accesses stay across a
construction is the model's own choice and no rule of the spec (log 16, unsafe), and so is that there is such a record,
which a reset leaves too (log 19, log 30). -/
def Obligations.LogAndTraceOnlyGrow : Prop :=
  ∀ (s t : State), step s = .next t →
    (∃ ds, t.log = s.log ++ ds ∧ ds.length ≤ max 1 (min s.cfg.numChannels 5) ∧
      ∀ a rest, s.port = .access a :: rest → locate s.cfg (accessOffset a) = .bad → ds.length ≤ 1) ∧
    ∃ ops, t.bus = s.bus ++ ops
end

