-- ==== Sys2Proof/Laws/Memory.lean ====
section
/-! SUPPORT. The laws of the downstream's RAM: a read after a write, and the canonical form that every operation keeps. -/

namespace Sys2Proof.Machine

/-! ### One byte -/

theorem Memory.read_put (a : Nat) (b : Byte) (m : Memory) (x : Nat) :
    (Memory.put a b m).read x = if a = x then (if b = Memory.unlisted then m.read x else b) else m.read x := by
  by_cases hb : b = Memory.unlisted <;> by_cases ha : a = x <;> simp [Memory.put, Memory.read, hb, ha]

/-- Nothing at or below `a` is listed in a memory that lies above `a`. -/
theorem Memory.read_of_above {a : Nat} : ∀ {m : Memory}, m.wf = true → Memory.above a m = true → ∀ {x}, x ≤ a →
    m.read x = Memory.unlisted
  | [], _, _, _, _ => rfl
  | (k, b) :: m, hwf, hab, x, hx => by
    simp only [Memory.wf, Bool.and_eq_true, decide_eq_true_eq] at hwf
    have hk : a < k := by simpa [Memory.above] using hab
    simp only [Memory.read, if_neg (show k ≠ x by omega)]
    exact Memory.read_of_above hwf.2 hwf.1.2 (by omega)

/-- A read after a write to the same address gives the byte written. -/
theorem Memory.read_write_self : ∀ {m : Memory}, m.wf = true → ∀ (a : Nat) (b : Byte), (m.write a b).read a = b
  | [], _, a, b => by
    simp only [Memory.write, Memory.read_put, Memory.read, if_true]
    split <;> simp_all
  | (k, x) :: m, hwf, a, b => by
    have hwf' := hwf
    simp only [Memory.wf, Bool.and_eq_true, decide_eq_true_eq] at hwf'
    obtain ⟨⟨⟨_, _⟩, hab⟩, hm⟩ := hwf'
    simp only [Memory.write]
    split
    · next hlt =>
      have : Memory.read ((k, x) :: m) a = Memory.unlisted :=
        Memory.read_of_above hwf (a := a) (by simp [Memory.above, hlt]) (Nat.le_refl a)
      rw [Memory.read_put]
      split <;> simp_all
    · split
      · next heq =>
        subst heq
        have : Memory.read m a = Memory.unlisted := Memory.read_of_above hm hab (Nat.le_refl a)
        rw [Memory.read_put]
        split <;> simp_all
      · next hne =>
        simp only [Memory.read, if_neg (Ne.symm hne)]
        exact Memory.read_write_self hm a b

/-- A write leaves every other address alone. -/
theorem Memory.read_write_ne : ∀ (m : Memory) {a x : Nat} (b : Byte), x ≠ a → (m.write a b).read x = m.read x
  | [], a, x, b, h => by simp [Memory.write, Memory.read_put, h.symm]
  | (k, y) :: m, a, x, b, h => by
    simp only [Memory.write]
    split
    · simp [Memory.read_put, h.symm]
    · split
      · next heq => subst heq; simp [Memory.read_put, Memory.read, h.symm]
      · simp only [Memory.read]; split
        · rfl
        · exact Memory.read_write_ne m b h

/-! ### The canonical form -/

theorem Memory.wf_put {a : Nat} {b : Byte} {m : Memory} (ha : a < 2 ^ 32) (hm : m.wf = true)
    (hab : Memory.above a m = true) : (Memory.put a b m).wf = true := by
  unfold Memory.put
  split
  · exact hm
  · next hb => simpa [Memory.wf, hb, hab, hm] using ha

theorem Memory.above_put {a k : Nat} {b : Byte} {m : Memory} (hk : k < a) (hm : Memory.above k m = true) :
    Memory.above k (Memory.put a b m) = true := by
  unfold Memory.put
  split
  · exact hm
  · simp [Memory.above, hk]

theorem Memory.above_write {k : Nat} : ∀ {m : Memory}, m.wf = true → Memory.above k m = true → ∀ {a : Nat} {b : Byte}, k < a →
    Memory.above k (m.write a b) = true
  | [], _, _, a, b, hk => Memory.above_put hk rfl
  | (j, x) :: m, hwf, hab, a, b, hk => by
    have hj : k < j := by simpa [Memory.above] using hab
    simp only [Memory.write]
    split
    · exact Memory.above_put hk hab
    · split
      · simp only [Memory.wf, Bool.and_eq_true, decide_eq_true_eq] at hwf
        refine Memory.above_put hk ?_
        match m, hwf with
        | [], _ => rfl
        | (i, _) :: _, hwf =>
          have : j < i := by simpa [Memory.above] using hwf.1.2
          simp [Memory.above]; omega
      · simp [Memory.above, hj]

/-- A write keeps the canonical form. -/
theorem Memory.wf_write : ∀ {m : Memory}, m.wf = true → ∀ {a : Nat}, a < 2 ^ 32 → ∀ (b : Byte), (m.write a b).wf = true
  | [], _, a, ha, b => Memory.wf_put ha rfl rfl
  | (k, x) :: m, hwf, a, ha, b => by
    have hwf' := hwf
    simp only [Memory.wf, Bool.and_eq_true, decide_eq_true_eq] at hwf'
    obtain ⟨⟨⟨hk, hx⟩, hab⟩, hm⟩ := hwf'
    simp only [Memory.write]
    split
    · next hlt => exact Memory.wf_put ha hwf (by simp [Memory.above, hlt])
    · split
      · next heq => subst heq; exact Memory.wf_put ha hm hab
      · next h1 h2 =>
        have hka : k < a := by omega
        simpa [Memory.wf, hx, Memory.wf_write hm ha b, Memory.above_write hm hab hka] using hk

/-! ### Runs of bytes -/

theorem Memory.wf_writeBytes : ∀ (bs : List Byte) {m : Memory} (a : Word), m.wf = true → (m.writeBytes a bs).wf = true
  | [], _, _, h => h
  | b :: bs, _, a, h => Memory.wf_writeBytes bs _ (Memory.wf_write h a.isLt b)

theorem byteAddr_zero (a : Word) : byteAddr a 0 = a := by simp [byteAddr]

theorem byteAddr_succ (a : Word) (j : Nat) : byteAddr (byteAddr a 1) j = byteAddr a (j + 1) := by
  simp only [byteAddr, BitVec.add_assoc]
  congr 1
  rw [← BitVec.ofNat_add]
  congr 1; omega

/-- A run of bytes leaves every address outside it alone. -/
theorem Memory.read_writeBytes_out : ∀ (bs : List Byte) (m : Memory) (a : Word) (x : Nat),
    (∀ j < bs.length, x ≠ (byteAddr a j).toNat) → (m.writeBytes a bs).read x = m.read x
  | [], _, _, _, _ => rfl
  | b :: bs, m, a, x, h => by
    have h0 : x ≠ a.toNat := by simpa [byteAddr_zero] using h 0 (by simp)
    rw [Memory.writeBytes, Memory.read_writeBytes_out bs, Memory.read_write_ne m b h0]
    intro j hj
    rw [byteAddr_succ]
    exact h (j + 1) (by simp; omega)

theorem byteAddr_inj {a : Word} {i j : Nat} (hi : i < 2 ^ 32) (hj : j < 2 ^ 32)
    (h : (byteAddr a i).toNat = (byteAddr a j).toNat) : i = j := by
  simp only [byteAddr, BitVec.toNat_add, BitVec.toNat_ofNat] at h
  have := a.isLt
  omega

/-- A run of bytes puts byte `j` at `a + j`. -/
theorem Memory.read_writeBytes_in : ∀ (bs : List Byte) {m : Memory} (a : Word), m.wf = true → bs.length < 2 ^ 32 →
    ∀ j (hj : j < bs.length), (m.writeBytes a bs).read (byteAddr a j).toNat = bs[j]
  | b :: bs, m, a, hwf, hlen, 0, _ => by
    simp only [List.length_cons] at hlen
    rw [Memory.writeBytes, byteAddr_zero, Memory.read_writeBytes_out, Memory.read_write_self hwf]
    · rfl
    · intro j hj e
      rw [byteAddr_succ] at e
      nth_rewrite 1 [← byteAddr_zero a] at e
      have := byteAddr_inj (by omega) (by omega) e
      omega
  | b :: bs, m, a, hwf, hlen, j + 1, hj => by
    simp only [List.length_cons] at hlen hj
    have := Memory.read_writeBytes_in bs (byteAddr a 1) (Memory.wf_write hwf a.isLt b) (by omega) j (by omega)
    rw [byteAddr_succ] at this
    exact this

@[simp] theorem Memory.length_readBytes (m : Memory) (a : Word) (n : Nat) : (m.readBytes a n).length = n := by
  simp [Memory.readBytes]

theorem Memory.getElem_readBytes (m : Memory) (a : Word) (n j : Nat) (h : j < (m.readBytes a n).length) :
    (m.readBytes a n)[j] = m.read (byteAddr a j).toNat := by
  simp [Memory.readBytes]

/-! ### What a failing write leaves -/

theorem Memory.wf_afterFailedWrite (d : Downstream) (bus : List BusOp) (a : Word) (bytes : List Byte) :
    ∀ (bs : List Byte) (j : Nat) (m : Memory), m.wf = true → (Memory.afterFailedWrite d bus a bytes j bs m).wf = true
  | [], _, _, h => h
  | b :: bs, j, m, h => by
    rw [Memory.afterFailedWrite]
    refine Memory.wf_afterFailedWrite d bus a bytes bs (j + 1) _ ?_
    split
    · exact Memory.wf_write h (byteAddr a j).isLt b
    · exact h

theorem Memory.read_afterFailedWrite_out (d : Downstream) (bus : List BusOp) (a : Word) (bytes : List Byte) (x : Nat) :
    ∀ (bs : List Byte) (j : Nat) (m : Memory), (∀ i < bs.length, x ≠ (byteAddr a (j + i)).toNat) →
      (Memory.afterFailedWrite d bus a bytes j bs m).read x = m.read x
  | [], _, _, _ => rfl
  | b :: bs, j, m, h => by
    rw [Memory.afterFailedWrite, Memory.read_afterFailedWrite_out d bus a bytes x bs]
    · split
      · exact Memory.read_write_ne m b (by simpa using h 0 (by simp))
      · rfl
    · intro i hi
      have := h (i + 1) (by simp; omega)
      rwa [show j + 1 + i = j + (i + 1) by omega]

theorem wf_memoryAfterFault {s : State} (a : Word) (bytes : List Byte) (h : s.mem.wf = true) :
    (memoryAfterFault a bytes s).wf = true := by
  unfold memoryAfterFault
  split
  · exact h
  · split
    · exact h
    · exact Memory.wf_afterFailedWrite _ _ _ _ _ _ _ h

/-- Whatever a failing write did, it did at its own bytes only (R61). -/
theorem read_memoryAfterFault_out {s : State} {a : Word} {bytes : List Byte} {x : Nat}
    (h : ∀ j < bytes.length, x ≠ (byteAddr a j).toNat) : (memoryAfterFault a bytes s).read x = s.mem.read x := by
  unfold memoryAfterFault
  split
  · rfl
  · split
    · rfl
    · exact Memory.read_afterFailedWrite_out _ _ _ _ _ _ _ _ (by simpa using h)

end Sys2Proof.Machine
end

