-- ==== Sys2Proof/Laws/State.lean ====
section
/-! SUPPORT. One lemma for each field and update of State and its banks, so that no later proof unfolds an update. -/

namespace Sys2Proof.Machine

/-! ### Fields of State under the updates that touch one field -/

@[simp] theorem respond_cfg (s : State) (r : Option Word) : (s.respond r).cfg = s.cfg := rfl
@[simp] theorem respond_irq (s : State) (r : Option Word) : (s.respond r).irq = s.irq := rfl
@[simp] theorem respond_log (s : State) (r : Option Word) : (s.respond r).log = s.log := rfl
@[simp] theorem respond_mem (s : State) (r : Option Word) : (s.respond r).mem = s.mem := rfl
@[simp] theorem respond_port (s : State) (r : Option Word) : (s.respond r).port = s.port := rfl
@[simp] theorem respond_reply (s : State) (r : Option Word) : (s.respond r).reply = r := rfl
@[simp] theorem respond_bus (s : State) (r : Option Word) : (s.respond r).bus = s.bus := rfl
@[simp] theorem respond_draws (s : State) (r : Option Word) : (s.respond r).draws = s.draws := rfl
@[simp] theorem respond_cores (s : State) (r : Option Word) : (s.respond r).cores = s.cores := rfl
@[simp] theorem logDiag_cfg (s : State) (d : Diag) : (s.logDiag d).cfg = s.cfg := rfl
@[simp] theorem logDiag_irq (s : State) (d : Diag) : (s.logDiag d).irq = s.irq := rfl
@[simp] theorem logDiag_log (s : State) (d : Diag) : (s.logDiag d).log = s.log ++ [d] := rfl
@[simp] theorem logDiag_mem (s : State) (d : Diag) : (s.logDiag d).mem = s.mem := rfl
@[simp] theorem logDiag_port (s : State) (d : Diag) : (s.logDiag d).port = s.port := rfl
@[simp] theorem logDiag_reply (s : State) (d : Diag) : (s.logDiag d).reply = s.reply := rfl
@[simp] theorem logDiag_bus (s : State) (d : Diag) : (s.logDiag d).bus = s.bus := rfl
@[simp] theorem logDiag_draws (s : State) (d : Diag) : (s.logDiag d).draws = s.draws := rfl
@[simp] theorem logDiag_cores (s : State) (d : Diag) : (s.logDiag d).cores = s.cores := rfl
@[simp] theorem issue_cfg (s : State) (op : BusOp) : (s.issue op).cfg = s.cfg := rfl
@[simp] theorem issue_irq (s : State) (op : BusOp) : (s.issue op).irq = s.irq := rfl
@[simp] theorem issue_log (s : State) (op : BusOp) : (s.issue op).log = s.log := rfl
@[simp] theorem issue_mem (s : State) (op : BusOp) : (s.issue op).mem = s.mem := rfl
@[simp] theorem issue_port (s : State) (op : BusOp) : (s.issue op).port = s.port := rfl
@[simp] theorem issue_reply (s : State) (op : BusOp) : (s.issue op).reply = s.reply := rfl
@[simp] theorem issue_bus (s : State) (op : BusOp) : (s.issue op).bus = s.bus ++ [op] := rfl
@[simp] theorem issue_draws (s : State) (op : BusOp) : (s.issue op).draws = s.draws := rfl
@[simp] theorem issue_cores (s : State) (op : BusOp) : (s.issue op).cores = s.cores := rfl
@[simp] theorem setMem_cfg (s : State) (x : Memory) : (s.setMem x).cfg = s.cfg := rfl
@[simp] theorem setMem_irq (s : State) (x : Memory) : (s.setMem x).irq = s.irq := rfl
@[simp] theorem setMem_log (s : State) (x : Memory) : (s.setMem x).log = s.log := rfl
@[simp] theorem setMem_mem (s : State) (x : Memory) : (s.setMem x).mem = x := rfl
@[simp] theorem setMem_port (s : State) (x : Memory) : (s.setMem x).port = s.port := rfl
@[simp] theorem setMem_reply (s : State) (x : Memory) : (s.setMem x).reply = s.reply := rfl
@[simp] theorem setMem_bus (s : State) (x : Memory) : (s.setMem x).bus = s.bus := rfl
@[simp] theorem setMem_draws (s : State) (x : Memory) : (s.setMem x).draws = s.draws := rfl
@[simp] theorem setMem_cores (s : State) (x : Memory) : (s.setMem x).cores = s.cores := rfl
@[simp] theorem setMem_core (s : State) (x : Memory) (c : CoreId) : (s.setMem x).core c = s.core c := rfl
@[simp] theorem setMem_chan (s : State) (x : Memory) (c : CoreId) (h : ChanId) : (s.setMem x).chan c h = s.chan c h := rfl
@[simp] theorem setDraws_cfg (s : State) (x : Nat) : (s.setDraws x).cfg = s.cfg := rfl
@[simp] theorem setDraws_irq (s : State) (x : Nat) : (s.setDraws x).irq = s.irq := rfl
@[simp] theorem setDraws_log (s : State) (x : Nat) : (s.setDraws x).log = s.log := rfl
@[simp] theorem setDraws_mem (s : State) (x : Nat) : (s.setDraws x).mem = s.mem := rfl
@[simp] theorem setDraws_port (s : State) (x : Nat) : (s.setDraws x).port = s.port := rfl
@[simp] theorem setDraws_reply (s : State) (x : Nat) : (s.setDraws x).reply = s.reply := rfl
@[simp] theorem setDraws_bus (s : State) (x : Nat) : (s.setDraws x).bus = s.bus := rfl
@[simp] theorem setDraws_draws (s : State) (x : Nat) : (s.setDraws x).draws = x := rfl
@[simp] theorem setDraws_cores (s : State) (x : Nat) : (s.setDraws x).cores = s.cores := rfl
@[simp] theorem setDraws_core (s : State) (x : Nat) (c : CoreId) : (s.setDraws x).core c = s.core c := rfl
@[simp] theorem setDraws_chan (s : State) (x : Nat) (c : CoreId) (h : ChanId) : (s.setDraws x).chan c h = s.chan c h := rfl
@[simp] theorem setPort_cfg (s : State) (x : List Request) : (s.setPort x).cfg = s.cfg := rfl
@[simp] theorem setPort_irq (s : State) (x : List Request) : (s.setPort x).irq = s.irq := rfl
@[simp] theorem setPort_log (s : State) (x : List Request) : (s.setPort x).log = s.log := rfl
@[simp] theorem setPort_mem (s : State) (x : List Request) : (s.setPort x).mem = s.mem := rfl
@[simp] theorem setPort_port (s : State) (x : List Request) : (s.setPort x).port = x := rfl
@[simp] theorem setPort_reply (s : State) (x : List Request) : (s.setPort x).reply = s.reply := rfl
@[simp] theorem setPort_bus (s : State) (x : List Request) : (s.setPort x).bus = s.bus := rfl
@[simp] theorem setPort_draws (s : State) (x : List Request) : (s.setPort x).draws = s.draws := rfl
@[simp] theorem setPort_cores (s : State) (x : List Request) : (s.setPort x).cores = s.cores := rfl
@[simp] theorem setPort_core (s : State) (x : List Request) (c : CoreId) : (s.setPort x).core c = s.core c := rfl
@[simp] theorem setPort_chan (s : State) (x : List Request) (c : CoreId) (h : ChanId) : (s.setPort x).chan c h = s.chan c h := rfl

@[simp] theorem respond_core (s : State) (r : Option Word) (c : CoreId) : (s.respond r).core c = s.core c := rfl
@[simp] theorem respond_chan (s : State) (r : Option Word) (c : CoreId) (h : ChanId) : (s.respond r).chan c h = s.chan c h := rfl
@[simp] theorem logDiag_core (s : State) (d : Diag) (c : CoreId) : (s.logDiag d).core c = s.core c := rfl
@[simp] theorem logDiag_chan (s : State) (d : Diag) (c : CoreId) (h : ChanId) : (s.logDiag d).chan c h = s.chan c h := rfl
@[simp] theorem issue_core (s : State) (op : BusOp) (c : CoreId) : (s.issue op).core c = s.core c := rfl
@[simp] theorem issue_chan (s : State) (op : BusOp) (c : CoreId) (h : ChanId) : (s.issue op).chan c h = s.chan c h := rfl

/-! ### The banks -/

@[simp] theorem setCore_cfg (s : State) (c : CoreId) (k : CoreBank) : (s.setCore c k).cfg = s.cfg := rfl
@[simp] theorem setCore_irq (s : State) (c : CoreId) (k : CoreBank) : (s.setCore c k).irq = s.irq := rfl
@[simp] theorem setCore_log (s : State) (c : CoreId) (k : CoreBank) : (s.setCore c k).log = s.log := rfl
@[simp] theorem setCore_mem (s : State) (c : CoreId) (k : CoreBank) : (s.setCore c k).mem = s.mem := rfl
@[simp] theorem setCore_port (s : State) (c : CoreId) (k : CoreBank) : (s.setCore c k).port = s.port := rfl
@[simp] theorem setCore_reply (s : State) (c : CoreId) (k : CoreBank) : (s.setCore c k).reply = s.reply := rfl
@[simp] theorem setCore_bus (s : State) (c : CoreId) (k : CoreBank) : (s.setCore c k).bus = s.bus := rfl
@[simp] theorem setCore_draws (s : State) (c : CoreId) (k : CoreBank) : (s.setCore c k).draws = s.draws := rfl
@[simp] theorem setChan_cfg (s : State) (c : CoreId) (h : ChanId) (ch : Channel) : (s.setChan c h ch).cfg = s.cfg := rfl
@[simp] theorem setChan_irq (s : State) (c : CoreId) (h : ChanId) (ch : Channel) : (s.setChan c h ch).irq = s.irq := rfl
@[simp] theorem setChan_log (s : State) (c : CoreId) (h : ChanId) (ch : Channel) : (s.setChan c h ch).log = s.log := rfl
@[simp] theorem setChan_mem (s : State) (c : CoreId) (h : ChanId) (ch : Channel) : (s.setChan c h ch).mem = s.mem := rfl
@[simp] theorem setChan_port (s : State) (c : CoreId) (h : ChanId) (ch : Channel) : (s.setChan c h ch).port = s.port := rfl
@[simp] theorem setChan_reply (s : State) (c : CoreId) (h : ChanId) (ch : Channel) : (s.setChan c h ch).reply = s.reply := rfl
@[simp] theorem setChan_bus (s : State) (c : CoreId) (h : ChanId) (ch : Channel) : (s.setChan c h ch).bus = s.bus := rfl
@[simp] theorem setChan_draws (s : State) (c : CoreId) (h : ChanId) (ch : Channel) : (s.setChan c h ch).draws = s.draws := rfl

@[simp] theorem core_setCore_self (s : State) (c : CoreId) (k : CoreBank) : (s.setCore c k).core c = k := by
  simp [State.core, State.setCore]

theorem core_setCore_ne (s : State) {c c' : CoreId} (k : CoreBank) (hc : c' ≠ c) :
    (s.setCore c k).core c' = s.core c' := by
  have : c.val ≠ c'.val := fun e => hc (Fin.ext e.symm)
  simp [State.core, State.setCore, Vector.getElem_set_ne _ _ this]

@[simp] theorem chan_setChan_self (s : State) (c : CoreId) (h : ChanId) (ch : Channel) :
    (s.setChan c h ch).chan c h = ch := by
  simp [State.chan, State.setChan]

theorem chan_setChan_ne (s : State) {c c' : CoreId} {h h' : ChanId} (ch : Channel) (hne : ¬(c' = c ∧ h' = h)) :
    (s.setChan c h ch).chan c' h' = s.chan c' h' := by
  by_cases hc : c' = c
  · subst hc
    have : h.val ≠ h'.val := fun e => hne ⟨rfl, Fin.ext e.symm⟩
    simp [State.chan, State.setChan, Vector.getElem_set_ne _ _ this]
  · simp [State.chan, State.setChan, core_setCore_ne s _ hc]

/-- A core update that keeps the channel array keeps every channel. -/
theorem chan_setCore (s : State) (c : CoreId) (k : CoreBank) (hk : k.channels = (s.core c).channels)
    (c' : CoreId) (h' : ChanId) : (s.setCore c k).chan c' h' = s.chan c' h' := by
  by_cases hc : c' = c
  · subst hc; simp [State.chan, hk]
  · simp [State.chan, core_setCore_ne s _ hc]

@[simp] theorem chan_setCore_setHlt (s : State) (c : CoreId) (l : FieldLayout) (c' : CoreId) (h' : ChanId) :
    (s.setCore c ((s.core c).setHlt l)).chan c' h' = s.chan c' h' :=
  chan_setCore s c ((s.core c).setHlt l) rfl c' h'

@[simp] theorem chan_setCore_setAr (s : State) (c : CoreId) (l : FieldLayout) (c' : CoreId) (h' : ChanId) :
    (s.setCore c ((s.core c).setAr l)).chan c' h' = s.chan c' h' :=
  chan_setCore s c ((s.core c).setAr l) rfl c' h'

@[simp] theorem core_setChan_dmac (s : State) (c : CoreId) (h : ChanId) (ch : Channel) (c' : CoreId) :
    ((s.setChan c h ch).core c').dmac = (s.core c').dmac := by
  by_cases hc : c' = c
  · subst hc; simp [State.setChan]
  · simp [State.setChan, core_setCore_ne s _ hc]

@[simp] theorem core_setChan_pend (s : State) (c : CoreId) (h : ChanId) (ch : Channel) (c' : CoreId) :
    ((s.setChan c h ch).core c').pend = (s.core c').pend := by
  by_cases hc : c' = c
  · subst hc; simp [State.setChan]
  · simp [State.setChan, core_setCore_ne s _ hc]

@[simp] theorem core_setChan_dcke (s : State) (c : CoreId) (h : ChanId) (ch : Channel) (c' : CoreId) :
    ((s.setChan c h ch).core c').dcke = (s.core c').dcke := by
  by_cases hc : c' = c
  · subst hc; simp [State.setChan]
  · simp [State.setChan, core_setCore_ne s _ hc]

/-- A channel update leaves the other core's bank whole. -/
theorem core_setChan_ne (s : State) {c c' : CoreId} (h : ChanId) (ch : Channel) (hc : c' ≠ c) :
    (s.setChan c h ch).core c' = s.core c' := by
  simp [State.setChan, core_setCore_ne s _ hc]

/-- A channel update that stores what is there changes nothing. -/
@[simp] theorem setChan_chan (s : State) (c : CoreId) (h : ChanId) : s.setChan c h (s.chan c h) = s := by
  have e : { s.core c with channels := (s.core c).channels.set h.val (s.chan c h) h.isLt } = s.cores[c.val] := by
    simp [State.chan, State.core]
  simp only [State.setChan, State.setCore, e, Vector.set_getElem_self]

/-! ### Status bits -/

theorem bitAt_setBit (v : Word) (i j : Fin 32) : bitAt (setBit v i) j = (bitAt v j || decide (j = i)) := by
  simp only [bitAt, setBit, BitVec.getLsbD_or, BitVec.getLsbD_twoPow, Fin.ext_iff]
  congr 1
  by_cases e : j.val = i.val
  · simp [e, i.isLt]
  · simp [e, Ne.symm e]

@[simp] theorem bitAt_setBit_self (v : Word) (i : Fin 32) : bitAt (setBit v i) i = true := by
  simp [bitAt_setBit]

theorem bitAt_setBit_mono {v : Word} {j : Fin 32} (i : Fin 32) (hv : bitAt v j = true) : bitAt (setBit v i) j = true := by
  simp [bitAt_setBit, hv]

@[simp] theorem Channel.setHlt_dsa (l : FieldLayout) (ch : Channel) : (ch.setHlt l).dsa = ch.dsa := rfl
@[simp] theorem Channel.setHlt_dta (l : FieldLayout) (ch : Channel) : (ch.setHlt l).dta = ch.dta := rfl
@[simp] theorem Channel.setHlt_dtc (l : FieldLayout) (ch : Channel) : (ch.setHlt l).dtc = ch.dtc := rfl
@[simp] theorem Channel.setHlt_drt (l : FieldLayout) (ch : Channel) : (ch.setHlt l).drt = ch.drt := rfl
@[simp] theorem Channel.setHlt_dcm (l : FieldLayout) (ch : Channel) : (ch.setHlt l).dcm = ch.dcm := rfl
@[simp] theorem Channel.setHlt_dda (l : FieldLayout) (ch : Channel) : (ch.setHlt l).dda = ch.dda := rfl
@[simp] theorem Channel.setHlt_dsd (l : FieldLayout) (ch : Channel) : (ch.setHlt l).dsd = ch.dsd := rfl
@[simp] theorem Channel.setHlt_dcs (l : FieldLayout) (ch : Channel) : (ch.setHlt l).dcs = setBit ch.dcs l.dcs.hlt := rfl
@[simp] theorem Channel.setTt_dsa (l : FieldLayout) (ch : Channel) : (ch.setTt l).dsa = ch.dsa := rfl
@[simp] theorem Channel.setTt_dta (l : FieldLayout) (ch : Channel) : (ch.setTt l).dta = ch.dta := rfl
@[simp] theorem Channel.setTt_dtc (l : FieldLayout) (ch : Channel) : (ch.setTt l).dtc = ch.dtc := rfl
@[simp] theorem Channel.setTt_drt (l : FieldLayout) (ch : Channel) : (ch.setTt l).drt = ch.drt := rfl
@[simp] theorem Channel.setTt_dcm (l : FieldLayout) (ch : Channel) : (ch.setTt l).dcm = ch.dcm := rfl
@[simp] theorem Channel.setTt_dda (l : FieldLayout) (ch : Channel) : (ch.setTt l).dda = ch.dda := rfl
@[simp] theorem Channel.setTt_dsd (l : FieldLayout) (ch : Channel) : (ch.setTt l).dsd = ch.dsd := rfl
@[simp] theorem Channel.setTt_dcs (l : FieldLayout) (ch : Channel) : (ch.setTt l).dcs = setBit ch.dcs l.dcs.tt := rfl
@[simp] theorem Channel.setAr_dsa (l : FieldLayout) (ch : Channel) : (ch.setAr l).dsa = ch.dsa := rfl
@[simp] theorem Channel.setAr_dta (l : FieldLayout) (ch : Channel) : (ch.setAr l).dta = ch.dta := rfl
@[simp] theorem Channel.setAr_dtc (l : FieldLayout) (ch : Channel) : (ch.setAr l).dtc = ch.dtc := rfl
@[simp] theorem Channel.setAr_drt (l : FieldLayout) (ch : Channel) : (ch.setAr l).drt = ch.drt := rfl
@[simp] theorem Channel.setAr_dcm (l : FieldLayout) (ch : Channel) : (ch.setAr l).dcm = ch.dcm := rfl
@[simp] theorem Channel.setAr_dda (l : FieldLayout) (ch : Channel) : (ch.setAr l).dda = ch.dda := rfl
@[simp] theorem Channel.setAr_dsd (l : FieldLayout) (ch : Channel) : (ch.setAr l).dsd = ch.dsd := rfl
@[simp] theorem Channel.setAr_dcs (l : FieldLayout) (ch : Channel) : (ch.setAr l).dcs = setBit ch.dcs l.dcs.ar := rfl
@[simp] theorem CoreBank.setHlt_pend (l : FieldLayout) (k : CoreBank) : (k.setHlt l).pend = k.pend := rfl
@[simp] theorem CoreBank.setHlt_dcke (l : FieldLayout) (k : CoreBank) : (k.setHlt l).dcke = k.dcke := rfl
@[simp] theorem CoreBank.setHlt_channels (l : FieldLayout) (k : CoreBank) : (k.setHlt l).channels = k.channels := rfl
@[simp] theorem CoreBank.setHlt_dmac (l : FieldLayout) (k : CoreBank) : (k.setHlt l).dmac = setBit k.dmac l.dmac.hlt := rfl
@[simp] theorem CoreBank.setAr_pend (l : FieldLayout) (k : CoreBank) : (k.setAr l).pend = k.pend := rfl
@[simp] theorem CoreBank.setAr_dcke (l : FieldLayout) (k : CoreBank) : (k.setAr l).dcke = k.dcke := rfl
@[simp] theorem CoreBank.setAr_channels (l : FieldLayout) (k : CoreBank) : (k.setAr l).channels = k.channels := rfl
@[simp] theorem CoreBank.setAr_dmac (l : FieldLayout) (k : CoreBank) : (k.setAr l).dmac = setBit k.dmac l.dmac.ar := rfl

/-! ### The recording of an outcome -/

@[simp] theorem haltOutcome_cfg (c : CoreId) (h : ChanId) (s : State) : (haltOutcome c h s).cfg = s.cfg := rfl
@[simp] theorem haltOutcome_irq (c : CoreId) (h : ChanId) (s : State) : (haltOutcome c h s).irq = s.irq := rfl
@[simp] theorem haltOutcome_log (c : CoreId) (h : ChanId) (s : State) : (haltOutcome c h s).log = s.log := rfl
@[simp] theorem haltOutcome_mem (c : CoreId) (h : ChanId) (s : State) : (haltOutcome c h s).mem = s.mem := rfl
@[simp] theorem haltOutcome_port (c : CoreId) (h : ChanId) (s : State) : (haltOutcome c h s).port = s.port := rfl
@[simp] theorem haltOutcome_reply (c : CoreId) (h : ChanId) (s : State) : (haltOutcome c h s).reply = s.reply := rfl
@[simp] theorem haltOutcome_bus (c : CoreId) (h : ChanId) (s : State) : (haltOutcome c h s).bus = s.bus := rfl
@[simp] theorem haltOutcome_draws (c : CoreId) (h : ChanId) (s : State) : (haltOutcome c h s).draws = s.draws := rfl
@[simp] theorem addressError_cfg (c : CoreId) (h : ChanId) (s : State) : (addressError c h s).cfg = s.cfg := rfl
@[simp] theorem addressError_irq (c : CoreId) (h : ChanId) (s : State) : (addressError c h s).irq = s.irq := rfl
@[simp] theorem addressError_log (c : CoreId) (h : ChanId) (s : State) : (addressError c h s).log = s.log := rfl
@[simp] theorem addressError_mem (c : CoreId) (h : ChanId) (s : State) : (addressError c h s).mem = s.mem := rfl
@[simp] theorem addressError_port (c : CoreId) (h : ChanId) (s : State) : (addressError c h s).port = s.port := rfl
@[simp] theorem addressError_reply (c : CoreId) (h : ChanId) (s : State) : (addressError c h s).reply = s.reply := rfl
@[simp] theorem addressError_bus (c : CoreId) (h : ChanId) (s : State) : (addressError c h s).bus = s.bus := rfl
@[simp] theorem addressError_draws (c : CoreId) (h : ChanId) (s : State) : (addressError c h s).draws = s.draws := rfl
@[simp] theorem descriptorHalt_cfg (c : CoreId) (h : ChanId) (s : State) : (descriptorHalt c h s).cfg = s.cfg := rfl
@[simp] theorem descriptorHalt_irq (c : CoreId) (h : ChanId) (s : State) : (descriptorHalt c h s).irq = s.irq := rfl
@[simp] theorem descriptorHalt_log (c : CoreId) (h : ChanId) (s : State) : (descriptorHalt c h s).log = s.log ++ [.unimplDescriptor c h] := rfl
@[simp] theorem descriptorHalt_mem (c : CoreId) (h : ChanId) (s : State) : (descriptorHalt c h s).mem = s.mem := rfl
@[simp] theorem descriptorHalt_port (c : CoreId) (h : ChanId) (s : State) : (descriptorHalt c h s).port = s.port := rfl
@[simp] theorem descriptorHalt_reply (c : CoreId) (h : ChanId) (s : State) : (descriptorHalt c h s).reply = s.reply := rfl
@[simp] theorem descriptorHalt_bus (c : CoreId) (h : ChanId) (s : State) : (descriptorHalt c h s).bus = s.bus := rfl
@[simp] theorem descriptorHalt_draws (c : CoreId) (h : ChanId) (s : State) : (descriptorHalt c h s).draws = s.draws := rfl
@[simp] theorem completeTransfer_cfg (c : CoreId) (h : ChanId) (s : State) : (completeTransfer c h s).cfg = s.cfg := rfl
@[simp] theorem completeTransfer_irq (c : CoreId) (h : ChanId) (s : State) : (completeTransfer c h s).irq = s.irq := rfl
@[simp] theorem completeTransfer_log (c : CoreId) (h : ChanId) (s : State) : (completeTransfer c h s).log = s.log := rfl
@[simp] theorem completeTransfer_mem (c : CoreId) (h : ChanId) (s : State) : (completeTransfer c h s).mem = s.mem := rfl
@[simp] theorem completeTransfer_port (c : CoreId) (h : ChanId) (s : State) : (completeTransfer c h s).port = s.port := rfl
@[simp] theorem completeTransfer_reply (c : CoreId) (h : ChanId) (s : State) : (completeTransfer c h s).reply = s.reply := rfl
@[simp] theorem completeTransfer_bus (c : CoreId) (h : ChanId) (s : State) : (completeTransfer c h s).bus = s.bus := rfl
@[simp] theorem completeTransfer_draws (c : CoreId) (h : ChanId) (s : State) : (completeTransfer c h s).draws = s.draws := rfl

@[simp] theorem haltOutcome_chan_self (c : CoreId) (h : ChanId) (s : State) :
    (haltOutcome c h s).chan c h = (s.chan c h).setHlt s.cfg.layout := by
  simp only [haltOutcome, chan_setChan_self, chan_setCore_setHlt, setCore_cfg]

theorem haltOutcome_chan_ne {c c' : CoreId} {h h' : ChanId} (s : State) (hne : ¬(c' = c ∧ h' = h)) :
    (haltOutcome c h s).chan c' h' = s.chan c' h' := by
  simp only [haltOutcome, chan_setChan_ne _ _ hne, chan_setCore_setHlt]

@[simp] theorem haltOutcome_dmac_self (c : CoreId) (h : ChanId) (s : State) :
    ((haltOutcome c h s).core c).dmac = setBit (s.core c).dmac s.cfg.layout.dmac.hlt := by
  simp [haltOutcome]

theorem haltOutcome_core_ne {c c' : CoreId} (h : ChanId) (s : State) (hc : c' ≠ c) :
    (haltOutcome c h s).core c' = s.core c' := by
  simp [haltOutcome, core_setChan_ne _ _ _ hc, core_setCore_ne _ _ hc]

@[simp] theorem addressError_chan_self (c : CoreId) (h : ChanId) (s : State) :
    (addressError c h s).chan c h = (s.chan c h).setAr s.cfg.layout := by
  simp only [addressError, chan_setCore_setAr, chan_setChan_self]

theorem addressError_chan_ne {c c' : CoreId} {h h' : ChanId} (s : State) (hne : ¬(c' = c ∧ h' = h)) :
    (addressError c h s).chan c' h' = s.chan c' h' := by
  simp only [addressError, chan_setCore_setAr, chan_setChan_ne _ _ hne]

@[simp] theorem addressError_dmac_self (c : CoreId) (h : ChanId) (s : State) :
    ((addressError c h s).core c).dmac = setBit (s.core c).dmac s.cfg.layout.dmac.ar := by
  simp [addressError]

theorem addressError_core_ne {c c' : CoreId} (h : ChanId) (s : State) (hc : c' ≠ c) :
    (addressError c h s).core c' = s.core c' := by
  simp [addressError, core_setChan_ne _ _ _ hc, core_setCore_ne _ _ hc]

@[simp] theorem descriptorHalt_chan (c : CoreId) (h : ChanId) (s : State) (c' : CoreId) (h' : ChanId) :
    (descriptorHalt c h s).chan c' h' = s.chan c' h' := by
  simp only [descriptorHalt, chan_setCore_setHlt, logDiag_chan]

@[simp] theorem descriptorHalt_core_self (c : CoreId) (h : ChanId) (s : State) :
    (descriptorHalt c h s).core c = (s.core c).setHlt s.cfg.layout := by
  simp [descriptorHalt]

theorem descriptorHalt_core_ne {c c' : CoreId} (h : ChanId) (s : State) (hc : c' ≠ c) :
    (descriptorHalt c h s).core c' = s.core c' := by
  simp [descriptorHalt, core_setCore_ne _ _ hc]

@[simp] theorem completeTransfer_chan_self (c : CoreId) (h : ChanId) (s : State) :
    (completeTransfer c h s).chan c h = (s.chan c h).setTt s.cfg.layout := by
  simp [completeTransfer]

theorem completeTransfer_chan_ne {c c' : CoreId} {h h' : ChanId} (s : State) (hne : ¬(c' = c ∧ h' = h)) :
    (completeTransfer c h s).chan c' h' = s.chan c' h' := by
  simp [completeTransfer, chan_setChan_ne _ _ hne]

@[simp] theorem haltOutcome_pend (c : CoreId) (h : ChanId) (s : State) (c' : CoreId) :
    ((haltOutcome c h s).core c').pend = (s.core c').pend := by
  by_cases hc : c' = c
  · subst hc; simp [haltOutcome]
  · rw [haltOutcome_core_ne h s hc]

@[simp] theorem haltOutcome_dcke (c : CoreId) (h : ChanId) (s : State) (c' : CoreId) :
    ((haltOutcome c h s).core c').dcke = (s.core c').dcke := by
  by_cases hc : c' = c
  · subst hc; simp [haltOutcome]
  · rw [haltOutcome_core_ne h s hc]

@[simp] theorem addressError_pend (c : CoreId) (h : ChanId) (s : State) (c' : CoreId) :
    ((addressError c h s).core c').pend = (s.core c').pend := by
  by_cases hc : c' = c
  · subst hc; simp [addressError]
  · rw [addressError_core_ne h s hc]

@[simp] theorem addressError_dcke (c : CoreId) (h : ChanId) (s : State) (c' : CoreId) :
    ((addressError c h s).core c').dcke = (s.core c').dcke := by
  by_cases hc : c' = c
  · subst hc; simp [addressError]
  · rw [addressError_core_ne h s hc]

@[simp] theorem completeTransfer_dmac (c : CoreId) (h : ChanId) (s : State) (c' : CoreId) :
    ((completeTransfer c h s).core c').dmac = (s.core c').dmac := by
  simp [completeTransfer]

@[simp] theorem completeTransfer_pend (c : CoreId) (h : ChanId) (s : State) (c' : CoreId) :
    ((completeTransfer c h s).core c').pend = (s.core c').pend := by
  simp [completeTransfer]

@[simp] theorem completeTransfer_dcke (c : CoreId) (h : ChanId) (s : State) (c' : CoreId) :
    ((completeTransfer c h s).core c').dcke = (s.core c').dcke := by
  simp [completeTransfer]

theorem completeTransfer_core_ne {c c' : CoreId} (h : ChanId) (s : State) (hc : c' ≠ c) :
    (completeTransfer c h s).core c' = s.core c' := by
  simp [completeTransfer, core_setChan_ne _ _ _ hc]

/-! ### The address-stride controller and the count -/

@[simp] theorem advanceSrc_cfg (c : CoreId) (h : ChanId) (n : Nat) (s : State) : (advanceSrc c h n s).cfg = s.cfg := rfl
@[simp] theorem advanceSrc_irq (c : CoreId) (h : ChanId) (n : Nat) (s : State) : (advanceSrc c h n s).irq = s.irq := rfl
@[simp] theorem advanceSrc_log (c : CoreId) (h : ChanId) (n : Nat) (s : State) : (advanceSrc c h n s).log = s.log := rfl
@[simp] theorem advanceSrc_mem (c : CoreId) (h : ChanId) (n : Nat) (s : State) : (advanceSrc c h n s).mem = s.mem := rfl
@[simp] theorem advanceSrc_port (c : CoreId) (h : ChanId) (n : Nat) (s : State) : (advanceSrc c h n s).port = s.port := rfl
@[simp] theorem advanceSrc_reply (c : CoreId) (h : ChanId) (n : Nat) (s : State) : (advanceSrc c h n s).reply = s.reply := rfl
@[simp] theorem advanceSrc_bus (c : CoreId) (h : ChanId) (n : Nat) (s : State) : (advanceSrc c h n s).bus = s.bus := rfl
@[simp] theorem advanceSrc_draws (c : CoreId) (h : ChanId) (n : Nat) (s : State) : (advanceSrc c h n s).draws = s.draws := rfl
@[simp] theorem advanceSrc_dmac (c : CoreId) (h : ChanId) (n : Nat) (s : State) (c' : CoreId) :
    ((advanceSrc c h n s).core c').dmac = (s.core c').dmac := by
  simp [advanceSrc]
@[simp] theorem advanceSrc_pend (c : CoreId) (h : ChanId) (n : Nat) (s : State) (c' : CoreId) :
    ((advanceSrc c h n s).core c').pend = (s.core c').pend := by
  simp [advanceSrc]
@[simp] theorem advanceSrc_dcke (c : CoreId) (h : ChanId) (n : Nat) (s : State) (c' : CoreId) :
    ((advanceSrc c h n s).core c').dcke = (s.core c').dcke := by
  simp [advanceSrc]
theorem advanceSrc_chan_ne {c c' : CoreId} {h h' : ChanId} (n : Nat) (s : State) (hne : ¬(c' = c ∧ h' = h)) :
    (advanceSrc c h n s).chan c' h' = s.chan c' h' := by
  simp [advanceSrc, chan_setChan_ne _ _ hne]
theorem advanceSrc_core_ne {c c' : CoreId} (h : ChanId) (n : Nat) (s : State) (hc : c' ≠ c) :
    (advanceSrc c h n s).core c' = s.core c' := by
  simp [advanceSrc, core_setChan_ne _ _ _ hc]
@[simp] theorem advanceDst_cfg (c : CoreId) (h : ChanId) (n : Nat) (s : State) : (advanceDst c h n s).cfg = s.cfg := rfl
@[simp] theorem advanceDst_irq (c : CoreId) (h : ChanId) (n : Nat) (s : State) : (advanceDst c h n s).irq = s.irq := rfl
@[simp] theorem advanceDst_log (c : CoreId) (h : ChanId) (n : Nat) (s : State) : (advanceDst c h n s).log = s.log := rfl
@[simp] theorem advanceDst_mem (c : CoreId) (h : ChanId) (n : Nat) (s : State) : (advanceDst c h n s).mem = s.mem := rfl
@[simp] theorem advanceDst_port (c : CoreId) (h : ChanId) (n : Nat) (s : State) : (advanceDst c h n s).port = s.port := rfl
@[simp] theorem advanceDst_reply (c : CoreId) (h : ChanId) (n : Nat) (s : State) : (advanceDst c h n s).reply = s.reply := rfl
@[simp] theorem advanceDst_bus (c : CoreId) (h : ChanId) (n : Nat) (s : State) : (advanceDst c h n s).bus = s.bus := rfl
@[simp] theorem advanceDst_draws (c : CoreId) (h : ChanId) (n : Nat) (s : State) : (advanceDst c h n s).draws = s.draws := rfl
@[simp] theorem advanceDst_dmac (c : CoreId) (h : ChanId) (n : Nat) (s : State) (c' : CoreId) :
    ((advanceDst c h n s).core c').dmac = (s.core c').dmac := by
  simp [advanceDst]
@[simp] theorem advanceDst_pend (c : CoreId) (h : ChanId) (n : Nat) (s : State) (c' : CoreId) :
    ((advanceDst c h n s).core c').pend = (s.core c').pend := by
  simp [advanceDst]
@[simp] theorem advanceDst_dcke (c : CoreId) (h : ChanId) (n : Nat) (s : State) (c' : CoreId) :
    ((advanceDst c h n s).core c').dcke = (s.core c').dcke := by
  simp [advanceDst]
theorem advanceDst_chan_ne {c c' : CoreId} {h h' : ChanId} (n : Nat) (s : State) (hne : ¬(c' = c ∧ h' = h)) :
    (advanceDst c h n s).chan c' h' = s.chan c' h' := by
  simp [advanceDst, chan_setChan_ne _ _ hne]
theorem advanceDst_core_ne {c c' : CoreId} (h : ChanId) (n : Nat) (s : State) (hc : c' ≠ c) :
    (advanceDst c h n s).core c' = s.core c' := by
  simp [advanceDst, core_setChan_ne _ _ _ hc]
@[simp] theorem decrementCount_cfg (c : CoreId) (h : ChanId) (s : State) : (decrementCount c h s).cfg = s.cfg := rfl
@[simp] theorem decrementCount_irq (c : CoreId) (h : ChanId) (s : State) : (decrementCount c h s).irq = s.irq := rfl
@[simp] theorem decrementCount_log (c : CoreId) (h : ChanId) (s : State) : (decrementCount c h s).log = s.log := rfl
@[simp] theorem decrementCount_mem (c : CoreId) (h : ChanId) (s : State) : (decrementCount c h s).mem = s.mem := rfl
@[simp] theorem decrementCount_port (c : CoreId) (h : ChanId) (s : State) : (decrementCount c h s).port = s.port := rfl
@[simp] theorem decrementCount_reply (c : CoreId) (h : ChanId) (s : State) : (decrementCount c h s).reply = s.reply := rfl
@[simp] theorem decrementCount_bus (c : CoreId) (h : ChanId) (s : State) : (decrementCount c h s).bus = s.bus := rfl
@[simp] theorem decrementCount_draws (c : CoreId) (h : ChanId) (s : State) : (decrementCount c h s).draws = s.draws := rfl
@[simp] theorem decrementCount_dmac (c : CoreId) (h : ChanId) (s : State) (c' : CoreId) :
    ((decrementCount c h s).core c').dmac = (s.core c').dmac := by
  simp [decrementCount]
@[simp] theorem decrementCount_pend (c : CoreId) (h : ChanId) (s : State) (c' : CoreId) :
    ((decrementCount c h s).core c').pend = (s.core c').pend := by
  simp [decrementCount]
@[simp] theorem decrementCount_dcke (c : CoreId) (h : ChanId) (s : State) (c' : CoreId) :
    ((decrementCount c h s).core c').dcke = (s.core c').dcke := by
  simp [decrementCount]
theorem decrementCount_chan_ne {c c' : CoreId} {h h' : ChanId} (s : State) (hne : ¬(c' = c ∧ h' = h)) :
    (decrementCount c h s).chan c' h' = s.chan c' h' := by
  simp [decrementCount, chan_setChan_ne _ _ hne]
theorem decrementCount_core_ne {c c' : CoreId} (h : ChanId) (s : State) (hc : c' ≠ c) :
    (decrementCount c h s).core c' = s.core c' := by
  simp [decrementCount, core_setChan_ne _ _ _ hc]

@[simp] theorem advanceSrc_chan_self (c : CoreId) (h : ChanId) (n : Nat) (s : State) : (advanceSrc c h n s).chan c h =
    { s.chan c h with dsa := advanced ((s.chan c h).sai s.cfg.layout) (s.chan c h).dsa n } := by
  simp [advanceSrc]

@[simp] theorem advanceDst_chan_self (c : CoreId) (h : ChanId) (n : Nat) (s : State) : (advanceDst c h n s).chan c h =
    { s.chan c h with dta := advanced ((s.chan c h).dai s.cfg.layout) (s.chan c h).dta n } := by
  simp [advanceDst]

@[simp] theorem decrementCount_chan_self (c : CoreId) (h : ChanId) (s : State) : (decrementCount c h s).chan c h =
    { s.chan c h with dtc := (s.chan c h).dtc - 1 } := by
  simp [decrementCount]

end Sys2Proof.Machine
end

