-- ==== Sys2Proof/Laws/Engine.lean ====
section
/-! SUPPORT. What the downstream port and the transfer engine can do, said once: later proofs cite these and do not unfold the
phases. -/

namespace Sys2Proof.Machine

/-- What the chunk loop of a channel keeps from one state to a later one (42_bus_sequencer.md R170), status bits included:
those are set outside the loop. -/
structure Keeps (c : CoreId) (h : ChanId) (s t : State) : Prop where
  cfg   : t.cfg = s.cfg
  irq   : t.irq = s.irq
  log   : t.log = s.log
  port  : t.port = s.port
  reply : t.reply = s.reply
  dmac  : ∀ c', (t.core c').dmac = (s.core c').dmac
  pend  : ∀ c', (t.core c').pend = (s.core c').pend
  dcke  : ∀ c', (t.core c').dcke = (s.core c').dcke
  other : ∀ c' h', ¬(c' = c ∧ h' = h) → t.chan c' h' = s.chan c' h'
  drt   : (t.chan c h).drt = (s.chan c h).drt
  dcs   : (t.chan c h).dcs = (s.chan c h).dcs
  dcm   : (t.chan c h).dcm = (s.chan c h).dcm
  dda   : (t.chan c h).dda = (s.chan c h).dda
  dsd   : (t.chan c h).dsd = (s.chan c h).dsd
  memWf : s.mem.wf = true → t.mem.wf = true
  bus   : ∃ ops, t.bus = s.bus ++ ops ∧ ∀ a, (∀ op ∈ ops, ¬ writesTo a op) → t.mem.read a = s.mem.read a

variable {c : CoreId} {h : ChanId}

theorem Keeps.refl (s : State) : Keeps c h s s := by
  constructor <;> first | exact ⟨[], by simp, fun _ _ => rfl⟩ | (intros; first | rfl | assumption)

theorem Keeps.trans {s t u : State} (a : Keeps c h s t) (b : Keeps c h t u) : Keeps c h s u where
  cfg := b.cfg.trans a.cfg
  irq := b.irq.trans a.irq
  log := b.log.trans a.log
  port := b.port.trans a.port
  reply := b.reply.trans a.reply
  dmac := fun c' => (b.dmac c').trans (a.dmac c')
  pend := fun c' => (b.pend c').trans (a.pend c')
  dcke := fun c' => (b.dcke c').trans (a.dcke c')
  other := fun c' h' hne => (b.other c' h' hne).trans (a.other c' h' hne)
  drt := b.drt.trans a.drt
  dcs := b.dcs.trans a.dcs
  dcm := b.dcm.trans a.dcm
  dda := b.dda.trans a.dda
  dsd := b.dsd.trans a.dsd
  memWf := fun w => b.memWf (a.memWf w)
  bus := by
    obtain ⟨x, hx, mx⟩ := a.bus
    obtain ⟨y, hy, my⟩ := b.bus
    refine ⟨x ++ y, by rw [hy, hx, List.append_assoc], fun p hp => ?_⟩
    rw [my p fun op ho => hp op (List.mem_append_right x ho), mx p fun op ho => hp op (List.mem_append_left y ho)]

theorem Keeps.issue (s : State) (op : BusOp) : Keeps c h s (s.issue op) := by
  constructor <;> first | exact ⟨[op], rfl, fun _ _ => rfl⟩ | (intros; first | rfl | assumption)

/-- A write sub-access and the RAM it leaves. -/
theorem Keeps.afterWrite (s : State) (op : BusOp) (m : Memory) (hm : s.mem.wf = true → m.wf = true)
    (ho : ∀ a, ¬ writesTo a op → m.read a = s.mem.read a) : Keeps c h s ((s.issue op).setMem m) := by
  constructor <;> first
    | exact ⟨[op], rfl, fun a ha => ho a (ha op (by simp))⟩
    | exact hm
    | (intros; rfl)

theorem Keeps.withDraws (s : State) (n : Nat) : Keeps c h s (s.setDraws n) := by
  constructor <;> first | exact ⟨[], by simp, fun _ _ => rfl⟩ | (intros; first | rfl | assumption)

theorem Keeps.advanceSrc (s : State) (n : Nat) : Keeps c h s (advanceSrc c h n s) := by
  constructor <;> first
    | exact ⟨[], by simp, fun _ _ => rfl⟩
    | exact fun c' h' hne => advanceSrc_chan_ne n s hne
    | exact fun w => w
    | simp

theorem Keeps.advanceDst (s : State) (n : Nat) : Keeps c h s (advanceDst c h n s) := by
  constructor <;> first
    | exact ⟨[], by simp, fun _ _ => rfl⟩
    | exact fun c' h' hne => advanceDst_chan_ne n s hne
    | exact fun w => w
    | simp

theorem Keeps.decrementCount (s : State) : Keeps c h s (decrementCount c h s) := by
  constructor <;> first
    | exact ⟨[], by simp, fun _ _ => rfl⟩
    | exact fun c' h' hne => decrementCount_chan_ne s hne
    | exact fun w => w
    | simp

/-! ### The sub-accesses -/

/-- `MemRead` answers in one of three ways: bytes, with the sub-access recorded; `Fault`, with it recorded; a refusal. -/
theorem memRead_cases (a : Word) (n : Nat) (s : State) :
    (∃ bytes, bytes.length = n ∧ memRead a n s = .ok bytes (s.issue (.read a n (some bytes)))) ∨
    memRead a n s = .fault .read (s.issue (.read a n none)) ∨
    (route s.cfg .read a n = .own ∧ memRead a n s = .refuse (.reentrant .read a n)) := by
  unfold memRead
  cases hr : route s.cfg .read a n with
  | own => exact .inr (.inr ⟨rfl, rfl⟩)
  | ram => exact .inl ⟨_, by simp, rfl⟩
  | device =>
    by_cases hd : Config.deviceAnswers s.bus a n = true
    · simp only [hd, if_true]; exact .inl ⟨_, by simp, rfl⟩
    · simp only [hd]; exact .inr (.inl rfl)
  | unmapped => exact .inr (.inl rfl)

/-- `MemWrite` answers in one of three ways; in the first two the RAM is unchanged outside the bytes sent. -/
theorem memWrite_cases (a : Word) (bytes : List Byte) (s : State) :
    (∃ m, (m = s.mem.writeBytes a bytes ∨ m = s.mem) ∧
      memWrite a bytes s = .ok () ((s.issue (.write a bytes true)).setMem m)) ∨
    memWrite a bytes s = .fault .write ((s.issue (.write a bytes false)).setMem (memoryAfterFault a bytes s)) ∨
    (route s.cfg .write a bytes.length = .own ∧
      memWrite a bytes s = .refuse (.reentrant .write a bytes.length)) := by
  unfold memWrite
  cases hr : route s.cfg .write a bytes.length with
  | own => exact .inr (.inr ⟨rfl, rfl⟩)
  | ram => exact .inl ⟨_, .inl rfl, rfl⟩
  | device =>
    by_cases hd : Config.deviceAccepts s.bus a bytes = true
    · simp only [hd, if_true]; exact .inl ⟨_, .inr rfl, rfl⟩
    · simp only [hd]; exact .inr (.inl rfl)
  | unmapped => exact .inr (.inl rfl)

/-- Where the platform routes nothing to the block's own window, no sub-access reaches it. -/
theorem route_ne_own {cfg : Config} {dir : Dir} {a : Word} {n : Nat}
    (hw : ∀ d, cfg.downstream = some d → d.ownWindow = none) : route cfg dir a n ≠ .own := by
  unfold route
  cases hd : cfg.downstream with
  | none => simp
  | some d =>
    have : ∀ x, inOwnWindow cfg d x = false := fun x => by simp [inOwnWindow, hw d hd]
    simp only [routeOn, this]
    split
    · simp_all
    · split <;> [simp; (split <;> simp)]

/-! ### The phases -/

/-- What a piece of the engine's work can end in, all of it keeping what the engine keeps. -/
def Ends {α : Type} (c : CoreId) (h : ChanId) (s : State) (x : EngineResult α) : Prop :=
  (∃ v t, x = .ok v t ∧ Keeps c h s t) ∨ (∃ d t, x = .fault d t ∧ Keeps c h s t) ∨
  ∃ dir a n, x = .refuse (.reentrant dir a n) ∧ route s.cfg dir a n = .own

theorem Ends.of_keeps {α : Type} {s s1 : State} {x : EngineResult α} (hk : Keeps c h s s1) (hx : Ends c h s1 x) : Ends c h s x := by
  rcases hx with ⟨v, t, e, k⟩ | ⟨d, t, e, k⟩ | ⟨dir, a, n, e, hr⟩
  · exact .inl ⟨v, t, e, hk.trans k⟩
  · exact .inr (.inl ⟨d, t, e, hk.trans k⟩)
  · exact .inr (.inr ⟨dir, a, n, e, hk.cfg ▸ hr⟩)

theorem readPhase_ends (sp : Nat) : ∀ (k i : Nat) (buf : Buffer) (s : State), Ends c h s (readPhase c h sp k i buf s)
  | 0, _, _, s => .inl ⟨_, _, rfl, Keeps.refl s⟩
  | k + 1, i, buf, s => by
    rw [readPhase]
    rcases memRead_cases (s.chan c h).dsa sp s with ⟨bytes, _, e⟩ | e | ⟨hr, e⟩ <;> rw [e]
    · exact Ends.of_keeps ((Keeps.issue s _).trans (Keeps.advanceSrc _ sp)) (readPhase_ends sp k _ _ _)
    · exact .inr (.inl ⟨_, _, rfl, Keeps.issue s _⟩)
    · exact .inr (.inr ⟨_, _, _, rfl, hr⟩)

theorem writePhase_ends (dp : Nat) (buf : Buffer) : ∀ (k i : Nat) (s : State), Ends c h s (writePhase c h dp buf k i s)
  | 0, _, s => .inl ⟨_, _, rfl, Keeps.refl s⟩
  | k + 1, i, s => by
    rw [writePhase]
    rcases memWrite_cases (s.chan c h).dta (buf.slice i dp) s with ⟨m, hm, e⟩ | e | ⟨hr, e⟩ <;> rw [e]
    · refine Ends.of_keeps ((Keeps.afterWrite s _ m ?_ ?_).trans (Keeps.advanceDst _ dp)) (writePhase_ends dp buf k _ _)
      · intro w
        rcases hm with rfl | rfl
        · exact Memory.wf_writeBytes _ _ w
        · exact w
      · intro a ha
        rcases hm with rfl | rfl
        · exact Memory.read_writeBytes_out _ _ _ _ fun j hj e => ha ⟨j, hj, e⟩
        · rfl
    · exact .inr (.inl ⟨_, _, rfl, Keeps.afterWrite s _ _ (wf_memoryAfterFault _ _)
        fun a ha => read_memoryAfterFault_out fun j hj e => ha ⟨j, hj, e⟩⟩)
    · exact .inr (.inr ⟨_, _, _, rfl, hr⟩)

theorem chunk_ends (u : Setup) (s : State) : Ends c h s (chunk c h u s) := by
  unfold chunk
  have hr := readPhase_ends (c := c) (h := h) u.sp (subCount u.tsz u.sp) 0 (drawnBuffer s.draws)
    (s.setDraws (s.draws + 64))
  have k0 : Keeps c h s (s.setDraws (s.draws + 64)) := Keeps.withDraws s _
  rcases hr with ⟨buf, s1, e, k1⟩ | ⟨d, s1, e, k1⟩ | ⟨dir, a, n, e, hown⟩ <;> rw [e] <;> dsimp only
  · have hw := writePhase_ends (c := c) (h := h) u.dp buf (subCount u.tsz u.dp) 0 s1
    rcases hw with ⟨_, s2, e2, k2⟩ | ⟨d, s2, e2, k2⟩ | ⟨dir, a, n, e2, hown⟩ <;> rw [e2] <;> dsimp only
    · exact .inl ⟨_, _, rfl, (k0.trans k1).trans (k2.trans (Keeps.decrementCount s2))⟩
    · exact .inr (.inl ⟨_, _, rfl, (k0.trans k1).trans k2⟩)
    · exact .inr (.inr ⟨_, _, _, rfl, (k0.trans k1).cfg ▸ hown⟩)
  · exact .inr (.inl ⟨_, _, rfl, k0.trans k1⟩)
  · exact .inr (.inr ⟨_, _, _, rfl, hown⟩)

theorem chunkLoop_ends (u : Setup) : ∀ (n : Nat) (s : State), Ends c h s (chunkLoop c h u n s)
  | 0, s => .inl ⟨_, _, rfl, Keeps.refl s⟩
  | n + 1, s => by
    rw [chunkLoop]
    rcases chunk_ends (c := c) (h := h) u s with ⟨_, s1, e, k1⟩ | ⟨d, s1, e, k1⟩ | ⟨dir, a, m, e, hr⟩ <;> rw [e] <;> dsimp only
    · exact Ends.of_keeps k1 (chunkLoop_ends u n s1)
    · exact .inr (.inl ⟨_, _, rfl, k1⟩)
    · exact .inr (.inr ⟨_, _, _, rfl, hr⟩)

/-! ### The count (R159, R164) -/

/-- The read phase never writes `DTC`. -/
theorem readPhase_dtc (sp : Nat) : ∀ (k i : Nat) (buf : Buffer) (s : State) {buf' t},
    (readPhase c h sp k i buf s = .ok buf' t ∨ ∃ d, readPhase c h sp k i buf s = .fault d t) →
    (t.chan c h).dtc = (s.chan c h).dtc ∧ (t.chan c h).dta = (s.chan c h).dta
  | 0, _, _, s, _, t, e => by
    rcases e with e | ⟨d, e⟩ <;> simp only [readPhase, EngineResult.ok.injEq, reduceCtorEq] at e
    rw [e.2]; exact ⟨rfl, rfl⟩
  | k + 1, i, buf, s, buf', t, e => by
    rw [readPhase] at e
    rcases memRead_cases (s.chan c h).dsa sp s with ⟨bytes, _, em⟩ | em | ⟨hr, em⟩ <;> rw [em] at e <;> dsimp only at e
    · simpa using readPhase_dtc sp k _ _ _ e
    · rcases e with e | ⟨d, e⟩ <;> simp only [EngineResult.fault.injEq, reduceCtorEq] at e
      rw [← e.2]; exact ⟨rfl, rfl⟩
    · rcases e with e | ⟨d, e⟩ <;> simp at e

/-- The write phase writes neither `DTC` nor `DSA`. -/
theorem writePhase_dtc (dp : Nat) (buf : Buffer) : ∀ (k i : Nat) (s : State) {t},
    (writePhase c h dp buf k i s = .ok () t ∨ ∃ d, writePhase c h dp buf k i s = .fault d t) →
    (t.chan c h).dtc = (s.chan c h).dtc ∧ (t.chan c h).dsa = (s.chan c h).dsa
  | 0, _, s, t, e => by
    rcases e with e | ⟨d, e⟩ <;> simp only [writePhase, EngineResult.ok.injEq, reduceCtorEq] at e
    rw [e.2]; exact ⟨rfl, rfl⟩
  | k + 1, i, s, t, e => by
    rw [writePhase] at e
    rcases memWrite_cases (s.chan c h).dta (buf.slice i dp) s with ⟨m, _, em⟩ | em | ⟨hr, em⟩ <;>
      rw [em] at e <;> dsimp only at e
    · simpa using writePhase_dtc dp buf k _ _ e
    · rcases e with e | ⟨d, e⟩ <;> simp only [EngineResult.fault.injEq, reduceCtorEq] at e
      rw [← e.2]; exact ⟨rfl, rfl⟩
    · rcases e with e | ⟨d, e⟩ <;> simp at e

/-- A chunk that completes takes one off `DTC`; one that fails leaves it (R164, R166). -/
theorem chunk_dtc {u : Setup} {s t : State} :
    (chunk c h u s = .ok () t → (t.chan c h).dtc = (s.chan c h).dtc - 1) ∧
    ∀ d, chunk c h u s = .fault d t → (t.chan c h).dtc = (s.chan c h).dtc := by
  unfold chunk
  have hr := readPhase_ends (c := c) (h := h) u.sp (subCount u.tsz u.sp) 0 (drawnBuffer s.draws)
    (s.setDraws (s.draws + 64))
  rcases hr with ⟨buf, s1, e, _⟩ | ⟨d, s1, e, _⟩ | ⟨dir, a, n, e, _⟩ <;> rw [e] <;> dsimp only
  · have h1 := (readPhase_dtc (c := c) (h := h) _ _ _ _ _ (.inl e)).1
    have hw := writePhase_ends (c := c) (h := h) u.dp buf (subCount u.tsz u.dp) 0 s1
    rcases hw with ⟨_, s2, e2, _⟩ | ⟨d, s2, e2, _⟩ | ⟨dir, a, n, e2, _⟩ <;> rw [e2] <;> dsimp only
    · refine ⟨fun ht => ?_, fun d ht => nomatch ht⟩
      obtain ⟨-, rfl⟩ := EngineResult.ok.inj ht
      have h2 := (writePhase_dtc (c := c) (h := h) _ _ _ _ _ (.inl e2)).1
      simp only [decrementCount_chan_self, h2, h1, setDraws_chan]
    · refine ⟨fun ht => (nomatch ht), fun d' ht => ?_⟩
      obtain ⟨-, rfl⟩ := EngineResult.fault.inj ht
      have h2 := (writePhase_dtc (c := c) (h := h) _ _ _ _ _ (.inr ⟨_, e2⟩)).1
      simp only [h2, h1, setDraws_chan]
    · exact ⟨fun ht => (nomatch ht), fun d ht => nomatch ht⟩
  · have h1 := (readPhase_dtc (buf' := []) (c := c) (h := h) _ _ _ _ _ (.inr ⟨_, e⟩)).1
    refine ⟨fun ht => (nomatch ht), fun d' ht => ?_⟩
    obtain ⟨-, rfl⟩ := EngineResult.fault.inj ht
    simp only [h1, setDraws_chan]
  · exact ⟨fun ht => (nomatch ht), fun d ht => nomatch ht⟩

/-- The loop run `DTC` times is the loop of R159: while `DTC` is not 0, a chunk. -/
theorem chunkLoop_while (u : Setup) (s : State) :
    chunkLoop c h u (s.chan c h).dtc.toNat s =
      if (s.chan c h).dtc = 0 then .ok () s
      else match chunk c h u s with
        | .ok _ s1 => chunkLoop c h u (s1.chan c h).dtc.toNat s1
        | .fault d s1 => .fault d s1
        | .refuse r => .refuse r := by
  by_cases hz : (s.chan c h).dtc = 0
  · simp [hz, chunkLoop]
  · obtain ⟨n, hn⟩ : ∃ n, (s.chan c h).dtc.toNat = n + 1 :=
      Nat.exists_eq_succ_of_ne_zero fun e => hz (BitVec.eq_of_toNat_eq (by simpa using e))
    rw [if_neg hz, hn, chunkLoop]
    cases e : chunk c h u s with
    | ok x s1 =>
      have hd := chunk_dtc.1 e
      have hlt := (s.chan c h).dtc.isLt
      have : (s1.chan c h).dtc.toNat = n := by rw [hd, BitVec.toNat_sub]; simp; omega
      simp only [this]
    | fault d s1 => rfl
    | refuse r => rfl

end Sys2Proof.Machine
end

