-- ==== Sys2Proof/Laws/Scheduler.lean ====
section
/-! SUPPORT. What run-channel and a pass over a core can do, said once: how they end, what they keep, and that they leave
nothing runnable that was not. -/

namespace Sys2Proof.Machine

variable {c : CoreId} {h : ChanId}

/-! ### The configured channels -/

theorem mem_channelIds {cfg : Config} {h : ChanId} : h ∈ channelIds cfg ↔ h.val < cfg.numChannels := by
  unfold channelIds
  rw [List.mem_filter]
  simp only [decide_eq_true_eq, and_iff_right_iff_imp]
  intro _
  fin_cases h <;> simp

theorem length_channelIds_le (cfg : Config) : (channelIds cfg).length ≤ min cfg.numChannels 5 := by
  unfold channelIds
  rcases lt_or_ge cfg.numChannels 5 with hn | hn
  · interval_cases cfg.numChannels <;> decide
  · simp only [Nat.min_eq_right hn]
    exact List.length_filter_le _ _

/-! ### The preconditions -/

/-- A setup that passes has widths of 1, 2 or 4 bytes and a size of at most 64 (R60, R173). -/
theorem setup_bounds {cfg : Config} {ch : Channel} {u : Setup} (e : setup cfg c h ch = .ok u) :
    portWidth ch.sp = some u.sp ∧ portWidth ch.dp = some u.dp ∧ transferSize ch.tsz = some u.tsz ∧
    ch.drt = cfg.drtAuto ∧ ch.stde cfg.layout = false := by
  unfold setup at e
  split at e <;> [cases e; skip]
  split at e <;> [cases e; skip]
  rename_i hd hs
  split at e <;> [cases e; skip]
  split at e <;> [cases e; skip]
  split at e <;> [cases e; skip]
  cases e
  simp_all

theorem portWidth_cases {code : BitVec 2} {n : Nat} (e : portWidth code = some n) : n = 4 ∨ n = 1 ∨ n = 2 := by
  unfold portWidth at e
  split at e <;> simp_all

theorem transferSize_cases {code : BitVec 3} {n : Nat} (e : transferSize code = some n) :
    n = 4 ∨ n = 1 ∨ n = 2 ∨ n = 16 ∨ n = 32 ∨ n = 64 := by
  unfold transferSize at e
  split at e <;> simp_all

theorem subCount_le {tsz w : Nat} (ht : tsz ≤ 64) (hw : 1 ≤ w) : subCount tsz w ≤ 64 := by
  unfold subCount
  rw [Nat.div_le_iff_le_mul_add_pred hw]
  have := Nat.mul_le_mul_right 64 hw
  omega

theorem setup_counts {cfg : Config} {ch : Channel} {u : Setup} (e : setup cfg c h ch = .ok u) :
    subCount u.tsz u.sp ≤ 64 ∧ subCount u.tsz u.dp ≤ 64 := by
  obtain ⟨hs, hd, ht, -⟩ := setup_bounds e
  have h1 := portWidth_cases hs
  have h2 := portWidth_cases hd
  have h3 := transferSize_cases ht
  exact ⟨subCount_le (by omega) (by omega), subCount_le (by omega) (by omega)⟩

/-! ### How many sub-accesses (R173) -/

theorem readPhase_busLength (sp : Nat) : ∀ (k i : Nat) (buf : Buffer) (s : State) {buf' t},
    (readPhase c h sp k i buf s = .ok buf' t ∨ ∃ d, readPhase c h sp k i buf s = .fault d t) →
    t.bus.length ≤ s.bus.length + k
  | 0, _, _, s, _, t, e => by
    rcases e with e | ⟨d, e⟩ <;> simp only [readPhase, EngineResult.ok.injEq, reduceCtorEq] at e
    rw [e.2]; simp
  | k + 1, i, buf, s, buf', t, e => by
    rw [readPhase] at e
    rcases memRead_cases (s.chan c h).dsa sp s with ⟨bytes, _, em⟩ | em | ⟨hr, em⟩ <;> rw [em] at e <;> dsimp only at e
    · have := readPhase_busLength sp k _ _ _ e
      simp at this; omega
    · rcases e with e | ⟨d, e⟩ <;> simp only [EngineResult.fault.injEq, reduceCtorEq] at e
      rw [← e.2]; simp
    · rcases e with e | ⟨d, e⟩ <;> simp at e

theorem writePhase_busLength (dp : Nat) (buf : Buffer) : ∀ (k i : Nat) (s : State) {t},
    (writePhase c h dp buf k i s = .ok () t ∨ ∃ d, writePhase c h dp buf k i s = .fault d t) →
    t.bus.length ≤ s.bus.length + k
  | 0, _, s, t, e => by
    rcases e with e | ⟨d, e⟩ <;> simp only [writePhase, EngineResult.ok.injEq, reduceCtorEq] at e
    rw [e.2]; simp
  | k + 1, i, s, t, e => by
    rw [writePhase] at e
    rcases memWrite_cases (s.chan c h).dta (buf.slice i dp) s with ⟨m, _, em⟩ | em | ⟨hr, em⟩ <;>
      rw [em] at e <;> dsimp only at e
    · have := writePhase_busLength dp buf k _ _ e
      simp at this; omega
    · rcases e with e | ⟨d, e⟩ <;> simp only [EngineResult.fault.injEq, reduceCtorEq] at e
      rw [← e.2]; simp
    · rcases e with e | ⟨d, e⟩ <;> simp at e

/-- How a chunk that does not refuse came about: its two phases. -/
theorem chunk_phases {u : Setup} {s : State} {x : EngineResult Unit} (e : chunk c h u s = x) :
    (∃ buf s1, readPhase c h u.sp (subCount u.tsz u.sp) 0 (drawnBuffer s.draws) (s.setDraws (s.draws + 64)) = .ok buf s1 ∧
      ((∃ s2, writePhase c h u.dp buf (subCount u.tsz u.dp) 0 s1 = .ok () s2 ∧ x = .ok () (decrementCount c h s2)) ∨
       (∃ d s2, writePhase c h u.dp buf (subCount u.tsz u.dp) 0 s1 = .fault d s2 ∧ x = .fault d s2) ∨
       ∃ r, writePhase c h u.dp buf (subCount u.tsz u.dp) 0 s1 = .refuse r ∧ x = .refuse r)) ∨
    (∃ d s1, readPhase c h u.sp (subCount u.tsz u.sp) 0 (drawnBuffer s.draws) (s.setDraws (s.draws + 64)) = .fault d s1 ∧
      x = .fault d s1) ∨
    ∃ r, readPhase c h u.sp (subCount u.tsz u.sp) 0 (drawnBuffer s.draws) (s.setDraws (s.draws + 64)) = .refuse r ∧
      x = .refuse r := by
  subst e
  unfold chunk
  cases e1 : readPhase c h u.sp (subCount u.tsz u.sp) 0 (drawnBuffer s.draws) (s.setDraws (s.draws + 64)) with
  | ok buf s1 =>
    refine .inl ⟨buf, s1, rfl, ?_⟩
    cases e2 : writePhase c h u.dp buf (subCount u.tsz u.dp) 0 s1 with
    | ok y s2 => exact .inl ⟨s2, rfl, by simp only [e2]⟩
    | fault d s2 => exact .inr (.inl ⟨d, s2, rfl, by simp only [e2]⟩)
    | refuse r => exact .inr (.inr ⟨r, rfl, by simp only [e2]⟩)
  | fault d s1 => exact .inr (.inl ⟨d, s1, rfl, rfl⟩)
  | refuse r => exact .inr (.inr ⟨r, rfl, rfl⟩)

theorem chunk_busLength {u : Setup} {s t : State}
    (e : chunk c h u s = .ok () t ∨ ∃ d, chunk c h u s = .fault d t) :
    t.bus.length ≤ s.bus.length + (subCount u.tsz u.sp + subCount u.tsz u.dp) := by
  have key : ∀ x, chunk c h u s = x → (x = .ok () t ∨ ∃ d, x = .fault d t) → t.bus.length ≤ s.bus.length +
      (subCount u.tsz u.sp + subCount u.tsz u.dp) := by
    intro x ex hx
    rcases chunk_phases ex with ⟨buf, s1, e1, ⟨s2, e2, rfl⟩ | ⟨d, s2, e2, rfl⟩ | ⟨r, e2, rfl⟩⟩ | ⟨d, s1, e1, rfl⟩ | ⟨r, e1, rfl⟩
    · have h1 := readPhase_busLength _ _ _ _ _ (.inl e1)
      have h2 := writePhase_busLength _ _ _ _ _ (.inl e2)
      rcases hx with hx | ⟨d, hx⟩ <;> simp only [EngineResult.ok.injEq, reduceCtorEq] at hx
      rw [← hx.2]; simp at h1 ⊢; omega
    · have h1 := readPhase_busLength _ _ _ _ _ (.inl e1)
      have h2 := writePhase_busLength _ _ _ _ _ (.inr ⟨_, e2⟩)
      rcases hx with hx | ⟨d, hx⟩ <;> simp only [EngineResult.fault.injEq, reduceCtorEq] at hx
      rw [← hx.2]; simp at h1; omega
    · rcases hx with hx | ⟨d, hx⟩ <;> cases hx
    · have h1 := readPhase_busLength (buf' := []) _ _ _ _ _ (.inr ⟨_, e1⟩)
      rcases hx with hx | ⟨d, hx⟩ <;> simp only [EngineResult.fault.injEq, reduceCtorEq] at hx
      rw [← hx.2]; simp at h1; omega
    · rcases hx with hx | ⟨d, hx⟩ <;> cases hx
  exact key _ rfl e

theorem chunkLoop_busLength {u : Setup} : ∀ (n : Nat) (s : State) {t},
    (chunkLoop c h u n s = .ok () t ∨ ∃ d, chunkLoop c h u n s = .fault d t) →
    t.bus.length ≤ s.bus.length + n * (subCount u.tsz u.sp + subCount u.tsz u.dp)
  | 0, s, t, e => by
    rcases e with e | ⟨d, e⟩ <;> simp only [chunkLoop, EngineResult.ok.injEq, reduceCtorEq] at e
    rw [e.2]; simp
  | n + 1, s, t, e => by
    rw [chunkLoop] at e
    rcases chunk_ends (c := c) (h := h) u s with ⟨_, s1, e1, -⟩ | ⟨d, s1, e1, -⟩ | ⟨dir, a, m, e1, -⟩ <;>
      rw [e1] at e <;> dsimp only at e
    · have h1 := chunk_busLength (.inl e1)
      have h2 := chunkLoop_busLength n s1 e
      rw [Nat.add_mul]; omega
    · rcases e with e | ⟨d, e⟩ <;> simp only [EngineResult.fault.injEq, reduceCtorEq] at e
      have h1 := chunk_busLength (.inr ⟨_, e1⟩)
      rw [← e.2, Nat.add_mul]; omega
    · rcases e with e | ⟨d, e⟩ <;> cases e

/-! ### How run-channel ends (R138, R151, R194) -/

/-- The four ways run-channel ends, in the order of R194, with the state each leaves. -/
theorem runChannel_cases {s t : State} {o : ChannelOutcome} (e : runChannel c h s = .ok (o, t)) :
    (o = .notRunnable ∧ runnable s c h = false ∧ t = s) ∨
    (o = .descriptorMode ∧ runnable s c h = true ∧ (s.chan c h).ndes s.cfg.layout = false ∧ t = descriptorHalt c h s) ∨
    (∃ d, o = .halted d ∧ runnable s c h = true ∧ (s.chan c h).ndes s.cfg.layout = true ∧
      setup s.cfg c h (s.chan c h) = .error d ∧ t = haltOutcome c h (s.logDiag d)) ∨
    ∃ u s1, Ready c h u s ∧ Keeps c h s s1 ∧
      ((∃ d, o = .addressError d ∧ chunkLoop c h u (s.chan c h).dtc.toNat s = .fault d s1 ∧ t = addressError c h s1) ∨
       (o = .success ∧ chunkLoop c h u (s.chan c h).dtc.toNat s = .ok () s1 ∧
         t = completeTransfer c h (transferEnd c h s1))) := by
  unfold runChannel at e
  split at e
  next hr =>
    split at e
    next hn =>
      unfold transfer at e
      cases hs : setup s.cfg c h (s.chan c h) with
      | error d =>
        simp only [hs, Except.ok.injEq, Prod.mk.injEq] at e
        obtain ⟨rfl, rfl⟩ := e
        exact .inr (.inr (.inl ⟨d, rfl, hr, hn, rfl, rfl⟩))
      | ok u =>
        simp only [hs] at e
        rcases chunkLoop_ends (c := c) (h := h) u (s.chan c h).dtc.toNat s with
          ⟨_, s1, e1, k1⟩ | ⟨d, s1, e1, k1⟩ | ⟨dir, a, n, e1, -⟩ <;>
          simp only [e1, Except.ok.injEq, Prod.mk.injEq, reduceCtorEq] at e
        · obtain ⟨rfl, rfl⟩ := e
          exact .inr (.inr (.inr ⟨u, s1, ⟨hr, hn, hs⟩, k1, .inr ⟨rfl, e1, rfl⟩⟩))
        · obtain ⟨rfl, rfl⟩ := e
          exact .inr (.inr (.inr ⟨u, s1, ⟨hr, hn, hs⟩, k1, .inl ⟨d, rfl, e1, rfl⟩⟩))
    next hn =>
      simp only [Except.ok.injEq, Prod.mk.injEq] at e
      exact .inr (.inl ⟨e.1.symm, hr, by simpa using hn, e.2.symm⟩)
  next hr =>
    simp only [Except.ok.injEq, Prod.mk.injEq] at e
    exact .inl ⟨e.1.symm, by simpa using hr, e.2.symm⟩

/-- Run-channel of a ready channel, by how its chunk loop ends. -/
theorem runChannel_ready {s : State} {u : Setup} (hr : Ready c h u s) :
    runChannel c h s =
      match chunkLoop c h u (s.chan c h).dtc.toNat s with
      | .refuse r => .error r
      | .fault d s1 => .ok (.addressError d, addressError c h s1)
      | .ok _ s1 => .ok (.success, completeTransfer c h (transferEnd c h s1)) := by
  unfold runChannel transfer
  rw [if_pos hr.1, if_pos hr.2.1, hr.2.2]
  dsimp only
  cases chunkLoop c h u (s.chan c h).dtc.toNat s <;> rfl

/-- Run-channel of a runnable channel whose preconditions fail (R158). -/
theorem runChannel_halts {s : State} {d : Diag} (hr : runnable s c h = true) (hn : (s.chan c h).ndes s.cfg.layout = true)
    (hs : setup s.cfg c h (s.chan c h) = .error d) :
    runChannel c h s = .ok (.halted d, haltOutcome c h (s.logDiag d)) := by
  unfold runChannel transfer
  rw [if_pos hr, if_pos hn, hs]

/-- Run-channel of a runnable channel in descriptor mode (R141). -/
theorem runChannel_descriptor {s : State} (hr : runnable s c h = true) (hn : (s.chan c h).ndes s.cfg.layout = false) :
    runChannel c h s = .ok (.descriptorMode, descriptorHalt c h s) := by
  unfold runChannel
  rw [if_pos hr, if_neg (by simp [hn])]

/-- Run-channel of a channel that is not runnable (R137). -/
theorem runChannel_notRunnable {s : State} (hr : runnable s c h = false) :
    runChannel c h s = .ok (.notRunnable, s) := by
  unfold runChannel
  rw [if_neg (by simp [hr])]

/-- Run-channel is refused only where a sub-access can reach the block's own window (R77). -/
theorem runChannel_ok {s : State} (hw : noOwnWindow s.cfg = true) : ∃ o t, runChannel c h s = .ok (o, t) := by
  have hown : ∀ d, s.cfg.downstream = some d → d.ownWindow = none := by
    intro d hd
    simpa [noOwnWindow, hd] using hw
  cases hr : runnable s c h with
  | false => exact ⟨_, _, runChannel_notRunnable hr⟩
  | true =>
    cases hn : (s.chan c h).ndes s.cfg.layout with
    | false => exact ⟨_, _, runChannel_descriptor hr hn⟩
    | true =>
      cases hs : setup s.cfg c h (s.chan c h) with
      | error d => exact ⟨_, _, runChannel_halts hr hn hs⟩
      | ok u =>
        rw [runChannel_ready ⟨hr, hn, hs⟩]
        rcases chunkLoop_ends (c := c) (h := h) u (s.chan c h).dtc.toNat s with
          ⟨_, s1, e1, -⟩ | ⟨d, s1, e1, -⟩ | ⟨dir, a, n, -, ho⟩
        · rw [e1]; exact ⟨_, _, rfl⟩
        · rw [e1]; exact ⟨_, _, rfl⟩
        · exact absurd ho (route_ne_own hown)

/-! ### What a pass keeps (R170, R197) -/

/-- A status register after the block set some of its bits: each bit is as before, or it is one of `p`'s and set. -/
def OnlySets (p : Fin 32 → Prop) (v w : Word) : Prop :=
  ∀ j, bitAt w j = bitAt v j ∨ (bitAt w j = true ∧ p j)

theorem OnlySets.refl (p : Fin 32 → Prop) (v : Word) : OnlySets p v v := fun _ => .inl rfl

theorem OnlySets.trans {p : Fin 32 → Prop} {u v w : Word} (a : OnlySets p u v) (b : OnlySets p v w) : OnlySets p u w := by
  intro j
  rcases b j with e | e
  · rcases a j with e' | e'
    · exact .inl (e.trans e')
    · exact .inr ⟨e.trans e'.1, e'.2⟩
  · exact .inr e

theorem OnlySets.setBit {p : Fin 32 → Prop} {v : Word} {i : Fin 32} (hp : p i) : OnlySets p v (setBit v i) := by
  intro j
  rw [bitAt_setBit]
  by_cases e : j = i
  · subst e; exact .inr ⟨by simp, hp⟩
  · exact .inl (by simp [e])

theorem OnlySets.mono {p : Fin 32 → Prop} {v w : Word} (a : OnlySets p v w) {j : Fin 32} (hj : bitAt v j = true) :
    bitAt w j = true := by
  rcases a j with e | e
  · rw [e, hj]
  · exact e.1

/-- The status bits the block sets in `DMAC` (R37) and in `DCS` (R30). -/
def dmacStatus (l : FieldLayout) (j : Fin 32) : Prop := j = l.dmac.hlt ∨ j = l.dmac.ar
def dcsStatus (l : FieldLayout) (j : Fin 32) : Prop := j = l.dcs.hlt ∨ j = l.dcs.tt ∨ j = l.dcs.ar

/-- What a pass over channels `hs` of core `c` keeps from one state to a later one, in at most `n` transfers and with at most
`m` events. -/
structure PassKeeps (c : CoreId) (hs : List ChanId) (n m : Nat) (s t : State) : Prop where
  cfg   : t.cfg = s.cfg
  irq   : t.irq = s.irq
  port  : t.port = s.port
  reply : t.reply = s.reply
  dmacO : ∀ c', c' ≠ c → (t.core c').dmac = (s.core c').dmac
  dmac  : OnlySets (dmacStatus s.cfg.layout) (s.core c).dmac (t.core c).dmac
  pend  : ∀ c', (t.core c').pend = (s.core c').pend
  dcke  : ∀ c', (t.core c').dcke = (s.core c').dcke
  other : ∀ c' h', ¬(c' = c ∧ h' ∈ hs) → t.chan c' h' = s.chan c' h'
  drt   : ∀ h, (t.chan c h).drt = (s.chan c h).drt
  dcs   : ∀ h, OnlySets (dcsStatus s.cfg.layout) (s.chan c h).dcs (t.chan c h).dcs
  dcm   : ∀ h, (t.chan c h).dcm = (s.chan c h).dcm
  dda   : ∀ h, (t.chan c h).dda = (s.chan c h).dda
  dsd   : ∀ h, (t.chan c h).dsd = (s.chan c h).dsd
  memWf : s.mem.wf = true → t.mem.wf = true
  bus   : ∃ ops, t.bus = s.bus ++ ops ∧ ops.length ≤ n * ((2 ^ 24 - 1) * 128) ∧
    ∀ a, (∀ op ∈ ops, ¬ writesTo a op) → t.mem.read a = s.mem.read a
  log   : ∃ ds, t.log = s.log ++ ds ∧ ds.length ≤ m

theorem PassKeeps.refl (c : CoreId) (s : State) : PassKeeps c [] 0 0 s s := by
  constructor <;> first
    | exact ⟨[], by simp, by simp, fun _ _ => rfl⟩
    | exact ⟨[], by simp, by simp⟩
    | exact OnlySets.refl _ _
    | exact fun _ => OnlySets.refl _ _
    | (intros; first | rfl | assumption)

theorem PassKeeps.trans {hs hs' : List ChanId} {n n' m m' : Nat} {s t u : State} (a : PassKeeps c hs n m s t)
    (b : PassKeeps c hs' n' m' t u) : PassKeeps c (hs ++ hs') (n + n') (m + m') s u where
  cfg := b.cfg.trans a.cfg
  irq := b.irq.trans a.irq
  port := b.port.trans a.port
  reply := b.reply.trans a.reply
  dmacO := fun c' hc => (b.dmacO c' hc).trans (a.dmacO c' hc)
  dmac := a.dmac.trans (a.cfg ▸ b.dmac)
  pend := fun c' => (b.pend c').trans (a.pend c')
  dcke := fun c' => (b.dcke c').trans (a.dcke c')
  other := fun c' h' hne => by
    rw [b.other c' h' fun ⟨e, m⟩ => hne ⟨e, by simp [m]⟩, a.other c' h' fun ⟨e, m⟩ => hne ⟨e, by simp [m]⟩]
  drt := fun h => (b.drt h).trans (a.drt h)
  dcs := fun h => (a.dcs h).trans (a.cfg ▸ b.dcs h)
  dcm := fun h => (b.dcm h).trans (a.dcm h)
  dda := fun h => (b.dda h).trans (a.dda h)
  dsd := fun h => (b.dsd h).trans (a.dsd h)
  memWf := fun w => b.memWf (a.memWf w)
  bus := by
    obtain ⟨x, hx, lx, mx⟩ := a.bus
    obtain ⟨y, hy, ly, my⟩ := b.bus
    refine ⟨x ++ y, by rw [hy, hx, List.append_assoc], ?_, fun p hp => ?_⟩
    · rw [List.length_append, Nat.add_mul]; omega
    · rw [my p fun op ho => hp op (List.mem_append_right x ho), mx p fun op ho => hp op (List.mem_append_left y ho)]
  log := by
    obtain ⟨x, hx, lx⟩ := a.log
    obtain ⟨y, hy, ly⟩ := b.log
    exact ⟨x ++ y, by rw [hy, hx, List.append_assoc], by rw [List.length_append]; omega⟩

/-- What the engine keeps, a pass keeps, if the sub-accesses are counted. -/
theorem Keeps.passKeeps {s t : State} (k : Keeps c h s t) (hb : t.bus.length ≤ s.bus.length + (2 ^ 24 - 1) * 128) :
    PassKeeps c [h] 1 0 s t where
  cfg := k.cfg
  irq := k.irq
  port := k.port
  reply := k.reply
  dmacO := fun c' _ => k.dmac c'
  dmac := k.dmac c ▸ OnlySets.refl _ _
  pend := k.pend
  dcke := k.dcke
  other := fun c' h' hne => k.other c' h' fun ⟨e, m⟩ => hne ⟨e, by simp [m]⟩
  drt := fun h' => by
    by_cases e : h' = h
    · rw [e, k.drt]
    · rw [k.other c h' fun x => e x.2]
  dcs := fun h' => by
    by_cases e : h' = h
    · rw [e, k.dcs]; exact OnlySets.refl _ _
    · rw [k.other c h' fun x => e x.2]; exact OnlySets.refl _ _
  dcm := fun h' => by
    by_cases e : h' = h
    · rw [e, k.dcm]
    · rw [k.other c h' fun x => e x.2]
  dda := fun h' => by
    by_cases e : h' = h
    · rw [e, k.dda]
    · rw [k.other c h' fun x => e x.2]
  dsd := fun h' => by
    by_cases e : h' = h
    · rw [e, k.dsd]
    · rw [k.other c h' fun x => e x.2]
  memWf := k.memWf
  bus := by
    obtain ⟨ops, e, m⟩ := k.bus
    refine ⟨ops, e, ?_, m⟩
    rw [e, List.length_append] at hb
    simpa using Nat.le_of_add_le_add_left hb
  log := ⟨[], by simp [k.log], by simp⟩

theorem PassKeeps.haltOutcome (s : State) : PassKeeps c [h] 0 0 s (haltOutcome c h s) := by
  constructor
  case dmacO => exact fun c' hc => by rw [haltOutcome_core_ne h s hc]
  case dmac => rw [haltOutcome_dmac_self]; exact OnlySets.setBit (.inl rfl)
  case other => exact fun c' h' hne => haltOutcome_chan_ne s fun ⟨a, b⟩ => hne ⟨a, by simp [b]⟩
  case dcs =>
    intro h'
    by_cases e : h' = h
    · subst e; rw [haltOutcome_chan_self]; exact OnlySets.setBit (.inl rfl)
    · rw [haltOutcome_chan_ne s fun x => e x.2]; exact OnlySets.refl _ _
  case bus => exact ⟨[], by simp, by simp, fun _ _ => by simp⟩
  case log => exact ⟨[], by simp, by simp⟩
  case memWf => simp
  all_goals first
    | (intro h'; by_cases e : h' = h
       · subst e; rw [haltOutcome_chan_self]; rfl
       · rw [haltOutcome_chan_ne s fun x => e x.2])
    | simp

theorem PassKeeps.addressError (s : State) : PassKeeps c [h] 0 0 s (addressError c h s) := by
  constructor
  case dmacO => exact fun c' hc => by rw [addressError_core_ne h s hc]
  case dmac => rw [addressError_dmac_self]; exact OnlySets.setBit (.inr rfl)
  case other => exact fun c' h' hne => addressError_chan_ne s fun ⟨a, b⟩ => hne ⟨a, by simp [b]⟩
  case dcs =>
    intro h'
    by_cases e : h' = h
    · subst e; rw [addressError_chan_self]; exact OnlySets.setBit (.inr (.inr rfl))
    · rw [addressError_chan_ne s fun x => e x.2]; exact OnlySets.refl _ _
  case bus => exact ⟨[], by simp, by simp, fun _ _ => by simp⟩
  case log => exact ⟨[], by simp, by simp⟩
  case memWf => simp
  all_goals first
    | (intro h'; by_cases e : h' = h
       · subst e; rw [addressError_chan_self]; rfl
       · rw [addressError_chan_ne s fun x => e x.2])
    | simp

theorem PassKeeps.completeTransfer (s : State) : PassKeeps c [h] 0 0 s (completeTransfer c h s) := by
  constructor
  case dmac => rw [completeTransfer_dmac]; exact OnlySets.refl _ _
  case other => exact fun c' h' hne => completeTransfer_chan_ne s fun ⟨a, b⟩ => hne ⟨a, by simp [b]⟩
  case dcs =>
    intro h'
    by_cases e : h' = h
    · subst e; rw [completeTransfer_chan_self]; exact OnlySets.setBit (.inr (.inl rfl))
    · rw [completeTransfer_chan_ne s fun x => e x.2]; exact OnlySets.refl _ _
  case bus => exact ⟨[], by simp, by simp, fun _ _ => by simp⟩
  case log => exact ⟨[], by simp, by simp⟩
  case memWf => simp
  all_goals first
    | (intro h'; by_cases e : h' = h
       · subst e; rw [completeTransfer_chan_self]; rfl
       · rw [completeTransfer_chan_ne s fun x => e x.2])
    | simp

theorem PassKeeps.descriptorHalt (s : State) : PassKeeps c [h] 0 1 s (descriptorHalt c h s) := by
  constructor
  case dmacO => exact fun c' hc => by rw [descriptorHalt_core_ne h s hc]
  case dmac => rw [descriptorHalt_core_self]; exact OnlySets.setBit (.inl rfl)
  case pend =>
    intro c'
    by_cases e : c' = c
    · subst e; rw [descriptorHalt_core_self]; rfl
    · rw [descriptorHalt_core_ne h s e]
  case dcke =>
    intro c'
    by_cases e : c' = c
    · subst e; rw [descriptorHalt_core_self]; rfl
    · rw [descriptorHalt_core_ne h s e]
  case dcs => exact fun h' => by rw [descriptorHalt_chan]; exact OnlySets.refl _ _
  case bus => exact ⟨[], by simp, by simp, fun _ _ => by simp⟩
  case log => exact ⟨[.unimplDescriptor c h], by simp, by simp⟩
  case memWf => simp
  all_goals simp

theorem PassKeeps.logDiag (s : State) (d : Diag) : PassKeeps c [h] 0 1 s (s.logDiag d) := by
  constructor
  case dmac => exact OnlySets.refl _ _
  case dcs => exact fun _ => OnlySets.refl _ _
  case bus => exact ⟨[], by simp, by simp, fun _ _ => rfl⟩
  case log => exact ⟨[d], rfl, by simp⟩
  case memWf => exact id
  all_goals (intros; rfl)

theorem PassKeeps.mono {hs hs' : List ChanId} {n n' m m' : Nat} {s t : State} (a : PassKeeps c hs n m s t)
    (hh : ∀ x ∈ hs, x ∈ hs') (hn : n ≤ n') (hm : m ≤ m') : PassKeeps c hs' n' m' s t where
  cfg := a.cfg
  irq := a.irq
  port := a.port
  reply := a.reply
  dmacO := a.dmacO
  dmac := a.dmac
  pend := a.pend
  dcke := a.dcke
  other := fun c' h' hne => a.other c' h' fun ⟨e, x⟩ => hne ⟨e, hh _ x⟩
  drt := a.drt
  dcs := a.dcs
  dcm := a.dcm
  dda := a.dda
  dsd := a.dsd
  memWf := a.memWf
  bus := by
    obtain ⟨x, hx, lx, mx⟩ := a.bus
    exact ⟨x, hx, lx.trans (Nat.mul_le_mul_right _ hn), mx⟩
  log := by
    obtain ⟨x, hx, lx⟩ := a.log
    exact ⟨x, hx, lx.trans hm⟩

@[simp] theorem transferEnd_cfg (s : State) : (transferEnd c h s).cfg = s.cfg := by unfold transferEnd; split <;> rfl
@[simp] theorem transferEnd_chan (s : State) (c' : CoreId) (h' : ChanId) : (transferEnd c h s).chan c' h' = s.chan c' h' := by
  unfold transferEnd; split <;> rfl
@[simp] theorem transferEnd_core (s : State) (c' : CoreId) : (transferEnd c h s).core c' = s.core c' := by
  unfold transferEnd; split <;> rfl
@[simp] theorem transferEnd_bus (s : State) : (transferEnd c h s).bus = s.bus := by unfold transferEnd; split <;> rfl
@[simp] theorem transferEnd_mem (s : State) : (transferEnd c h s).mem = s.mem := by unfold transferEnd; split <;> rfl

theorem transferEnd_keeps (s : State) : PassKeeps c [h] 0 1 s (transferEnd c h s) := by
  unfold transferEnd
  split
  · exact PassKeeps.logDiag s _
  · exact (PassKeeps.refl c s).mono (by simp) (by simp) (by simp)

/-- What run-channel keeps, whatever its outcome: one transfer and one event at the most. -/
theorem runChannel_keeps {s t : State} {o : ChannelOutcome} (e : runChannel c h s = .ok (o, t)) :
    PassKeeps c [h] 1 1 s t := by
  rcases runChannel_cases e with ⟨-, -, rfl⟩ | ⟨-, -, -, rfl⟩ | ⟨d, -, -, -, -, rfl⟩ | ⟨u, s1, hr, k, hx⟩
  · exact (PassKeeps.refl c _).mono (by simp) (by simp) (by simp)
  · exact (PassKeeps.descriptorHalt s).mono (by simp) (by simp) (by simp)
  · exact ((PassKeeps.logDiag (h := h) s d).trans (PassKeeps.haltOutcome _)).mono (by simp) (by simp) (by simp)
  · have hb : s1.bus.length ≤ s.bus.length + (2 ^ 24 - 1) * 128 := by
      have hc := setup_counts hr.2.2
      have hl := (s.chan c h).dtc.isLt
      have := chunkLoop_busLength (c := c) (h := h) (u := u) (s.chan c h).dtc.toNat s (t := s1) <| by
        rcases hx with ⟨d, -, e, -⟩ | ⟨-, e, -⟩
        · exact .inr ⟨d, e⟩
        · exact .inl e
      have h2 : (s.chan c h).dtc.toNat * (subCount u.tsz u.sp + subCount u.tsz u.dp) ≤ (2 ^ 24 - 1) * 128 :=
        Nat.mul_le_mul (by omega) (by omega)
      omega
    have k1 := k.passKeeps hb
    rcases hx with ⟨d, -, -, rfl⟩ | ⟨-, -, rfl⟩
    · exact (k1.trans (PassKeeps.addressError s1)).mono (by simp) (by simp) (by simp)
    · exact ((k1.trans (transferEnd_keeps s1)).trans (PassKeeps.completeTransfer _)).mono (by simp) (by simp) (by simp)

/-- What a pass keeps (R148, R149, R170): one transfer and one event for each channel at the most. -/
theorem runChannels_keeps : ∀ (hs : List ChanId) {s t : State}, runChannels c hs s = .ok t →
    PassKeeps c hs hs.length hs.length s t
  | [], s, t, e => by
    cases e
    exact PassKeeps.refl c s
  | h :: hs, s, t, e => by
    rw [runChannels] at e
    cases e1 : runChannel c h s with
    | error r => rw [e1] at e; cases e
    | ok x =>
      rw [e1] at e
      exact ((runChannel_keeps e1).trans (runChannels_keeps hs e)).mono (by simp) (by simp; omega) (by simp; omega)

/-- A pass is refused only where a sub-access can reach the block's own window (R77). -/
theorem runChannels_ok : ∀ (hs : List ChanId) {s : State}, noOwnWindow s.cfg = true → ∃ t, runChannels c hs s = .ok t
  | [], s, _ => ⟨s, rfl⟩
  | h :: hs, s, hw => by
    obtain ⟨o, t, e⟩ := runChannel_ok (c := c) (h := h) hw
    rw [runChannels, e]
    exact runChannels_ok hs ((runChannel_keeps e).cfg ▸ hw)

/-! ### Runnability (R134, R135) -/

/-- The seven bits of R135. -/
theorem runnable_iff {s : State} : runnable s c h = true ↔
    bitAt (s.core c).dmac s.cfg.layout.dmac.dmae = true ∧ bitAt (s.chan c h).dcs s.cfg.layout.dcs.cte = true ∧
    bitAt (s.core c).dmac s.cfg.layout.dmac.hlt = false ∧ bitAt (s.core c).dmac s.cfg.layout.dmac.ar = false ∧
    bitAt (s.chan c h).dcs s.cfg.layout.dcs.hlt = false ∧ bitAt (s.chan c h).dcs s.cfg.layout.dcs.tt = false ∧
    bitAt (s.chan c h).dcs s.cfg.layout.dcs.ar = false := by
  simp only [runnable, runnableBits, CoreBank.dmae, Channel.cte, CoreBank.hlt, CoreBank.ar, Channel.hlt, Channel.tt,
    Channel.ar, Bool.and_eq_true, Bool.not_eq_true', and_assoc]

/-- Setting status bits makes no channel runnable. -/
theorem runnable_mono {s t : State} {c' : CoreId} {h' : ChanId} (hc : t.cfg = s.cfg)
    (hd : OnlySets (dmacStatus s.cfg.layout) (s.core c').dmac (t.core c').dmac)
    (hs : OnlySets (dcsStatus s.cfg.layout) (s.chan c' h').dcs (t.chan c' h').dcs)
    (hr : runnable t c' h' = true) : runnable s c' h' = true := by
  rw [runnable_iff, hc] at hr
  obtain ⟨a, b, e1, e2, e3, e4, e5⟩ := hr
  have low : ∀ {p : Fin 32 → Prop} {v w : Word} {j : Fin 32}, OnlySets p v w → bitAt w j = false → bitAt v j = false := by
    intro p v w j o hw
    cases hv : bitAt v j with
    | false => rfl
    | true => rw [o.mono hv] at hw; cases hw
  have f1 := low hd e1
  have f2 := low hd e2
  have g1 := low hs e3
  have g2 := low hs e4
  have g3 := low hs e5
  refine runnable_iff.2 ⟨?_, ?_, f1, f2, g1, g2, g3⟩
  · rcases hd s.cfg.layout.dmac.dmae with e | ⟨-, e | e⟩
    · rw [← e, a]
    · rw [e, e1] at a; cases a
    · rw [e, e2] at a; cases a
  · rcases hs s.cfg.layout.dcs.cte with e | ⟨-, e | e | e⟩
    · rw [← e, b]
    · rw [e, e3] at b; cases b
    · rw [e, e4] at b; cases b
    · rw [e, e5] at b; cases b

theorem PassKeeps.dmacAll {hs : List ChanId} {n m : Nat} {s t : State} (k : PassKeeps c hs n m s t) (c' : CoreId) :
    OnlySets (dmacStatus s.cfg.layout) (s.core c').dmac (t.core c').dmac := by
  by_cases e : c' = c
  · rw [e]; exact k.dmac
  · rw [k.dmacO c' e]; exact OnlySets.refl _ _

theorem PassKeeps.dcsAll {hs : List ChanId} {n m : Nat} {s t : State} (k : PassKeeps c hs n m s t) (c' : CoreId)
    (h' : ChanId) : OnlySets (dcsStatus s.cfg.layout) (s.chan c' h').dcs (t.chan c' h').dcs := by
  by_cases e : c' = c
  · rw [e]; exact k.dcs h'
  · rw [k.other c' h' fun x => e x.1]; exact OnlySets.refl _ _

/-- A pass makes no channel runnable (R134). -/
theorem PassKeeps.notRunnable {hs : List ChanId} {n m : Nat} {s t : State} (k : PassKeeps c hs n m s t) {c' : CoreId}
    {h' : ChanId} (hr : runnable s c' h' = false) : runnable t c' h' = false := by
  cases e : runnable t c' h' with
  | false => rfl
  | true => rw [runnable_mono k.cfg (k.dmacAll c') (k.dcsAll c' h') e] at hr; cases hr

theorem not_runnable_of_dmac_hlt {s : State} (e : bitAt (s.core c).dmac s.cfg.layout.dmac.hlt = true) (h : ChanId) :
    runnable s c h = false := by
  cases er : runnable s c h with
  | false => rfl
  | true => rw [(runnable_iff.1 er).2.2.1] at e; cases e

theorem not_runnable_of_dmac_ar {s : State} (e : bitAt (s.core c).dmac s.cfg.layout.dmac.ar = true) (h : ChanId) :
    runnable s c h = false := by
  cases er : runnable s c h with
  | false => rfl
  | true => rw [(runnable_iff.1 er).2.2.2.1] at e; cases e

theorem not_runnable_of_tt {s : State} (e : bitAt (s.chan c h).dcs s.cfg.layout.dcs.tt = true) :
    runnable s c h = false := by
  cases er : runnable s c h with
  | false => rfl
  | true => rw [(runnable_iff.1 er).2.2.2.2.2.1] at e; cases e

/-- Run-channel leaves its channel not runnable (R134). -/
theorem runChannel_self {s t : State} {o : ChannelOutcome} (e : runChannel c h s = .ok (o, t)) :
    runnable t c h = false := by
  rcases runChannel_cases e with ⟨-, hr, rfl⟩ | ⟨-, -, -, rfl⟩ | ⟨d, -, -, -, -, rfl⟩ | ⟨u, s1, -, -, ⟨d, -, -, rfl⟩ | ⟨-, -, rfl⟩⟩
  · exact hr
  · exact not_runnable_of_dmac_hlt (by simp) h
  · exact not_runnable_of_dmac_hlt (by simp) h
  · exact not_runnable_of_dmac_ar (by simp) h
  · exact not_runnable_of_tt (by simp [transferEnd_cfg])

/-- After a pass none of its channels is runnable. -/
theorem runChannels_self : ∀ (hs : List ChanId) {s t : State}, runChannels c hs s = .ok t →
    ∀ h ∈ hs, runnable t c h = false
  | [], _, _, _, _, hm => absurd hm List.not_mem_nil
  | h :: hs, s, t, e, h', hm => by
    rw [runChannels] at e
    cases e1 : runChannel c h s with
    | error r => rw [e1] at e; cases e
    | ok x =>
      rw [e1] at e
      rcases List.mem_cons.1 hm with rfl | hm
      · exact (runChannels_keeps hs e).notRunnable (runChannel_self e1)
      · exact runChannels_self hs e h' hm

/-- A pass over channels of which none is runnable does nothing (R137). -/
theorem runChannels_notRunnable : ∀ (hs : List ChanId) {s : State}, (∀ h ∈ hs, runnable s c h = false) →
    runChannels c hs s = .ok s
  | [], _, _ => rfl
  | h :: hs, s, hr => by
    rw [runChannels, runChannel_notRunnable (hr h (by simp))]
    exact runChannels_notRunnable hs fun x hx => hr x (by simp [hx])

end Sys2Proof.Machine
end

