-- ==== Sys2Proof/Laws/Exec.lean ====
section
/-! SUPPORT. What the shared operations behind the arms of exec do, said once: a plain store, and the writes that start a pass. -/

namespace Sys2Proof.Machine

variable {c : CoreId} {h : ChanId}

/-! ### Plain stores -/

theorem storeChan_stored (s : State) (ch : Channel) : ChannelStored c h ch s ((s.setChan c h ch).respond none) := by
  refine ⟨by simp, fun c' h' hne => by simp [chan_setChan_ne _ _ hne], fun c' => by simp, fun _ => rfl,
    ⟨rfl, rfl, rfl, rfl, rfl⟩, rfl, rfl⟩

theorem storeCore_stored (s : State) (k : CoreBank) (hk : k.channels = (s.core c).channels) :
    CoreStored c k.dmac k.pend k.dcke s ((s.setCore c k).respond none) := by
  refine ⟨by simp, by simp, by simp, fun c' hc => by simp [core_setCore_ne _ _ hc],
    fun c' h' => by simp [chan_setCore s c k hk], fun _ => rfl, ⟨rfl, rfl, rfl, rfl, rfl⟩, rfl, rfl⟩

/-! ### The states in which a pass starts -/

@[simp] theorem afterDcsWrite_cfg (c : CoreId) (h : ChanId) (v : Word) (s : State) :
    (afterDcsWrite c h v s).cfg = s.cfg := rfl
@[simp] theorem afterDcsWrite_irq (c : CoreId) (h : ChanId) (v : Word) (s : State) :
    (afterDcsWrite c h v s).irq = s.irq := rfl
@[simp] theorem afterDcsWrite_log (c : CoreId) (h : ChanId) (v : Word) (s : State) :
    (afterDcsWrite c h v s).log = s.log := rfl
@[simp] theorem afterDcsWrite_mem (c : CoreId) (h : ChanId) (v : Word) (s : State) :
    (afterDcsWrite c h v s).mem = s.mem := rfl
@[simp] theorem afterDcsWrite_port (c : CoreId) (h : ChanId) (v : Word) (s : State) :
    (afterDcsWrite c h v s).port = s.port := rfl
@[simp] theorem afterDcsWrite_reply (c : CoreId) (h : ChanId) (v : Word) (s : State) :
    (afterDcsWrite c h v s).reply = none := rfl
@[simp] theorem afterDcsWrite_bus (c : CoreId) (h : ChanId) (v : Word) (s : State) :
    (afterDcsWrite c h v s).bus = s.bus := rfl
@[simp] theorem afterDcsWrite_draws (c : CoreId) (h : ChanId) (v : Word) (s : State) :
    (afterDcsWrite c h v s).draws = s.draws := rfl
@[simp] theorem afterDcsWrite_chan_self (c : CoreId) (h : ChanId) (v : Word) (s : State) :
    (afterDcsWrite c h v s).chan c h = { s.chan c h with dcs := v } := by simp [afterDcsWrite]
theorem afterDcsWrite_chan_ne {c c' : CoreId} {h h' : ChanId} (v : Word) (s : State) (hne : ¬(c' = c ∧ h' = h)) :
    (afterDcsWrite c h v s).chan c' h' = s.chan c' h' := by simp [afterDcsWrite, chan_setChan_ne _ _ hne]
@[simp] theorem afterDcsWrite_dmac (c : CoreId) (h : ChanId) (v : Word) (s : State) (c' : CoreId) :
    ((afterDcsWrite c h v s).core c').dmac = (s.core c').dmac := by simp [afterDcsWrite]
@[simp] theorem afterDcsWrite_pend (c : CoreId) (h : ChanId) (v : Word) (s : State) (c' : CoreId) :
    ((afterDcsWrite c h v s).core c').pend = (s.core c').pend := by simp [afterDcsWrite]
@[simp] theorem afterDcsWrite_dcke (c : CoreId) (h : ChanId) (v : Word) (s : State) (c' : CoreId) :
    ((afterDcsWrite c h v s).core c').dcke = (s.core c').dcke := by simp [afterDcsWrite]
theorem afterDcsWrite_core_ne {c c' : CoreId} (h : ChanId) (v : Word) (s : State) (hc : c' ≠ c) :
    (afterDcsWrite c h v s).core c' = s.core c' := by simp [afterDcsWrite, core_setChan_ne _ _ _ hc]

@[simp] theorem afterDmacWrite_cfg (c : CoreId) (v : Word) (s : State) : (afterDmacWrite c v s).cfg = s.cfg := rfl
@[simp] theorem afterDmacWrite_irq (c : CoreId) (v : Word) (s : State) : (afterDmacWrite c v s).irq = s.irq := rfl
@[simp] theorem afterDmacWrite_log (c : CoreId) (v : Word) (s : State) : (afterDmacWrite c v s).log = s.log := rfl
@[simp] theorem afterDmacWrite_mem (c : CoreId) (v : Word) (s : State) : (afterDmacWrite c v s).mem = s.mem := rfl
@[simp] theorem afterDmacWrite_port (c : CoreId) (v : Word) (s : State) : (afterDmacWrite c v s).port = s.port := rfl
@[simp] theorem afterDmacWrite_reply (c : CoreId) (v : Word) (s : State) : (afterDmacWrite c v s).reply = none := rfl
@[simp] theorem afterDmacWrite_bus (c : CoreId) (v : Word) (s : State) : (afterDmacWrite c v s).bus = s.bus := rfl
@[simp] theorem afterDmacWrite_draws (c : CoreId) (v : Word) (s : State) : (afterDmacWrite c v s).draws = s.draws := rfl
@[simp] theorem afterDmacWrite_chan (c : CoreId) (v : Word) (s : State) (c' : CoreId) (h' : ChanId) :
    (afterDmacWrite c v s).chan c' h' = s.chan c' h' := by simp [afterDmacWrite, chan_setCore]
@[simp] theorem afterDmacWrite_core_self (c : CoreId) (v : Word) (s : State) :
    (afterDmacWrite c v s).core c = { s.core c with dmac := v } := by simp [afterDmacWrite]
theorem afterDmacWrite_core_ne {c c' : CoreId} (v : Word) (s : State) (hc : c' ≠ c) :
    (afterDmacWrite c v s).core c' = s.core c' := by simp [afterDmacWrite, core_setCore_ne _ _ hc]
@[simp] theorem afterDmacWrite_pend (c : CoreId) (v : Word) (s : State) (c' : CoreId) :
    ((afterDmacWrite c v s).core c').pend = (s.core c').pend := by
  by_cases e : c' = c
  · subst e; simp
  · rw [afterDmacWrite_core_ne v s e]
@[simp] theorem afterDmacWrite_dcke (c : CoreId) (v : Word) (s : State) (c' : CoreId) :
    ((afterDmacWrite c v s).core c').dcke = (s.core c').dcke := by
  by_cases e : c' = c
  · subst e; simp
  · rw [afterDmacWrite_core_ne v s e]

theorem afterDdrsWrite_stored (c : CoreId) (v : Word) (s : State) :
    CoreStored c (s.core c).dmac ((s.core c).pend ||| v) (s.core c).dcke s (afterDdrsWrite c v s) :=
  storeCore_stored s { s.core c with pend := (s.core c).pend ||| v } rfl

/-! ### The writes that start a pass (R140) -/

theorem execWrDcs_eq (v : Word) (s : State) :
    execWrDcs c h v s = passOutcome ((runChannel c h (afterDcsWrite c h v s)).map Prod.snd) := by
  show passOutcome (channelPass c h (afterDcsWrite c h v s)) = _
  unfold channelPass
  cases runChannel c h (afterDcsWrite c h v s) <;> rfl

theorem execWrDmac_eq (v : Word) (s : State) :
    execWrDmac c v s = passOutcome (runChannels c (channelIds s.cfg) (afterDmacWrite c v s)) := rfl

theorem execWrDdrs_eq (v : Word) (s : State) :
    execWrDdrs c v s = passOutcome (runChannels c (channelIds s.cfg) (afterDdrsWrite c v s)) := rfl

theorem execWrDcs_next {v : Word} {s t : State} {o : ChannelOutcome}
    (e : runChannel c h (afterDcsWrite c h v s) = .ok (o, t)) : execWrDcs c h v s = .next t := by
  rw [execWrDcs_eq, e]; rfl

theorem passOutcome_next {x : Except Refusal State} {t : State} : passOutcome x = .next t ↔ x = .ok t := by
  cases x <;> simp [passOutcome]

theorem passOutcome_refused {x : Except Refusal State} {r : Refusal} : passOutcome x = .refused r ↔ x = .error r := by
  cases x <;> simp [passOutcome]

theorem execWrDcs_inv {v : Word} {s t : State} (e : execWrDcs c h v s = .next t) :
    ∃ o, runChannel c h (afterDcsWrite c h v s) = .ok (o, t) := by
  rw [execWrDcs_eq, passOutcome_next] at e
  cases e1 : runChannel c h (afterDcsWrite c h v s) with
  | error r => rw [e1] at e; cases e
  | ok x =>
    rw [e1] at e
    cases x with
    | mk o y =>
      cases e
      exact ⟨o, rfl⟩

/-! ### Passes of which one channel runs -/

theorem channelIds_sorted (cfg : Config) : (channelIds cfg).Pairwise (·.val < ·.val) := by
  unfold channelIds
  exact List.Pairwise.filter _ (by decide)

/-- A pass in which the first runnable channel leaves nothing runnable ends where that channel's run ends (R195). -/
theorem runChannels_first : ∀ (hs : List ChanId) {s t : State} {h : ChanId} {o : ChannelOutcome}, h ∈ hs →
    hs.Pairwise (·.val < ·.val) → (∀ h', h'.val < h.val → runnable s c h' = false) →
    runChannel c h s = .ok (o, t) → (∀ h', h.val < h'.val → runnable t c h' = false) → runChannels c hs s = .ok t
  | [], _, _, _, _, hm, _, _, _, _ => absurd hm List.not_mem_nil
  | x :: xs, s, t, h, o, hm, hp, hl, e, hq => by
    rw [List.pairwise_cons] at hp
    rw [runChannels]
    rcases List.mem_cons.1 hm with rfl | hm
    · rw [e]; exact runChannels_notRunnable xs fun y hy => hq y (hp.1 y hy)
    · rw [runChannel_notRunnable (hl x (hp.1 h hm))]
      exact runChannels_first xs hm hp.2 hl e hq

/-- Runnability depends on `DMAC` and on the channel's `DCS` only. -/
theorem runnable_congr {s t : State} {c : CoreId} {h : ChanId} (hc : t.cfg = s.cfg)
    (hd : (t.core c).dmac = (s.core c).dmac) (he : (t.chan c h).dcs = (s.chan c h).dcs) :
    runnable t c h = runnable s c h := by
  simp only [runnable, runnableBits, hc, CoreBank.dmae, Channel.cte, CoreBank.hlt, CoreBank.ar, Channel.hlt, Channel.tt,
    Channel.ar, hd, he]

/-! ### The halt outcome (R158) and a whole core -/

theorem haltOutcome_haltedBy (s : State) (d : Diag) : HaltedBy c h d s (haltOutcome c h (s.logDiag d)) := by
  refine ⟨by simp [Channel.setHlt], by simp, by simp, fun c' h' hne => by rw [haltOutcome_chan_ne _ hne]; rfl,
    fun c' hc => by rw [haltOutcome_core_ne h _ hc]; rfl, fun c' => by simp, fun _ => by simp,
    ⟨by simp, by simp, by simp, by simp, by simp⟩, by simp, not_runnable_of_dmac_hlt (by simp)⟩

/-- A core's bank is its three cells and its channels. -/
theorem core_ext {s t : State} {c : CoreId} (a : (t.core c).dmac = (s.core c).dmac)
    (b : (t.core c).pend = (s.core c).pend) (d : (t.core c).dcke = (s.core c).dcke)
    (e : ∀ h, t.chan c h = s.chan c h) : t.core c = s.core c := by
  have hv : (t.core c).channels = (s.core c).channels := Vector.ext fun i hi => e ⟨i, hi⟩
  cases ht : t.core c
  cases hs : s.core c
  simp_all

/-- A pass over a core leaves every other core as it was (R149). -/
theorem PassKeeps.coreOther {hs : List ChanId} {n m : Nat} {s t : State} (k : PassKeeps c hs n m s t) {c' : CoreId}
    (hc : c' ≠ c) : t.core c' = s.core c' :=
  core_ext (k.dmacO c' hc) (k.pend c') (k.dcke c') fun h' => k.other c' h' fun x => hc x.1

/-! ### What any operation can do -/

/-- What an operation that starts no pass keeps: everything a pass could change. -/
structure Quiet (i : Instr) (s t : State) : Prop where
  cfg  : t.cfg = s.cfg
  irq  : t.irq = s.irq
  mem  : t.mem = s.mem
  bus  : t.bus = s.bus
  port : t.port = s.port
  log  : t.log = s.log ++ ownEvents i
  dmac : ∀ c, (t.core c).dmac = (s.core c).dmac
  dcs  : ∀ c h, (t.chan c h).dcs = (s.chan c h).dcs

theorem Quiet.ofStoreChan {i : Instr} {s : State} (ch : Channel) (hi : ownEvents i = [])
    (hd : ch.dcs = (s.chan c h).dcs) : Quiet i s ((s.setChan c h ch).respond none) := by
  constructor
  case dcs =>
    intro c' h'
    by_cases e : c' = c ∧ h' = h
    · obtain ⟨rfl, rfl⟩ := e; simp [hd]
    · simp [chan_setChan_ne _ _ e]
  case dmac => simp
  case log => simp [hi]
  all_goals rfl

theorem Quiet.ofStoreCore {i : Instr} {s : State} (k : CoreBank) (hi : ownEvents i = [])
    (hk : k.channels = (s.core c).channels) (hd : k.dmac = (s.core c).dmac) :
    Quiet i s ((s.setCore c k).respond none) := by
  constructor
  case dmac =>
    intro c'
    by_cases e : c' = c
    · subst e; simp [hd]
    · simp [core_setCore_ne _ _ e]
  case dcs => exact fun c' h' => by simp [chan_setCore s c k hk]
  case log => simp [hi]
  all_goals rfl

theorem Quiet.ofRespond {i : Instr} {s : State} (r : Option Word) (hi : ownEvents i = []) :
    Quiet i s (s.respond r) := by
  constructor
  case log => simp [hi]
  all_goals (intros; rfl)

/-- The four kinds of operation: the three that start a pass, and the rest. -/
theorem exec_cases {i : Instr} {s t : State} (e : exec i s = .next t) :
    (∃ c h v, i = .wrDcs c h v ∧ PassKeeps c [h] 1 1 (afterDcsWrite c h v s) t) ∨
    (∃ c v, i = .wrDmac c v ∧
      PassKeeps c (channelIds s.cfg) (channelIds s.cfg).length (channelIds s.cfg).length (afterDmacWrite c v s) t) ∨
    (∃ c v, i = .wrDdrs c v ∧
      PassKeeps c (channelIds s.cfg) (channelIds s.cfg).length (channelIds s.cfg).length (afterDdrsWrite c v s) t) ∨
    ((∀ c h v, i ≠ .wrDcs c h v) ∧ (∀ c v, i ≠ .wrDmac c v) ∧ Quiet i s t) := by
  cases i
  case wrDcs c h v =>
    obtain ⟨o, e'⟩ := execWrDcs_inv e
    exact .inl ⟨c, h, v, rfl, runChannel_keeps e'⟩
  case wrDmac c v => exact .inr (.inl ⟨c, v, rfl, runChannels_keeps _ (passOutcome_next.1 e)⟩)
  case wrDdrs c v => exact .inr (.inr (.inl ⟨c, v, rfl, runChannels_keeps _ (passOutcome_next.1 e)⟩))
  all_goals
    refine .inr (.inr (.inr ⟨by simp, by simp, ?_⟩))
    cases e
    first
    | exact Quiet.ofRespond _ rfl
    | exact Quiet.ofStoreChan _ rfl rfl
    | exact Quiet.ofStoreCore _ rfl rfl rfl
    | (constructor <;> (intros; rfl))

end Sys2Proof.Machine
end

