-- ==== Sys2Proof/Laws/Transfer.lean ====
section
/-! SUPPORT. What a phase, a chunk and a whole transfer do to the channel's registers and on the master port: the closed
forms that R171, R172, R184 and R185 summarise. -/

namespace Sys2Proof.Machine

variable {c : CoreId} {h : ChanId}

/-! ### Successive addresses -/

@[simp] theorem stepped_zero (inc : Bool) (a : Word) (w : Nat) : stepped inc a 0 w = a := by
  unfold stepped; split <;> simp

theorem stepped_add (inc : Bool) (a : Word) (m n w : Nat) :
    stepped inc (stepped inc a m w) n w = stepped inc a (m + n) w := by
  unfold stepped
  cases inc
  · rfl
  · simp only [if_true, Nat.add_mul, BitVec.ofNat_add, BitVec.add_assoc]

theorem advanced_eq_stepped (inc : Bool) (a : Word) (w : Nat) : advanced inc a w = stepped inc a 1 w := by
  unfold advanced stepped; simp

/-- `List.range (k + 1)` with its first element apart, mapped. -/
theorem map_range_succ {α : Type} (f : Nat → α) (k : Nat) :
    (List.range (k + 1)).map f = f 0 :: (List.range k).map fun j => f (j + 1) := by
  rw [List.range_succ_eq_map, List.map_cons, List.map_map]; rfl

/-! ### The phases -/

/-- The sub-accesses of a phase of `k` sub-accesses in one direction. -/
def phaseTrace (dir : Dir) (inc : Bool) (a : Word) (w k : Nat) : List (Dir × Word × Nat) :=
  (List.range k).map fun j => (dir, stepped inc a j w, w)

theorem phaseTrace_succ (dir : Dir) (inc : Bool) (a : Word) (w k : Nat) :
    phaseTrace dir inc a w (k + 1) = (dir, a, w) :: phaseTrace dir inc (stepped inc a 1 w) w k := by
  unfold phaseTrace
  rw [map_range_succ, stepped_zero]
  congr 1
  refine List.map_congr_left fun j _ => ?_
  rw [stepped_add, Nat.add_comm]

@[simp] theorem phaseTrace_length (dir : Dir) (inc : Bool) (a : Word) (w k : Nat) :
    (phaseTrace dir inc a w k).length = k := by simp [phaseTrace]

/-- Sub-accesses that all succeeded, with the given shapes, were issued between two states. -/
def Issued (s t : State) (shapes : List (Dir × Word × Nat)) : Prop :=
  ∃ ops, t.bus = s.bus ++ ops ∧ ops.map shape = shapes ∧ ∀ op ∈ ops, succeeded op = true

/-- Sub-accesses were issued between two states: `n` that succeeded, then one, in direction `dir`, that failed; their shapes
begin `shapes`. -/
def IssuedFailing (dir : Dir) (n : Nat) (s t : State) (shapes : List (Dir × Word × Nat)) : Prop :=
  ∃ ops op, t.bus = s.bus ++ ops ++ [op] ∧ ops.length = n ∧ (ops ++ [op]).map shape <+: shapes ∧
    (∀ o ∈ ops, succeeded o = true) ∧ succeeded op = false ∧ (shape op).1 = dir

theorem Issued.refl (s : State) : Issued s s [] := ⟨[], by simp, rfl, by simp⟩

theorem Issued.trans {s t u : State} {x y : List (Dir × Word × Nat)} (a : Issued s t x) (b : Issued t u y) :
    Issued s u (x ++ y) := by
  obtain ⟨p, e, m, g⟩ := a
  obtain ⟨q, e', m', g'⟩ := b
  exact ⟨p ++ q, by rw [e', e, List.append_assoc], by rw [List.map_append, m, m'],
    fun op ho => (List.mem_append.1 ho).elim (g op) (g' op)⟩

theorem Issued.failing {dir : Dir} {n : Nat} {s t u : State} {x y : List (Dir × Word × Nat)} (a : Issued s t x)
    (b : IssuedFailing dir n t u y) : IssuedFailing dir (x.length + n) s u (x ++ y) := by
  obtain ⟨p, e, m, g⟩ := a
  obtain ⟨q, op, e', hn, m', g', f, d⟩ := b
  refine ⟨p ++ q, op, by simp [e', e, List.append_assoc], by simp [← m, hn], ?_, fun o ho => (List.mem_append.1 ho).elim (g o) (g' o), f, d⟩
  rw [List.append_assoc, List.map_append, m]
  exact (List.prefix_append_right_inj x).2 m'

theorem IssuedFailing.append {dir : Dir} {n : Nat} {s t : State} {x : List (Dir × Word × Nat)}
    (a : IssuedFailing dir n s t x) (y : List (Dir × Word × Nat)) : IssuedFailing dir n s t (x ++ y) := by
  obtain ⟨q, op, e, hn, m, r⟩ := a
  exact ⟨q, op, e, hn, m.trans (List.prefix_append x y), r⟩

theorem IssuedFailing.count {dir : Dir} {n m : Nat} {s t : State} {x : List (Dir × Word × Nat)}
    (a : IssuedFailing dir n s t x) (e : n = m) : IssuedFailing dir m s t x := e ▸ a

theorem Issued.congr {s s' t t' : State} {x : List (Dir × Word × Nat)} (a : Issued s t x) (hs : s'.bus = s.bus)
    (ht : t'.bus = t.bus) : Issued s' t' x := by
  obtain ⟨p, e, r⟩ := a
  exact ⟨p, by rw [ht, e, hs], r⟩

theorem IssuedFailing.congr {dir : Dir} {n : Nat} {s s' t t' : State} {x : List (Dir × Word × Nat)}
    (a : IssuedFailing dir n s t x) (hs : s'.bus = s.bus) (ht : t'.bus = t.bus) : IssuedFailing dir n s' t' x := by
  obtain ⟨p, op, e, r⟩ := a
  exact ⟨p, op, by rw [ht, e, hs], r⟩

/-- What `k` sub-accesses of the read phase do (R161, R176, R181). -/
theorem readPhase_spec (sp : Nat) : ∀ (k i : Nat) (buf : Buffer) (s : State),
    (∀ buf' t, readPhase c h sp k i buf s = .ok buf' t →
      t.chan c h = { s.chan c h with dsa := stepped ((s.chan c h).sai s.cfg.layout) (s.chan c h).dsa k sp } ∧
      Issued s t (phaseTrace .read ((s.chan c h).sai s.cfg.layout) (s.chan c h).dsa sp k)) ∧
    ∀ d t, readPhase c h sp k i buf s = .fault d t → d = .read ∧ ∃ j < k,
      t.chan c h = { s.chan c h with dsa := stepped ((s.chan c h).sai s.cfg.layout) (s.chan c h).dsa j sp } ∧
      IssuedFailing .read j s t (phaseTrace .read ((s.chan c h).sai s.cfg.layout) (s.chan c h).dsa sp k)
  | 0, _, _, s => by
    refine ⟨fun buf' t e => ?_, fun d t e => nomatch e⟩
    cases e
    exact ⟨by simp, Issued.refl s⟩
  | k + 1, i, buf, s => by
    rw [readPhase]
    rcases memRead_cases (s.chan c h).dsa sp s with ⟨bytes, _, em⟩ | em | ⟨hr, em⟩ <;> rw [em] <;> dsimp only
    · obtain ⟨ok, bad⟩ := readPhase_spec sp k (i + sp) (buf.fill i bytes)
        (advanceSrc c h sp (s.issue (.read (s.chan c h).dsa sp (some bytes))))
      have first : Issued s (advanceSrc c h sp (s.issue (.read (s.chan c h).dsa sp (some bytes))))
          [(.read, (s.chan c h).dsa, sp)] := ⟨[.read (s.chan c h).dsa sp (some bytes)], rfl, rfl, by simp [succeeded]⟩
      simp only [advanceSrc_chan_self, issue_chan, issue_cfg, advanceSrc_cfg, Channel.sai, advanced_eq_stepped,
        stepped_add] at ok bad
      refine ⟨fun buf' t e => ?_, fun d t e => ?_⟩
      · obtain ⟨hc, hi⟩ := ok buf' t e
        rw [phaseTrace_succ]
        exact ⟨(by rw [hc, Nat.add_comm]; rfl), first.trans hi⟩
      · obtain ⟨hd, j, hj, hc, hi⟩ := bad d t e
        rw [phaseTrace_succ]
        exact ⟨hd, j + 1, by omega, (by rw [hc, Nat.add_comm]; rfl), (first.failing hi).count (Nat.add_comm 1 j)⟩
    · refine ⟨fun buf' t e => (nomatch e), fun d t e => ?_⟩
      cases e
      refine ⟨rfl, 0, by omega, by simp, [], .read (s.chan c h).dsa sp none, by simp, rfl, ?_, by simp, rfl, rfl⟩
      rw [phaseTrace_succ]
      exact List.prefix_append [_] _
    · exact ⟨fun buf' t e => (nomatch e), fun d t e => nomatch e⟩

/-- The bytes a phase sends: `n` of them wherever the buffer is long enough. -/
theorem length_slice {buf : Buffer} {i n : Nat} (hl : i + n ≤ buf.length) : (buf.slice i n).length = n := by
  unfold Buffer.slice; rw [List.length_take, List.length_drop]; omega

/-- What `k` sub-accesses of the write phase do (R162, R177, R181). -/
theorem writePhase_spec (dp : Nat) (buf : Buffer) : ∀ (k i : Nat) (s : State), i + k * dp ≤ buf.length →
    (∀ t, writePhase c h dp buf k i s = .ok () t →
      t.chan c h = { s.chan c h with dta := stepped ((s.chan c h).dai s.cfg.layout) (s.chan c h).dta k dp } ∧
      Issued s t (phaseTrace .write ((s.chan c h).dai s.cfg.layout) (s.chan c h).dta dp k)) ∧
    ∀ d t, writePhase c h dp buf k i s = .fault d t → d = .write ∧ ∃ j < k,
      t.chan c h = { s.chan c h with dta := stepped ((s.chan c h).dai s.cfg.layout) (s.chan c h).dta j dp } ∧
      IssuedFailing .write j s t (phaseTrace .write ((s.chan c h).dai s.cfg.layout) (s.chan c h).dta dp k)
  | 0, _, s, _ => by
    refine ⟨fun t e => ?_, fun d t e => nomatch e⟩
    cases e
    exact ⟨by simp, Issued.refl s⟩
  | k + 1, i, s, hl => by
    rw [Nat.add_mul] at hl
    have hn : (buf.slice i dp).length = dp := length_slice (by omega)
    rw [writePhase]
    rcases memWrite_cases (s.chan c h).dta (buf.slice i dp) s with ⟨m, _, em⟩ | em | ⟨hr, em⟩ <;> rw [em] <;> dsimp only
    · obtain ⟨ok, bad⟩ := writePhase_spec dp buf k (i + dp)
        (advanceDst c h dp ((s.issue (.write (s.chan c h).dta (buf.slice i dp) true)).setMem m)) (by omega)
      have first : Issued s (advanceDst c h dp ((s.issue (.write (s.chan c h).dta (buf.slice i dp) true)).setMem m))
          [(.write, (s.chan c h).dta, dp)] :=
        ⟨[.write (s.chan c h).dta (buf.slice i dp) true], rfl, by simp [shape, hn], by simp [succeeded]⟩
      simp only [advanceDst_chan_self, setMem_chan, setMem_cfg, issue_chan, issue_cfg, advanceDst_cfg, Channel.dai,
        advanced_eq_stepped, stepped_add] at ok bad
      refine ⟨fun t e => ?_, fun d t e => ?_⟩
      · obtain ⟨hc, hi⟩ := ok t e
        rw [phaseTrace_succ]
        exact ⟨(by rw [hc, Nat.add_comm]; rfl), first.trans hi⟩
      · obtain ⟨hd, j, hj, hc, hi⟩ := bad d t e
        rw [phaseTrace_succ]
        exact ⟨hd, j + 1, by omega, (by rw [hc, Nat.add_comm]; rfl), (first.failing hi).count (Nat.add_comm 1 j)⟩
    · refine ⟨fun t e => (nomatch e), fun d t e => ?_⟩
      cases e
      refine ⟨rfl, 0, by omega, by simp, [], .write (s.chan c h).dta (buf.slice i dp) false, by simp, rfl, ?_, by simp, rfl, rfl⟩
      rw [phaseTrace_succ]
      simp only [List.nil_append, List.map_cons, List.map_nil, shape, hn]
      exact List.prefix_append [_] _
    · exact ⟨fun t e => (nomatch e), fun d t e => nomatch e⟩

/-! ### The buffer (R42) -/

theorem length_fill {buf : Buffer} {i : Nat} {bytes : List Byte} (hl : i + bytes.length ≤ buf.length) :
    (buf.fill i bytes).length = buf.length := by
  unfold Buffer.fill
  simp only [List.length_append, List.length_take, List.length_drop]
  omega

/-- Two runs filled in, one after the other, are one run. -/
theorem fill_fill {buf : Buffer} {i : Nat} {x y : List Byte} (hl : i + x.length + y.length ≤ buf.length) :
    (buf.fill i x).fill (i + x.length) y = buf.fill i (x ++ y) := by
  have hi : (buf.take i).length = i := by simp; omega
  have h1 : (buf.take i ++ x).length = i + x.length := by rw [List.length_append, hi]
  unfold Buffer.fill
  rw [List.take_append_of_le_length (by omega), List.take_of_length_le (by omega), List.drop_append, h1,
    List.drop_of_length_le (by omega : (buf.take i ++ x).length ≤ _), List.drop_drop, List.length_append]
  simp only [List.append_assoc, List.nil_append]
  congr 4
  omega

@[simp] theorem length_drawnBuffer (n : Nat) : (drawnBuffer n).length = 64 := by simp [drawnBuffer]

theorem readPhase_bufLength (sp : Nat) : ∀ (k i : Nat) (buf : Buffer) (s : State) {buf' t}, i + k * sp ≤ buf.length →
    readPhase c h sp k i buf s = .ok buf' t → buf'.length = buf.length
  | 0, _, _, s, _, _, _, e => by cases e; rfl
  | k + 1, i, buf, s, buf', t, hl, e => by
    rw [Nat.add_mul] at hl
    rw [readPhase] at e
    rcases memRead_cases (s.chan c h).dsa sp s with ⟨bytes, hb, em⟩ | em | ⟨hr, em⟩ <;> rw [em] at e <;> dsimp only at e
    · have hf : (buf.fill i bytes).length = buf.length := length_fill (by omega)
      rw [readPhase_bufLength sp k (i + sp) (buf.fill i bytes) _ (by omega) e, hf]
    · cases e
    · cases e

/-- What the port widths and the size of a setup come to: no phase runs over the buffer. -/
theorem setup_fits {cfg : Config} {ch : Channel} {u : Setup} (e : setup cfg c h ch = .ok u) :
    subCount u.tsz u.sp * u.sp ≤ 64 ∧ subCount u.tsz u.dp * u.dp ≤ 64 := by
  obtain ⟨hs, hd, ht, -⟩ := setup_bounds e
  have h1 := portWidth_cases hs
  have h2 := portWidth_cases hd
  have h3 := transferSize_cases ht
  have fit : ∀ t w : Nat, (t = 4 ∨ t = 1 ∨ t = 2 ∨ t = 16 ∨ t = 32 ∨ t = 64) → (w = 4 ∨ w = 1 ∨ w = 2) →
      subCount t w * w ≤ 64 := by
    rintro t w (rfl | rfl | rfl | rfl | rfl | rfl) (rfl | rfl | rfl) <;> decide
  exact ⟨fit _ _ h3 h1, fit _ _ h3 h2⟩

/-! ### A chunk (R160 to R164) -/

@[simp] theorem chunkTrace_length (u : Setup) (sai dai : Bool) (src dst : Word) :
    (chunkTrace u sai dai src dst).length = subCount u.tsz u.sp + subCount u.tsz u.dp := by simp [chunkTrace]

/-- The registers after `k` whole chunks, `j` more source and `l` more destination advances. -/
def Channel.after (l : FieldLayout) (u : Setup) (ch : Channel) (k j l' : Nat) : Channel :=
  { ch with
    dsa := stepped (ch.sai l) ch.dsa (k * subCount u.tsz u.sp + j) u.sp
    dta := stepped (ch.dai l) ch.dta (k * subCount u.tsz u.dp + l') u.dp
    dtc := ch.dtc - BitVec.ofNat 24 k }

/-- Chunk `k` fails at sub-access `j` of a phase in direction `d`: the registers stand after the advances made, and the
sub-accesses of the `k` chunks before and of the chunk itself, up to the one that failed, were issued (R172, R185). -/
def ChunkFails (c : CoreId) (h : ChanId) (u : Setup) (d : Dir) (k : Nat) (s t : State) (shapes : List (Dir × Word × Nat)) :
    Prop :=
  (d = .read ∧ ∃ j < subCount u.tsz u.sp, t.chan c h = (s.chan c h).after s.cfg.layout u k j 0 ∧
    IssuedFailing d (k * (subCount u.tsz u.sp + subCount u.tsz u.dp) + j) s t shapes) ∨
  (d = .write ∧ ∃ j < subCount u.tsz u.dp, t.chan c h = (s.chan c h).after s.cfg.layout u k (subCount u.tsz u.sp) j ∧
    IssuedFailing d (k * (subCount u.tsz u.sp + subCount u.tsz u.dp) + (subCount u.tsz u.sp + j)) s t shapes)

theorem ChunkFails.issued {u : Setup} {d : Dir} {k : Nat} {s t : State} {shapes : List (Dir × Word × Nat)}
    (a : ChunkFails c h u d k s t shapes) : ∃ n, IssuedFailing d n s t shapes := by
  rcases a with ⟨-, j, -, -, i⟩ | ⟨-, j, -, -, i⟩ <;> exact ⟨_, i⟩

/-- A chunk's registers and sub-accesses, where it completes and where it fails. -/
theorem chunk_spec {u : Setup} (s : State) (fs : subCount u.tsz u.sp * u.sp ≤ 64) (fd : subCount u.tsz u.dp * u.dp ≤ 64) :
    (∀ t, chunk c h u s = .ok () t → t.chan c h = (s.chan c h).after s.cfg.layout u 1 0 0 ∧
      Issued s t (chunkTrace u ((s.chan c h).sai s.cfg.layout) ((s.chan c h).dai s.cfg.layout)
        (s.chan c h).dsa (s.chan c h).dta)) ∧
    ∀ d t, chunk c h u s = .fault d t → ChunkFails c h u d 0 s t (chunkTrace u ((s.chan c h).sai s.cfg.layout)
      ((s.chan c h).dai s.cfg.layout) (s.chan c h).dsa (s.chan c h).dta) := by
  have hr := readPhase_spec (c := c) (h := h) u.sp (subCount u.tsz u.sp) 0 (drawnBuffer s.draws)
    (s.setDraws (s.draws + 64))
  simp only [setDraws_chan, setDraws_cfg] at hr
  have key : ∀ x, chunk c h u s = x →
      (∀ t, x = .ok () t → t.chan c h = (s.chan c h).after s.cfg.layout u 1 0 0 ∧
        Issued s t (chunkTrace u ((s.chan c h).sai s.cfg.layout) ((s.chan c h).dai s.cfg.layout)
          (s.chan c h).dsa (s.chan c h).dta)) ∧
      ∀ d t, x = .fault d t → ChunkFails c h u d 0 s t (chunkTrace u ((s.chan c h).sai s.cfg.layout)
        ((s.chan c h).dai s.cfg.layout) (s.chan c h).dsa (s.chan c h).dta) := by
    intro x ex
    rcases chunk_phases ex with ⟨buf, s1, e1, hw⟩ | ⟨d, s1, e1, rfl⟩ | ⟨r, e1, rfl⟩
    · obtain ⟨c1, i1⟩ := hr.1 buf s1 e1
      have k1 : s1.cfg = s.cfg := by
        rcases readPhase_ends (c := c) (h := h) u.sp (subCount u.tsz u.sp) 0 (drawnBuffer s.draws)
          (s.setDraws (s.draws + 64)) with ⟨v, t, e, k⟩ | ⟨d, t, e, k⟩ | ⟨a, b, n, e, -⟩ <;> rw [e1] at e <;> cases e
        exact k.cfg
      have hl : buf.length = 64 := by
        rw [readPhase_bufLength _ _ _ _ _ (by simpa using fs) e1, length_drawnBuffer]
      have hs := writePhase_spec (c := c) (h := h) u.dp buf (subCount u.tsz u.dp) 0 s1 (by omega)
      simp only [c1, k1, Channel.dai] at hs
      rcases hw with ⟨s2, e2, rfl⟩ | ⟨d, s2, e2, rfl⟩ | ⟨r, e2, rfl⟩
      · refine ⟨fun t e => ?_, fun d t e => nomatch e⟩
        cases e
        obtain ⟨c2, i2⟩ := hs.1 s2 e2
        refine ⟨?_, (i1.congr rfl rfl).trans (i2.congr rfl rfl)⟩
        rw [decrementCount_chan_self, c2]
        simp [Channel.after, Channel.dai, Channel.sai]
      · refine ⟨fun t e => (nomatch e), fun d' t e => ?_⟩
        cases e
        obtain ⟨rfl, j, hj, c2, i2⟩ := hs.2 d s2 e2
        refine .inr ⟨rfl, j, hj, ?_, ((i1.congr (s' := s) rfl rfl).failing i2).count (by simp)⟩
        rw [c2]
        simp [Channel.after, Channel.dai, Channel.sai]
      · exact ⟨fun t e => (nomatch e), fun d t e => nomatch e⟩
    · refine ⟨fun t e => (nomatch e), fun d' t e => ?_⟩
      cases e
      obtain ⟨rfl, j, hj, c1, i1⟩ := hr.2 d s1 e1
      refine .inl ⟨rfl, j, hj, ?_, ((i1.congr (s' := s) rfl rfl).append _).count (by simp)⟩
      rw [c1]
      simp [Channel.after, Channel.sai]
    · exact ⟨fun t e => (nomatch e), fun d t e => nomatch e⟩
  exact key _ rfl

/-! ### The loop (R159, R165) -/

theorem Channel.after_zero (l : FieldLayout) (u : Setup) (ch : Channel) : ch.after l u 0 0 0 = ch := by
  simp [Channel.after]

theorem Channel.after_after (l : FieldLayout) (u : Setup) (ch : Channel) (k j m : Nat) :
    (ch.after l u 1 0 0).after l u k j m = ch.after l u (k + 1) j m := by
  have e1 : ∀ n x : Nat, 1 * n + 0 + (k * n + x) = (k + 1) * n + x := fun n x => by ring
  simp only [Channel.after, Channel.sai, Channel.dai, stepped_add, e1, BitVec.sub_sub, ← BitVec.ofNat_add,
    Nat.add_comm 1 k]

/-- The registers and the sub-accesses of `n` chunks, where they complete and where one fails. -/
theorem chunkLoop_spec {u : Setup} (fs : subCount u.tsz u.sp * u.sp ≤ 64) (fd : subCount u.tsz u.dp * u.dp ≤ 64) :
    ∀ (n : Nat) (s : State),
    (∀ t, chunkLoop c h u n s = .ok () t → t.chan c h = (s.chan c h).after s.cfg.layout u n 0 0 ∧
      Issued s t (transferTrace u ((s.chan c h).sai s.cfg.layout) ((s.chan c h).dai s.cfg.layout) n
        (s.chan c h).dsa (s.chan c h).dta)) ∧
    ∀ d t, chunkLoop c h u n s = .fault d t → ∃ k < n, ChunkFails c h u d k s t
      (transferTrace u ((s.chan c h).sai s.cfg.layout) ((s.chan c h).dai s.cfg.layout) n (s.chan c h).dsa (s.chan c h).dta)
  | 0, s => by
    refine ⟨fun t e => ?_, fun d t e => nomatch e⟩
    cases e
    exact ⟨(Channel.after_zero _ _ _).symm, Issued.refl s⟩
  | n + 1, s => by
    rw [chunkLoop]
    have hc := chunk_spec (c := c) (h := h) (u := u) s fs fd
    rcases chunk_ends (c := c) (h := h) u s with ⟨_, s1, e1, k1⟩ | ⟨d, s1, e1, k1⟩ | ⟨dir, a, m, e1, -⟩ <;>
      rw [e1] <;> dsimp only
    · obtain ⟨c1, i1⟩ := hc.1 s1 e1
      obtain ⟨ok, bad⟩ := chunkLoop_spec fs fd n s1
      rw [c1, k1.cfg] at ok bad
      refine ⟨fun t e => ?_, fun d t e => ?_⟩
      · obtain ⟨c2, i2⟩ := ok t e
        refine ⟨by rw [c2, Channel.after_after], i1.trans ?_⟩
        simpa [Channel.after, Channel.sai, Channel.dai] using i2
      · obtain ⟨k, hk, hx⟩ := bad d t e
        refine ⟨k + 1, by omega, ?_⟩
        have count : ∀ n x : Nat, n + (k * n + x) = (k + 1) * n + x := fun n x => by ring
        simp only [ChunkFails, Channel.after_after, k1.cfg, c1] at hx ⊢
        refine hx.imp (fun ⟨hd, j, hj, hc, i2⟩ => ⟨hd, j, hj, hc, ?_⟩) fun ⟨hd, j, hj, hc, i2⟩ => ⟨hd, j, hj, hc, ?_⟩
        all_goals simpa [Channel.after, Channel.sai, Channel.dai, count, transferTrace] using i1.failing i2
    · refine ⟨fun t e => (nomatch e), fun d' t e => ?_⟩
      cases e
      exact ⟨0, by omega, (hc.2 d s1 e1).imp (fun ⟨hd, j, hj, hc, i⟩ => ⟨hd, j, hj, hc, i.append _⟩)
        fun ⟨hd, j, hj, hc, i⟩ => ⟨hd, j, hj, hc, i.append _⟩⟩
    · exact ⟨fun t e => (nomatch e), fun d t e => nomatch e⟩

end Sys2Proof.Machine
end

