-- ==== Sys2Proof/Laws/Copy.lean ====
section
/-! SUPPORT. What the phases, a chunk and a transfer do to RAM, where RAM answers every sub-access, and that a transfer is
refused where the first sub-access RAM does not answer reaches the block's own window. -/

namespace Sys2Proof.Machine

variable {c : CoreId} {h : ChanId}

/-! ### Runs of bytes -/

theorem byteAddr_add (a : Word) (m n : Nat) : byteAddr (byteAddr a m) n = byteAddr a (m + n) := by
  simp only [byteAddr, BitVec.add_assoc, ← BitVec.ofNat_add]

theorem stepped_true (a : Word) (n w : Nat) : stepped true a n w = byteAddr a (n * w) := rfl

theorem Memory.readBytes_add (m : Memory) (a : Word) (n k : Nat) :
    m.readBytes a (n + k) = m.readBytes a n ++ m.readBytes (byteAddr a n) k := by
  simp only [Memory.readBytes, List.range_add, List.map_append, List.map_map]
  congr 1
  refine List.map_congr_left fun j _ => ?_
  simp only [Function.comp, byteAddr_add]

theorem Memory.writeBytes_append : ∀ (x y : List Byte) (m : Memory) (a : Word),
    m.writeBytes a (x ++ y) = (m.writeBytes a x).writeBytes (byteAddr a x.length) y
  | [], y, m, a => by simp [Memory.writeBytes, byteAddr_zero]
  | b :: x, y, m, a => by
    rw [List.cons_append, Memory.writeBytes, Memory.writeBytes, Memory.writeBytes_append x y, byteAddr_add,
      List.length_cons, Nat.add_comm]

/-! ### Single sub-accesses that RAM answers -/

theorem memRead_ram {a : Word} {n : Nat} {s : State} (hr : route s.cfg .read a n = .ram) :
    memRead a n s = .ok (s.mem.readBytes a n) (s.issue (.read a n (some (s.mem.readBytes a n)))) := by
  unfold memRead; rw [hr]; rfl

theorem memWrite_ram {a : Word} {bytes : List Byte} {s : State} (hr : route s.cfg .write a bytes.length = .ram) :
    memWrite a bytes s = .ok () ((s.issue (.write a bytes true)).setMem (s.mem.writeBytes a bytes)) := by
  unfold memWrite; rw [hr]; rfl

theorem memRead_unmapped {a : Word} {n : Nat} {s : State} (hr : route s.cfg .read a n = .unmapped) :
    memRead a n s = .fault .read (s.issue (.read a n none)) := by
  unfold memRead; rw [hr]; rfl

theorem memWrite_unmapped {a : Word} {bytes : List Byte} {s : State} (hr : route s.cfg .write a bytes.length = .unmapped) :
    memWrite a bytes s = .fault .write ((s.issue (.write a bytes false)).setMem (memoryAfterFault a bytes s)) := by
  unfold memWrite; rw [hr]; rfl

theorem memWrite_own {a : Word} {bytes : List Byte} {s : State} (hr : route s.cfg .write a bytes.length = .own) :
    memWrite a bytes s = .refuse (.reentrant .write a bytes.length) := by
  unfold memWrite; rw [hr]

theorem memRead_own {a : Word} {n : Nat} {s : State} (hr : route s.cfg .read a n = .own) :
    memRead a n s = .refuse (.reentrant .read a n) := by
  unfold memRead; rw [hr]

/-! ### The bytes of a phase -/

theorem runAddr_first {inc : Bool} {a : Word} {w j : Nat} (hj : j < w) : runAddr inc a w j = byteAddr a j := by
  simp [runAddr, Nat.div_eq_of_lt hj, Nat.mod_eq_of_lt hj]

theorem runAddr_later {inc : Bool} {a : Word} {w : Nat} (hw : 0 < w) (k p : Nat) :
    runAddr inc (stepped inc a k w) w p = runAddr inc a w (k * w + p) := by
  simp only [runAddr, stepped_add, Nat.mul_comm k w, Nat.mul_add_div hw, Nat.mul_add_mod]

theorem runAddr_true {a : Word} {w : Nat} (p : Nat) : runAddr true a w p = byteAddr a p := by
  rw [runAddr, stepped_true, byteAddr_add, Nat.div_add_mod']

/-- The bytes that a phase of `k` reads gets from RAM. -/
def runBytes (m : Memory) (inc : Bool) (a : Word) (w k : Nat) : List Byte :=
  (List.range (k * w)).map fun p => m.read (runAddr inc a w p).toNat

@[simp] theorem length_runBytes (m : Memory) (inc : Bool) (a : Word) (w k : Nat) :
    (runBytes m inc a w k).length = k * w := by simp [runBytes]

theorem runBytes_succ {m : Memory} {inc : Bool} {a : Word} {w : Nat} (hw : 0 < w) (k : Nat) :
    runBytes m inc a w (k + 1) = m.readBytes a w ++ runBytes m inc (stepped inc a 1 w) w k := by
  simp only [runBytes, Memory.readBytes]
  rw [show (k + 1) * w = w + k * w by ring, List.range_add, List.map_append, List.map_map]
  congr 1
  · exact List.map_congr_left fun j hj => by rw [runAddr_first (List.mem_range.1 hj)]
  · exact List.map_congr_left fun p _ => by simp [runAddr_later hw]

/-! ### Phases over RAM -/

theorem AllRam.append {cfg : Config} {x y : List (Dir × Word × Nat)} (ha : AllRam cfg (x ++ y)) :
    AllRam cfg x ∧ AllRam cfg y :=
  ⟨fun op ho => ha op (List.mem_append_left y ho), fun op ho => ha op (List.mem_append_right x ho)⟩

/-- The read phase over RAM fills the buffer with the bytes it reaches, and changes no RAM. -/
theorem readPhase_ram {sp : Nat} (hw : 0 < sp) : ∀ (k i : Nat) (buf : Buffer) (s : State), i + k * sp ≤ buf.length →
    AllRam s.cfg (phaseTrace .read ((s.chan c h).sai s.cfg.layout) (s.chan c h).dsa sp k) →
    ∃ t, readPhase c h sp k i buf s =
        .ok (buf.fill i (runBytes s.mem ((s.chan c h).sai s.cfg.layout) (s.chan c h).dsa sp k)) t ∧
      t.mem = s.mem ∧ t.cfg = s.cfg ∧ t.draws = s.draws
  | 0, i, buf, s, hl, _ => ⟨s, by simp [readPhase, Buffer.fill, runBytes], rfl, rfl, rfl⟩
  | k + 1, i, buf, s, hl, ha => by
    rw [Nat.add_mul] at hl
    rw [phaseTrace_succ] at ha
    have hr : route s.cfg .read (s.chan c h).dsa sp = .ram := ha (.read, _, sp) (by simp)
    have hlen : (s.mem.readBytes (s.chan c h).dsa sp).length = sp := by simp
    have hf := length_fill (buf := buf) (i := i) (bytes := s.mem.readBytes (s.chan c h).dsa sp) (by omega)
    obtain ⟨t, e, r⟩ := readPhase_ram hw k (i + sp) (buf.fill i (s.mem.readBytes (s.chan c h).dsa sp))
      (advanceSrc c h sp (s.issue (.read (s.chan c h).dsa sp (some (s.mem.readBytes (s.chan c h).dsa sp)))))
      (by omega) (by
        rw [advanceSrc_chan_self]
        simp only [issue_chan, issue_cfg, advanceSrc_cfg, advanced_eq_stepped]
        exact fun op ho => ha op (List.mem_cons_of_mem _ ho))
    refine ⟨t, ?_, r⟩
    rw [readPhase, memRead_ram hr]
    dsimp only
    rw [e, advanceSrc_chan_self]
    simp only [issue_chan, issue_cfg, advanceSrc_cfg, advanceSrc_mem, issue_mem, advanced_eq_stepped, Channel.sai]
    rw [runBytes_succ hw, ← fill_fill (by simp; omega), hlen]

/-- The write phase over RAM writes the buffer's bytes, sub-access after sub-access. -/
theorem writePhase_ram (dp : Nat) (buf : Buffer) : ∀ (k i : Nat) (s : State), i + k * dp ≤ buf.length →
    AllRam s.cfg (phaseTrace .write ((s.chan c h).dai s.cfg.layout) (s.chan c h).dta dp k) →
    ∃ t, writePhase c h dp buf k i s = .ok () t ∧
      t.mem = (List.range k).foldl (fun m j =>
        m.writeBytes (stepped ((s.chan c h).dai s.cfg.layout) (s.chan c h).dta j dp) (buf.slice (i + j * dp) dp)) s.mem ∧
      t.cfg = s.cfg ∧ t.draws = s.draws
  | 0, i, s, _, _ => ⟨s, by simp [writePhase]⟩
  | k + 1, i, s, hl, ha => by
    rw [Nat.add_mul] at hl
    rw [phaseTrace_succ] at ha
    have hn : (buf.slice i dp).length = dp := length_slice (by omega)
    have hr : route s.cfg .write (s.chan c h).dta (buf.slice i dp).length = .ram := hn.symm ▸ ha (.write, _, dp) (by simp)
    obtain ⟨t, e, hm, r⟩ := writePhase_ram dp buf k (i + dp)
      (advanceDst c h dp ((s.issue (.write (s.chan c h).dta (buf.slice i dp) true)).setMem
        (s.mem.writeBytes (s.chan c h).dta (buf.slice i dp)))) (by omega) (by
        rw [advanceDst_chan_self]
        simp only [setMem_chan, setMem_cfg, issue_chan, issue_cfg, advanceDst_cfg, advanced_eq_stepped]
        exact fun op ho => ha op (List.mem_cons_of_mem _ ho))
    refine ⟨t, ?_, ?_, r⟩
    · rw [writePhase, memWrite_ram hr]
      exact e
    · rw [hm, advanceDst_chan_self]
      simp only [setMem_chan, setMem_cfg, issue_chan, issue_cfg, advanceDst_mem, advanceDst_cfg, setMem_mem,
        advanced_eq_stepped, Channel.dai, stepped_add]
      rw [List.range_succ_eq_map, List.foldl_cons, List.foldl_map]
      simp only [stepped_zero, Nat.zero_mul, Nat.add_zero]
      congr 1
      funext m j
      rw [Nat.succ_eq_add_one, Nat.add_comm 1 j, show i + dp + j * dp = i + (j + 1) * dp by ring]

/-! ### A chunk and a transfer over RAM (R55, R71) -/

/-- The port widths are positive, and no phase is empty or runs over the buffer. -/
structure Fits (u : Setup) : Prop where
  sp    : 0 < u.sp
  dp    : 0 < u.dp
  read  : readRun u ≤ 64
  write : writeRun u ≤ 64
  dpRun : u.dp ≤ writeRun u

theorem Fits.of_setup {cfg : Config} {ch : Channel} {u : Setup} (e : setup cfg c h ch = .ok u) : Fits u := by
  obtain ⟨hs, hd, ht, -⟩ := setup_bounds e
  have h1 := portWidth_cases hs
  have h2 := portWidth_cases hd
  have h3 := transferSize_cases ht
  have hk : 0 < subCount u.tsz u.dp := Nat.div_pos (by omega) (by omega)
  exact ⟨by omega, by omega, (setup_fits e).1, (setup_fits e).2, Nat.le_mul_of_pos_left _ hk⟩

/-- A size no smaller than a width is a multiple of it. -/
theorem subCount_mul {cfg : Config} {ch : Channel} {u : Setup} (e : setup cfg c h ch = .ok u) :
    (u.sp ≤ u.tsz → readRun u = u.tsz) ∧ (u.dp ≤ u.tsz → writeRun u = u.tsz) := by
  obtain ⟨hs, hd, ht, -⟩ := setup_bounds e
  have h1 := portWidth_cases hs
  have h2 := portWidth_cases hd
  have h3 := transferSize_cases ht
  have fit : ∀ t w : Nat, (t = 4 ∨ t = 1 ∨ t = 2 ∨ t = 16 ∨ t = 32 ∨ t = 64) → (w = 4 ∨ w = 1 ∨ w = 2) → w ≤ t →
      subCount t w * w = t := by
    rintro t w (rfl | rfl | rfl | rfl | rfl | rfl) (rfl | rfl | rfl) <;> decide
  exact ⟨fit _ _ h3 h1, fit _ _ h3 h2⟩

/-- The buffer after the read phase is as long as it was. -/
theorem Fits.length_buffer {u : Setup} (fit : Fits u) (draws : Nat) (m : Memory) (inc : Bool) (a : Word) :
    ((drawnBuffer draws).fill 0 (runBytes m inc a u.sp (subCount u.tsz u.sp))).length = 64 := by
  have hr := fit.read
  unfold readRun at hr
  rw [length_fill (by simpa using hr), length_drawnBuffer]

/-- What a sub-access of the write phase sends: the bytes of `sentByte` at its buffer positions. -/
theorem slice_sent {u : Setup} (fit : Fits u) (sai : Bool) (draws : Nat) (src : Word) (m : Memory) {i : Nat}
    (hi : i + u.dp ≤ writeRun u) :
    ((drawnBuffer draws).fill 0 (runBytes m sai src u.sp (subCount u.tsz u.sp))).slice i u.dp =
      (List.range u.dp).map fun j => sentByte u sai draws src m (i + j) := by
  have hr := fit.read
  have hw := fit.write
  have hb := fit.length_buffer draws m sai src
  refine List.ext_getElem (by rw [length_slice (by omega)]; simp) fun j h1 h2 => ?_
  rw [length_slice (by omega)] at h1
  have hq : i + j < writeRun u := by omega
  simp only [Buffer.slice, List.getElem_take, List.getElem_drop, List.getElem_map, List.getElem_range, sentByte,
    Nat.div_eq_of_lt hq, Nat.mod_eq_of_lt hq, Nat.zero_mul, Nat.zero_add, Nat.mul_zero, Nat.add_zero]
  split
  · next hlt =>
    simp only [Buffer.fill, List.take_zero, List.nil_append]
    rw [List.getElem_append_left (by simpa [readRun] using hlt)]
    simp [runBytes]
  · next hge =>
    simp only [Buffer.fill, List.take_zero, List.nil_append]
    rw [List.getElem_append_right (by simpa [readRun] using hge)]
    unfold readRun at hge
    simp only [length_runBytes, List.getElem_drop, drawnBuffer, List.getElem_map, List.getElem_range]
    congr 2
    omega

/-- A chunk over RAM reads its unit whole and then writes it. -/
theorem chunk_ram {u : Setup} {s : State} (fit : Fits u)
    (ha : AllRam s.cfg (chunkTrace u ((s.chan c h).sai s.cfg.layout) ((s.chan c h).dai s.cfg.layout)
      (s.chan c h).dsa (s.chan c h).dta)) :
    ∃ t, chunk c h u s = .ok () t ∧ t.draws = s.draws + 64 ∧
      t.mem = unitImage u ((s.chan c h).dai s.cfg.layout) (s.chan c h).dta
        (sentByte u ((s.chan c h).sai s.cfg.layout) s.draws (s.chan c h).dsa s.mem) s.mem := by
  have fr : subCount u.tsz u.sp * u.sp ≤ 64 := fit.read
  have fw : subCount u.tsz u.dp * u.dp ≤ 64 := fit.write
  obtain ⟨ar, aw⟩ := AllRam.append ha
  obtain ⟨t1, e1, m1, c1, d1⟩ := readPhase_ram (c := c) (h := h) fit.sp (subCount u.tsz u.sp) 0 (drawnBuffer s.draws)
    (s.setDraws (s.draws + 64)) (by simpa using fr) (by simpa [phaseTrace] using ar)
  have r1 := ((readPhase_spec (c := c) (h := h) _ _ _ _ _).1 _ _ e1).1
  simp only [setDraws_chan, setDraws_cfg, setDraws_mem, setDraws_draws] at r1 m1 c1 e1 d1
  obtain ⟨t2, e2, m2, c2, d2⟩ := writePhase_ram (c := c) (h := h) u.dp
    ((drawnBuffer s.draws).fill 0 (runBytes s.mem ((s.chan c h).sai s.cfg.layout) (s.chan c h).dsa u.sp
      (subCount u.tsz u.sp))) (subCount u.tsz u.dp) 0 t1
    (by rw [fit.length_buffer]; omega) (by rw [r1, c1]; exact aw)
  refine ⟨decrementCount c h t2, ?_, by rw [← d1, ← d2]; rfl, ?_⟩
  · unfold chunk
    rw [e1]
    dsimp only
    rw [e2]
  · rw [decrementCount_mem, m2, m1, r1, c1, unitImage]
    refine List.foldl_ext _ _ _ fun m k hk => ?_
    have hk' : k * u.dp + u.dp ≤ writeRun u := by
      rw [← Nat.succ_mul]; exact Nat.mul_le_mul_right _ (List.mem_range.1 hk)
    rw [Nat.zero_add, slice_sent fit _ _ _ _ hk']
    rfl

/-- The registers after a chunk that completes. -/
theorem chunk_after {u : Setup} {s t : State} (fit : Fits u) (e : chunk c h u s = .ok () t) :
    t.chan c h = (s.chan c h).after s.cfg.layout u 1 0 0 ∧ t.cfg = s.cfg := by
  refine ⟨((chunk_spec s fit.read fit.write).1 t e).1, ?_⟩
  rcases chunk_ends (c := c) (h := h) u s with ⟨_, x, e', k⟩ | ⟨d, x, e', k⟩ | ⟨a, b, m, e', -⟩ <;> rw [e] at e' <;> cases e'
  exact k.cfg

/-- A transfer over RAM reads and writes its units one after another. -/
theorem chunkLoop_ram {u : Setup} (fit : Fits u) : ∀ (n : Nat) (s : State),
    AllRam s.cfg (transferTrace u ((s.chan c h).sai s.cfg.layout) ((s.chan c h).dai s.cfg.layout) n
      (s.chan c h).dsa (s.chan c h).dta) →
    ∃ t, chunkLoop c h u n s = .ok () t ∧
      t.mem = transferImage u ((s.chan c h).sai s.cfg.layout) ((s.chan c h).dai s.cfg.layout) n s.draws
        (s.chan c h).dsa (s.chan c h).dta s.mem
  | 0, s, _ => ⟨s, rfl, rfl⟩
  | n + 1, s, ha => by
    obtain ⟨a1, a2⟩ := AllRam.append ha
    obtain ⟨t1, e1, d1, m1⟩ := chunk_ram fit a1
    obtain ⟨c1, k1⟩ := chunk_after fit e1
    obtain ⟨t, e, m⟩ := chunkLoop_ram fit n t1 (by rw [c1, k1]; simpa [Channel.after, Channel.sai, Channel.dai] using a2)
    refine ⟨t, by rw [chunkLoop, e1]; exact e, ?_⟩
    rw [m, m1, d1, c1, k1]
    simp [Channel.after, Channel.sai, Channel.dai, transferImage]

/-! ### Incrementing addresses: units copied one after another -/

/-- Sub-accesses at successive addresses write one run of bytes. -/
theorem unitImage_true {u : Setup} (dst : Word) (f : Nat → Byte) (m : Memory) :
    unitImage u true dst f m = m.writeBytes dst ((List.range (writeRun u)).map f) := by
  unfold unitImage writeRun
  generalize subCount u.tsz u.dp = n
  induction n with
  | zero => simp [Memory.writeBytes]
  | succ n ih =>
    rw [List.range_succ, List.foldl_append, ih, List.foldl_cons, List.foldl_nil, Nat.succ_mul, List.range_add,
      List.map_append, Memory.writeBytes_append, stepped_true]
    simp [Function.comp_def]

theorem transferImage_copies {u : Setup} (fit : Fits u) (hr : readRun u = u.tsz) (hw : writeRun u = u.tsz) :
    ∀ (n draws : Nat) (src dst : Word) (m : Memory),
      transferImage u true true n draws src dst m = copyUnits u.tsz n src dst m
  | 0, _, _, _, _ => rfl
  | n + 1, draws, src, dst, m => by
    rw [transferImage, copyUnits, transferImage_copies fit hr hw n, stepped_true, stepped_true, unitImage_true, hw]
    rw [show subCount u.tsz u.sp * u.sp = u.tsz from hr, show subCount u.tsz u.dp * u.dp = u.tsz from hw]
    congr 2
    refine List.map_congr_left fun j hj => ?_
    have hj := List.mem_range.1 hj
    simp [sentByte, hr, hw, Nat.div_eq_of_lt hj, Nat.mod_eq_of_lt hj, hj, runAddr_true]

/-! ### A sub-access that reaches the block's own window (R77) -/

theorem StopsAtOwn.append {cfg : Config} {x y : List (Dir × Word × Nat)} {op : Dir × Word × Nat}
    (hs : StopsAtOwn cfg (x ++ y) op) : StopsAtOwn cfg x op ∨ (AllRam cfg x ∧ StopsAtOwn cfg y op) := by
  obtain ⟨b, a, e, hb, ho⟩ := hs
  rcases List.append_eq_append_iff.1 e with ⟨z, rfl, e'⟩ | ⟨z, rfl, e'⟩
  · exact .inr ⟨(AllRam.append hb).1, z, a, e', (AllRam.append hb).2, ho⟩
  · cases z with
    | nil => exact .inr ⟨by simpa using hb, [], a, by simpa using e'.symm, fun _ hx => absurd hx List.not_mem_nil, ho⟩
    | cons w z =>
      rw [List.cons_append, List.cons.injEq] at e'
      obtain ⟨rfl, rfl⟩ := e'
      exact .inl ⟨b, z, rfl, hb, ho⟩

theorem StopsAtOwn.nil {cfg : Config} {op : Dir × Word × Nat} : ¬ StopsAtOwn cfg [] op := by
  rintro ⟨b, a, e, -⟩
  simp at e

theorem StopsAtOwn.cons {cfg : Config} {x op : Dir × Word × Nat} {y : List (Dir × Word × Nat)}
    (hs : StopsAtOwn cfg (x :: y) op) :
    (op = x ∧ route cfg x.1 x.2.1 x.2.2 = .own) ∨ (route cfg x.1 x.2.1 x.2.2 = .ram ∧ StopsAtOwn cfg y op) := by
  obtain ⟨b, a, e, hb, ho⟩ := hs
  cases b with
  | nil =>
    obtain ⟨rfl, rfl⟩ := List.cons.inj e
    exact .inl ⟨rfl, ho⟩
  | cons z b =>
    obtain ⟨rfl, rfl⟩ := List.cons.inj e
    exact .inr ⟨hb x (by simp), b, a, rfl, fun o hx => hb o (List.mem_cons_of_mem _ hx), ho⟩

theorem readPhase_own (sp : Nat) {op : Dir × Word × Nat} : ∀ (k i : Nat) (buf : Buffer) (s : State),
    StopsAtOwn s.cfg (phaseTrace .read ((s.chan c h).sai s.cfg.layout) (s.chan c h).dsa sp k) op →
    readPhase c h sp k i buf s = .refuse (.reentrant op.1 op.2.1 op.2.2)
  | 0, _, _, _, hs => absurd hs StopsAtOwn.nil
  | k + 1, i, buf, s, hs => by
    rw [phaseTrace_succ] at hs
    rcases hs.cons with ⟨rfl, ho⟩ | ⟨hr, hs⟩
    · rw [readPhase, memRead_own ho]
    · rw [readPhase, memRead_ram hr]
      refine readPhase_own sp k _ _ _ ?_
      simpa [advanced_eq_stepped, Channel.sai] using hs

theorem writePhase_own (dp : Nat) (buf : Buffer) {op : Dir × Word × Nat} : ∀ (k i : Nat) (s : State),
    i + k * dp ≤ buf.length →
    StopsAtOwn s.cfg (phaseTrace .write ((s.chan c h).dai s.cfg.layout) (s.chan c h).dta dp k) op →
    writePhase c h dp buf k i s = .refuse (.reentrant op.1 op.2.1 op.2.2)
  | 0, _, _, _, hs => absurd hs StopsAtOwn.nil
  | k + 1, i, s, hl, hs => by
    rw [Nat.add_mul] at hl
    rw [phaseTrace_succ] at hs
    have hn : (buf.slice i dp).length = dp := length_slice (by omega)
    rcases hs.cons with ⟨rfl, ho⟩ | ⟨hr, hs⟩
    · rw [writePhase, memWrite_own (hn.symm ▸ ho), hn]
    · rw [writePhase, memWrite_ram (hn.symm ▸ hr)]
      refine writePhase_own dp buf k _ _ (by omega) ?_
      simpa [advanced_eq_stepped, Channel.dai] using hs

theorem chunk_own {u : Setup} {s : State} (fit : Fits u) {op : Dir × Word × Nat}
    (hs : StopsAtOwn s.cfg (chunkTrace u ((s.chan c h).sai s.cfg.layout) ((s.chan c h).dai s.cfg.layout)
      (s.chan c h).dsa (s.chan c h).dta) op) :
    chunk c h u s = .refuse (.reentrant op.1 op.2.1 op.2.2) := by
  have fr : subCount u.tsz u.sp * u.sp ≤ 64 := fit.read
  have fw : subCount u.tsz u.dp * u.dp ≤ 64 := fit.write
  unfold chunk
  rcases hs.append with hs | ⟨ha, hs⟩
  · rw [readPhase_own (op := op) _ _ _ _ _ (by simpa [phaseTrace] using hs)]
  · obtain ⟨t1, e1, -, c1, -⟩ := readPhase_ram (c := c) (h := h) fit.sp (subCount u.tsz u.sp) 0 (drawnBuffer s.draws)
      (s.setDraws (s.draws + 64)) (by simpa using fr) (by simpa [phaseTrace] using ha)
    have r1 := ((readPhase_spec (c := c) (h := h) _ _ _ _ _).1 _ _ e1).1
    simp only [setDraws_chan, setDraws_cfg] at r1 c1
    rw [e1]
    dsimp only
    rw [writePhase_own (op := op)]
    · rw [fit.length_buffer]; omega
    · rw [r1, c1]; exact hs

theorem chunkLoop_own {u : Setup} (fit : Fits u) {op : Dir × Word × Nat} : ∀ (n : Nat) (s : State),
    StopsAtOwn s.cfg (transferTrace u ((s.chan c h).sai s.cfg.layout) ((s.chan c h).dai s.cfg.layout) n
      (s.chan c h).dsa (s.chan c h).dta) op →
    chunkLoop c h u n s = .refuse (.reentrant op.1 op.2.1 op.2.2)
  | 0, _, hs => absurd hs StopsAtOwn.nil
  | n + 1, s, hs => by
    rw [chunkLoop]
    rcases hs.append with hs | ⟨ha, hs⟩
    · rw [chunk_own fit hs]
    · obtain ⟨t1, e1, -⟩ := chunk_ram fit ha
      obtain ⟨c1, k1⟩ := chunk_after fit e1
      rw [e1]
      refine chunkLoop_own fit n t1 ?_
      rw [c1, k1]
      simpa [Channel.after, Channel.sai, Channel.dai] using hs

/-- A ready channel's run is refused where its transfer stops at the block's own window. -/
theorem runChannel_own {s : State} {u : Setup} {op : Dir × Word × Nat} (hr : Ready c h u s)
    (hs : StopsAtOwn s.cfg (transferTrace u ((s.chan c h).sai s.cfg.layout) ((s.chan c h).dai s.cfg.layout)
      (s.chan c h).dtc.toNat (s.chan c h).dsa (s.chan c h).dta) op) :
    runChannel c h s = .error (.reentrant op.1 op.2.1 op.2.2) := by
  rw [runChannel_ready hr, chunkLoop_own (Fits.of_setup hr.2.2) _ _ hs]

/-! ### What a refusal means -/

theorem runChannel_refused {s : State} {r : Refusal} (e : runChannel c h s = .error r) :
    ∃ dir a n, r = .reentrant dir a n ∧ route s.cfg dir a n = .own := by
  unfold runChannel at e
  split at e
  · split at e
    · unfold transfer at e
      split at e
      · rename_i e1
        split at e1
        · cases e1
        · rcases chunkLoop_ends (c := c) (h := h) _ _ _ with ⟨_, t, e2, -⟩ | ⟨d, t, e2, -⟩ | ⟨dir, a, n, e2, ho⟩ <;>
            rw [e2] at e1 <;> cases e1
          cases e
          exact ⟨dir, a, n, rfl, ho⟩
      · cases e
      · cases e
    · cases e
  · cases e

theorem runChannels_refused : ∀ (hs : List ChanId) {s : State} {r : Refusal}, runChannels c hs s = .error r →
    ∃ dir a n, r = .reentrant dir a n ∧ route s.cfg dir a n = .own
  | [], _, _, e => nomatch e
  | x :: xs, s, r, e => by
    rw [runChannels] at e
    split at e
    · next e1 => cases e; exact runChannel_refused e1
    · next o s1 e1 => exact (runChannel_keeps e1).cfg ▸ runChannels_refused xs e

/-- A pass is refused where the first of its channels that does not answer is. -/
theorem runChannels_append : ∀ (hs : List ChanId) {hs' : List ChanId} {s s1 : State} {r : Refusal},
    runChannels c hs s = .ok s1 → runChannel c h s1 = .error r → runChannels c (hs ++ h :: hs') s = .error r
  | [], _, _, _, _, e, e' => by cases e; rw [List.nil_append, runChannels, e']
  | x :: xs, _, s, _, _, e, e' => by
    rw [runChannels] at e
    rw [List.cons_append, runChannels]
    cases e1 : runChannel c x s with
    | error r' => rw [e1] at e; cases e
    | ok y => rw [e1] at e; exact runChannels_append xs e e'

end Sys2Proof.Machine
end

