-- ==== Sys2Proof/Laws/Data.lean ====
section
/-! SUPPORT. The data a transfer moves, over any downstream: what its reads get, what its writes send and what RAM holds after
the sub-accesses, where it completes and where one fails (R54, R161 to R163, R167). -/

namespace Sys2Proof.Machine

variable {c : CoreId} {h : ChanId}

/-! ### RAM and reads along a run of sub-accesses -/

theorem ramAfter_append (cfg : Config) : ∀ (x y : List BusOp) (m : Memory),
    ramAfter cfg (x ++ y) m = ramAfter cfg y (ramAfter cfg x m)
  | [], _, _ => rfl
  | .read _ _ _ :: x, y, m => ramAfter_append cfg x y m
  | .write _ _ _ :: x, y, _ => ramAfter_append cfg x y _

theorem ReadsAnswered.nil (cfg : Config) (m : Memory) : ReadsAnswered cfg m [] := by
  intro b a n bytes r e
  simp at e

theorem ReadsAnswered.append {cfg : Config} {m : Memory} {x y : List BusOp} (hx : ReadsAnswered cfg m x)
    (hy : ReadsAnswered cfg (ramAfter cfg x m) y) : ReadsAnswered cfg m (x ++ y) := by
  intro b a n bytes r e
  rcases List.append_eq_append_iff.1 e with ⟨z, rfl, e'⟩ | ⟨z, rfl, e'⟩
  · rw [ramAfter_append]
    exact hy z a n bytes r e'
  · cases z with
    | nil =>
      have hy' := hy [] a n bytes r (by simpa using e'.symm)
      rw [List.append_nil] at hy'
      exact hy'
    | cons w z =>
      rw [List.cons_append, List.cons.injEq] at e'
      obtain ⟨rfl, -⟩ := e'
      exact hx b a n bytes z rfl

theorem ReadsAnswered.single {cfg : Config} {m : Memory} {op : BusOp}
    (hop : ∀ a n bytes, op = .read a n (some bytes) →
      bytes.length = n ∧ (route cfg .read a n = .ram → bytes = m.readBytes a n)) : ReadsAnswered cfg m [op] := by
  intro b a n bytes r e
  cases b with
  | nil => obtain ⟨rfl, -⟩ := List.cons.inj e; exact hop a n bytes rfl
  | cons w b => simp at e

theorem ReadsAnswered.snoc {cfg : Config} {m : Memory} {x : List BusOp} {op : BusOp} (hx : ReadsAnswered cfg m x)
    (hop : succeeded op = false) : ReadsAnswered cfg m (x ++ [op]) :=
  hx.append (.single fun _ _ _ e => by rw [e] at hop; cases hop)

/-- The sub-accesses `ops` lead from `s` to `t`: they are recorded, RAM is theirs, and their reads were answered. -/
structure Traced (s t : State) (ops : List BusOp) : Prop where
  cfg   : t.cfg = s.cfg
  bus   : t.bus = s.bus ++ ops
  ram   : t.mem = ramAfter s.cfg ops s.mem
  reads : ReadsAnswered s.cfg s.mem ops

/-- The sub-accesses `ops` lead from `s` to a state where `op` fails, which leaves RAM alone outside the bytes it sends. -/
structure FailedAfter (s t : State) (ops : List BusOp) (op : BusOp) : Prop where
  cfg    : t.cfg = s.cfg
  bus    : t.bus = s.bus ++ ops ++ [op]
  failed : succeeded op = false
  ram    : ∀ a, ¬ writesTo a op → t.mem.read a = (ramAfter s.cfg ops s.mem).read a
  reads  : ReadsAnswered s.cfg s.mem ops

theorem Traced.refl (s : State) : Traced s s [] := ⟨rfl, by simp, rfl, .nil _ _⟩

theorem Traced.trans {s t r : State} {x y : List BusOp} (a : Traced s t x) (b : Traced t r y) : Traced s r (x ++ y) where
  cfg := b.cfg.trans a.cfg
  bus := by rw [b.bus, a.bus, List.append_assoc]
  ram := by rw [b.ram, a.ram, a.cfg, ramAfter_append]
  reads := a.reads.append (by rw [← a.ram, ← a.cfg]; exact b.reads)

theorem Traced.failing {s t r : State} {x y : List BusOp} {op : BusOp} (a : Traced s t x) (b : FailedAfter t r y op) :
    FailedAfter s r (x ++ y) op where
  cfg := b.cfg.trans a.cfg
  bus := by rw [b.bus, a.bus, List.append_assoc s.bus]
  failed := b.failed
  ram := fun p hp => by rw [b.ram p hp, a.ram, a.cfg, ramAfter_append]
  reads := a.reads.append (by rw [← a.ram, ← a.cfg]; exact b.reads)

/-- Register changes before and after leave a trace as it is. -/
theorem Traced.congr {s s' t t' : State} {x : List BusOp} (a : Traced s t x) (hs : s'.cfg = s.cfg ∧ s'.bus = s.bus ∧ s'.mem = s.mem)
    (ht : t'.cfg = t.cfg ∧ t'.bus = t.bus ∧ t'.mem = t.mem) : Traced s' t' x := by
  obtain ⟨e1, e2, e3⟩ := hs
  obtain ⟨f1, f2, f3⟩ := ht
  exact ⟨by rw [f1, a.cfg, e1], by rw [f2, a.bus, e2], by rw [f3, a.ram, e1, e3], by rw [e1, e3]; exact a.reads⟩

theorem FailedAfter.congr {s s' t t' : State} {x : List BusOp} {op : BusOp} (a : FailedAfter s t x op)
    (hs : s'.cfg = s.cfg ∧ s'.bus = s.bus ∧ s'.mem = s.mem) (ht : t'.cfg = t.cfg ∧ t'.bus = t.bus ∧ t'.mem = t.mem) :
    FailedAfter s' t' x op := by
  obtain ⟨e1, e2, e3⟩ := hs
  obtain ⟨f1, f2, f3⟩ := ht
  exact ⟨by rw [f1, a.cfg, e1], by rw [f2, a.bus, e2], a.failed, fun p hp => by rw [f3, a.ram p hp, e1, e3],
    by rw [e1, e3]; exact a.reads⟩

/-- The sub-accesses recorded between two states are one list. -/
theorem FailedAfter.eq_of_bus {s t : State} {x y : List BusOp} {op op' : BusOp} (a : FailedAfter s t x op)
    (e : t.bus = s.bus ++ y ++ [op']) : x = y ∧ op = op' := by
  have he : x ++ [op] = y ++ [op'] := List.append_cancel_left (as := s.bus) (by simpa [a.bus] using e)
  obtain ⟨h1, h2⟩ := List.append_inj' he rfl
  exact ⟨h1, by simpa using h2⟩

/-! ### The sub-accesses -/

/-- What one read can do: it is answered, by RAM with the bytes RAM holds, or it fails, or it is refused (R161). -/
theorem memRead_data (a : Word) (n : Nat) (s : State) :
    (∃ bytes, bytes.length = n ∧ memRead a n s = .ok bytes (s.issue (.read a n (some bytes))) ∧
      Traced s (s.issue (.read a n (some bytes))) [.read a n (some bytes)]) ∨
    (memRead a n s = .fault .read (s.issue (.read a n none)) ∧
      FailedAfter s (s.issue (.read a n none)) [] (.read a n none)) ∨
    ∃ r, memRead a n s = .refuse r := by
  have hb : ∀ bytes : List Byte, bytes.length = n → (route s.cfg .read a n = .ram → bytes = s.mem.readBytes a n) →
      Traced s (s.issue (.read a n (some bytes))) [.read a n (some bytes)] := fun bytes h1 h2 =>
    ⟨rfl, rfl, rfl, .single fun a' n' b' e => by cases e; exact ⟨h1, h2⟩⟩
  have hf : FailedAfter s (s.issue (.read a n none)) [] (.read a n none) :=
    ⟨rfl, by simp, rfl, fun _ _ => rfl, .nil _ _⟩
  unfold memRead
  cases hr : route s.cfg .read a n with
  | own => exact .inr (.inr ⟨_, rfl⟩)
  | ram => exact .inl ⟨_, by simp, rfl, hb _ (by simp) fun _ => rfl⟩
  | device =>
    by_cases hd : Config.deviceAnswers s.bus a n = true
    · simp only [hd, if_true]
      exact .inl ⟨_, by simp, rfl, hb _ (by simp) (by simp [hr])⟩
    · simp only [hd]; exact .inr (.inl ⟨rfl, hf⟩)
  | unmapped => exact .inr (.inl ⟨rfl, hf⟩)

/-- What one write can do: it is taken, by RAM which then holds its bytes or by a device, or it fails, or it is refused
(R162). -/
theorem memWrite_data (a : Word) (bytes : List Byte) (s : State) :
    (∃ m, memWrite a bytes s = .ok () ((s.issue (.write a bytes true)).setMem m) ∧
      Traced s ((s.issue (.write a bytes true)).setMem m) [.write a bytes true]) ∨
    (memWrite a bytes s = .fault .write ((s.issue (.write a bytes false)).setMem (memoryAfterFault a bytes s)) ∧
      FailedAfter s ((s.issue (.write a bytes false)).setMem (memoryAfterFault a bytes s)) [] (.write a bytes false)) ∨
    ∃ r, memWrite a bytes s = .refuse r := by
  have hb : ∀ m, m = (if storedInRam s.cfg (.write a bytes true) then s.mem.writeBytes a bytes else s.mem) →
      Traced s ((s.issue (.write a bytes true)).setMem m) [.write a bytes true] := fun m hm =>
    ⟨rfl, rfl, hm, .single fun _ _ _ e => nomatch e⟩
  have hf : FailedAfter s ((s.issue (.write a bytes false)).setMem (memoryAfterFault a bytes s)) [] (.write a bytes false) :=
    ⟨rfl, by simp, rfl, fun x hx => read_memoryAfterFault_out fun j hj e => hx ⟨j, hj, e⟩, .nil _ _⟩
  unfold memWrite
  cases hr : route s.cfg .write a bytes.length with
  | own => exact .inr (.inr ⟨_, rfl⟩)
  | ram => exact .inl ⟨_, rfl, hb _ (by simp [storedInRam, hr])⟩
  | device =>
    by_cases hd : Config.deviceAccepts s.bus a bytes = true
    · simp only [hd, if_true]
      exact .inl ⟨_, rfl, hb _ (by simp [storedInRam, hr])⟩
    · simp only [hd]; exact .inr (.inl ⟨rfl, hf⟩)
  | unmapped => exact .inr (.inl ⟨rfl, hf⟩)

/-! ### The phases -/

/-- The read phase sends nothing and fills the buffer with what its reads got, one after another (R161). -/
theorem readPhase_data (sp : Nat) : ∀ (k i : Nat) (buf : Buffer) (s : State), i + k * sp ≤ buf.length →
    (∀ buf' t, readPhase c h sp k i buf s = .ok buf' t → ∃ ops, Traced s t ops ∧ t.draws = s.draws ∧
      ops.flatMap sent = [] ∧ (ops.flatMap received).length = k * sp ∧ buf' = buf.fill i (ops.flatMap received)) ∧
    ∀ d t, readPhase c h sp k i buf s = .fault d t → ∃ ops op, FailedAfter s t ops op ∧
      (ops ++ [op]).flatMap sent = []
  | 0, i, buf, s, _ => by
    refine ⟨fun buf' t e => ?_, fun d t e => nomatch e⟩
    cases e
    exact ⟨[], .refl s, rfl, rfl, by simp, by simp [Buffer.fill]⟩
  | k + 1, i, buf, s, hl => by
    rw [Nat.add_mul] at hl
    rw [readPhase]
    rcases memRead_data (s.chan c h).dsa sp s with ⟨bytes, hb, em, tr⟩ | ⟨em, fa⟩ | ⟨r, em⟩ <;> rw [em] <;> dsimp only
    · obtain ⟨ok, bad⟩ := readPhase_data sp k (i + sp) (buf.fill i bytes)
        (advanceSrc c h sp (s.issue (.read (s.chan c h).dsa sp (some bytes))))
        (by rw [length_fill (by omega)]; omega)
      have first := tr.congr (s' := s) (t' := advanceSrc c h sp (s.issue (.read (s.chan c h).dsa sp (some bytes))))
        ⟨rfl, rfl, rfl⟩ ⟨rfl, rfl, rfl⟩
      refine ⟨fun buf' t e => ?_, fun d t e => ?_⟩
      · obtain ⟨ops, ht, hd, hs, hn, rfl⟩ := ok buf' t e
        refine ⟨_, first.trans ht, hd, by simpa [sent] using hs, ?_, ?_⟩
        · simp only [List.flatMap_append, List.flatMap_cons, List.flatMap_nil, received, List.length_append, hn, hb]
          simp [Nat.add_mul, Nat.add_comm]
        · simp only [List.flatMap_append, List.flatMap_cons, List.flatMap_nil, received, List.append_nil]
          rw [← fill_fill (by omega), hb]
      · obtain ⟨ops, op, hf, hs⟩ := bad d t e
        exact ⟨_, op, first.failing hf, by simpa [sent] using hs⟩
    · refine ⟨fun buf' t e => (nomatch e), fun d t e => ?_⟩
      cases e
      exact ⟨[], _, fa, rfl⟩
    · exact ⟨fun buf' t e => (nomatch e), fun d t e => nomatch e⟩

/-- The write phase gets nothing and sends the buffer's bytes from `i` on, one after another (R162). -/
theorem writePhase_data (dp : Nat) (buf : Buffer) : ∀ (k i : Nat) (s : State), i + k * dp ≤ buf.length →
    (∀ t, writePhase c h dp buf k i s = .ok () t → ∃ ops, Traced s t ops ∧ t.draws = s.draws ∧
      ops.flatMap received = [] ∧ ops.flatMap sent <+: buf.drop i) ∧
    ∀ d t, writePhase c h dp buf k i s = .fault d t → ∃ ops op, FailedAfter s t ops op ∧
      (ops ++ [op]).flatMap received = [] ∧ (ops ++ [op]).flatMap sent <+: buf.drop i
  | 0, _, s, _ => by
    refine ⟨fun t e => ?_, fun d t e => nomatch e⟩
    cases e
    exact ⟨[], .refl s, rfl, rfl, List.nil_prefix⟩
  | k + 1, i, s, hl => by
    rw [Nat.add_mul] at hl
    have hsplit : buf.slice i dp ++ buf.drop (i + dp) = buf.drop i := by
      rw [Buffer.slice, ← List.drop_drop, List.take_append_drop]
    rw [writePhase]
    rcases memWrite_data (s.chan c h).dta (buf.slice i dp) s with ⟨m, em, tr⟩ | ⟨em, fa⟩ | ⟨r, em⟩ <;>
      rw [em] <;> dsimp only
    · obtain ⟨ok, bad⟩ := writePhase_data dp buf k (i + dp)
        (advanceDst c h dp ((s.issue (.write (s.chan c h).dta (buf.slice i dp) true)).setMem m)) (by omega)
      have first := tr.congr (s' := s)
        (t' := advanceDst c h dp ((s.issue (.write (s.chan c h).dta (buf.slice i dp) true)).setMem m))
        ⟨rfl, rfl, rfl⟩ ⟨rfl, rfl, rfl⟩
      refine ⟨fun t e => ?_, fun d t e => ?_⟩
      · obtain ⟨ops, ht, hd, hg, hs⟩ := ok t e
        refine ⟨_, first.trans ht, hd, by simpa [received] using hg, ?_⟩
        rw [← hsplit]
        simpa [sent] using hs
      · obtain ⟨ops, op, hf, hg, hs⟩ := bad d t e
        refine ⟨_, op, first.failing hf, by simpa [received] using hg, ?_⟩
        rw [← hsplit]
        simpa [sent] using hs
    · refine ⟨fun t e => (nomatch e), fun d t e => ?_⟩
      cases e
      refine ⟨[], _, fa, rfl, ?_⟩
      rw [← hsplit]
      simp [sent]
    · exact ⟨fun t e => (nomatch e), fun d t e => nomatch e⟩

/-! ### A chunk (R160 to R164) -/

theorem ChunkSends.of_reads {u : Setup} {draws : Nat} {ops : List BusOp} (hs : ops.flatMap sent = []) :
    ChunkSends u draws ops := by unfold ChunkSends; rw [hs]; exact List.nil_prefix

theorem chunk_data {u : Setup} (s : State) (fs : readRun u ≤ 64) (fd : writeRun u ≤ 64) :
    (∀ t, chunk c h u s = .ok () t → ∃ ops, Traced s t ops ∧ t.draws = s.draws + 64 ∧ ChunkSends u s.draws ops) ∧
    ∀ d t, chunk c h u s = .fault d t → ∃ ops op, FailedAfter s t ops op ∧ ChunkSends u s.draws (ops ++ [op]) := by
  have hr := readPhase_data (c := c) (h := h) u.sp (subCount u.tsz u.sp) 0 (drawnBuffer s.draws)
    (s.setDraws (s.draws + 64)) (by simpa [readRun] using fs)
  have key : ∀ x, chunk c h u s = x →
      (∀ t, x = .ok () t → ∃ ops, Traced s t ops ∧ t.draws = s.draws + 64 ∧ ChunkSends u s.draws ops) ∧
      ∀ d t, x = .fault d t → ∃ ops op, FailedAfter s t ops op ∧ ChunkSends u s.draws (ops ++ [op]) := by
    intro x ex
    rcases chunk_phases ex with ⟨buf, s1, e1, hw⟩ | ⟨d, s1, e1, rfl⟩ | ⟨r, e1, rfl⟩
    · obtain ⟨ops1, tr1, hd1, hs1, hn, rfl⟩ := hr.1 buf s1 e1
      have tr1 : Traced s s1 ops1 := tr1.congr ⟨rfl, rfl, rfl⟩ ⟨rfl, rfl, rfl⟩
      have hbuf : (drawnBuffer s.draws).fill 0 (ops1.flatMap received) =
          ops1.flatMap received ++ (drawnBuffer s.draws).drop (readRun u) := by simp [Buffer.fill, hn, readRun]
      have hl : ((drawnBuffer s.draws).fill 0 (ops1.flatMap received)).length = 64 := by
        rw [length_fill (by rw [hn]; simpa [readRun] using fs), length_drawnBuffer]
      have hp := writePhase_data (c := c) (h := h) u.dp _ (subCount u.tsz u.dp) 0 s1
        (by rw [hl, Nat.zero_add]; exact fd)
      rw [List.drop_zero, hbuf] at hp
      rw [hbuf] at hw
      rcases hw with ⟨s2, e2, rfl⟩ | ⟨d, s2, e2, rfl⟩ | ⟨r, e2, rfl⟩
      · refine ⟨fun t e => ?_, fun d t e => nomatch e⟩
        cases e
        obtain ⟨ops2, tr2, hd2, hg, hs2⟩ := hp.1 s2 e2
        exact ⟨_, tr1.trans (tr2.congr ⟨rfl, rfl, rfl⟩ ⟨rfl, rfl, rfl⟩), hd2.trans hd1,
          by simpa [ChunkSends, hs1, hg] using hs2⟩
      · refine ⟨fun t e => (nomatch e), fun d' t e => ?_⟩
        cases e
        obtain ⟨ops2, op, fa, hg, hs2⟩ := hp.2 d s2 e2
        refine ⟨_, op, tr1.failing fa, ?_⟩
        rw [ChunkSends, List.append_assoc, List.flatMap_append, hs1, List.flatMap_append (f := received), hg]
        simpa using hs2
      · exact ⟨fun t e => (nomatch e), fun d t e => nomatch e⟩
    · refine ⟨fun t e => (nomatch e), fun d' t e => ?_⟩
      cases e
      obtain ⟨ops, op, fa, hs⟩ := hr.2 d s1 e1
      exact ⟨ops, op, fa.congr ⟨rfl, rfl, rfl⟩ ⟨rfl, rfl, rfl⟩, .of_reads hs⟩
    · exact ⟨fun t e => (nomatch e), fun d t e => nomatch e⟩
  exact key _ rfl

/-! ### The loop (R159, R165) -/

theorem opsOfChunk_zero {u : Setup} {x y : List BusOp} (hx : x.length = subCount u.tsz u.sp + subCount u.tsz u.dp) :
    opsOfChunk u 0 (x ++ y) = x := by
  rw [opsOfChunk, Nat.zero_mul, List.drop_zero, ← hx, List.take_left]

theorem opsOfChunk_succ {u : Setup} {x y : List BusOp} (hx : x.length = subCount u.tsz u.sp + subCount u.tsz u.dp) (k : Nat) :
    opsOfChunk u (k + 1) (x ++ y) = opsOfChunk u k y := by
  unfold opsOfChunk
  rw [Nat.succ_mul, Nat.add_comm (k * _), ← List.drop_drop, ← hx, List.drop_left]

/-- A whole chunk before others: its own bytes first. -/
theorem SendsWhatItRead.cons {u : Setup} {draws : Nat} {x y : List BusOp}
    (hx : x.length = subCount u.tsz u.sp + subCount u.tsz u.dp) (h0 : ChunkSends u draws x)
    (hy : SendsWhatItRead u (draws + 64) y) : SendsWhatItRead u draws (x ++ y)
  | 0 => by rw [opsOfChunk_zero hx]; exact h0
  | k + 1 => by
    rw [opsOfChunk_succ hx, show draws + 64 * (k + 1) = draws + 64 + 64 * k by ring]
    exact hy k

theorem SendsWhatItRead.nil (u : Setup) (draws : Nat) : SendsWhatItRead u draws [] := fun k => by
  simpa [opsOfChunk] using ChunkSends.of_reads (ops := []) rfl

/-- A part of one chunk, and none after it. -/
theorem SendsWhatItRead.part {u : Setup} {draws : Nat} {x : List BusOp}
    (hx : x.length ≤ subCount u.tsz u.sp + subCount u.tsz u.dp) (h0 : ChunkSends u draws x) : SendsWhatItRead u draws x
  | 0 => by
    rw [opsOfChunk, Nat.zero_mul, List.drop_zero, List.take_of_length_le hx]
    exact h0
  | k + 1 => by
    rw [opsOfChunk, List.drop_of_length_le (by rw [Nat.succ_mul]; omega), List.take_nil]
    exact .of_reads rfl

/-- The data of `n` chunks, where they complete and where one fails. -/
theorem chunkLoop_data {u : Setup} (fs : readRun u ≤ 64) (fd : writeRun u ≤ 64) : ∀ (n : Nat) (s : State),
    (∀ t, chunkLoop c h u n s = .ok () t → ∃ ops, Traced s t ops ∧ t.draws = s.draws + 64 * n ∧
      SendsWhatItRead u s.draws ops) ∧
    ∀ d t, chunkLoop c h u n s = .fault d t → ∃ ops op, FailedAfter s t ops op ∧ SendsWhatItRead u s.draws (ops ++ [op])
  | 0, s => by
    refine ⟨fun t e => ?_, fun d t e => nomatch e⟩
    cases e
    exact ⟨[], .refl s, rfl, .nil u s.draws⟩
  | n + 1, s => by
    have hc := chunk_spec (c := c) (h := h) (u := u) s fs fd
    have hd := chunk_data (c := c) (h := h) (u := u) s fs fd
    rw [chunkLoop]
    cases e1 : chunk c h u s with
    | ok x s1 =>
      obtain ⟨-, ops', hb', hm, -⟩ := hc.1 s1 e1
      obtain ⟨ops1, tr1, hd1, h1⟩ := hd.1 s1 e1
      have hl : ops1.length = subCount u.tsz u.sp + subCount u.tsz u.dp := by
        rw [← chunkTrace_length u, ← hm, List.length_map, List.append_cancel_left (tr1.bus.symm.trans hb')]
      obtain ⟨ok, bad⟩ := chunkLoop_data fs fd n s1
      rw [hd1] at ok bad
      refine ⟨fun t e => ?_, fun d t e => ?_⟩
      · obtain ⟨ops, tr, hdr, h2⟩ := ok t e
        exact ⟨_, tr1.trans tr, by omega, .cons hl h1 h2⟩
      · obtain ⟨ops, op, fa, h2⟩ := bad d t e
        exact ⟨_, op, tr1.failing fa, by rw [List.append_assoc]; exact .cons hl h1 h2⟩
    | fault d s1 =>
      refine ⟨fun t e => (nomatch e), fun d' t e => ?_⟩
      cases e
      obtain ⟨n', ops', op', hb', -, hp, -⟩ := (hc.2 d s1 e1).issued
      obtain ⟨ops, op, fa, h1⟩ := hd.2 d s1 e1
      refine ⟨ops, op, fa, .part ?_ h1⟩
      obtain ⟨rfl, rfl⟩ := fa.eq_of_bus hb'
      rw [← List.length_map (f := shape)]
      exact hp.length_le.trans (chunkTrace_length ..).le
    | refuse r => exact ⟨fun t e => (nomatch e), fun d t e => nomatch e⟩

end Sys2Proof.Machine
end

