-- ==== Sys2Proof/Laws/Decode.lean ====
section
/-! SUPPORT. The register map and the access record, each said once: which offset selects what, and that a record carries its
access whole. -/

namespace Sys2Proof

/-! ### Offsets and selectors (R24, R35, R83) -/

theorem CoReg.offset_toNat (c : CoreId) (r : CoReg) : (CoReg.offset c r).toNat = 0x300 + 0x100 * c.val + r.sel := by
  revert r; fin_cases c <;> intro r <;> cases r <;> rfl

theorem ChReg.offset_toNat (c : CoreId) (h : ChanId) (r : ChReg) :
    (ChReg.offset c h r).toNat = 0x100 * c.val + 0x20 * h.val + r.sel := by
  revert r; fin_cases c <;> fin_cases h <;> intro r <;> cases r <;> rfl

theorem CoReg.sel_le (r : CoReg) : r.sel ≤ 0x10 := by cases r <;> decide
theorem ChReg.sel_le (r : ChReg) : r.sel ≤ 0x1c := by cases r <;> decide

theorem ChReg.ofSel_iff (s : BitVec 5) (r : ChReg) : ChReg.ofSel s = some r ↔ s.toNat = r.sel := by
  unfold ChReg.ofSel
  split <;> rename_i e <;> cases r <;> simp_all [ChReg.sel]

theorem CoReg.ofSel_iff (s : BitVec 8) (r : CoReg) : CoReg.ofSel s = some r ↔ s.toNat = r.sel := by
  unfold CoReg.ofSel
  split <;> rename_i e <;> cases r <;> simp_all [CoReg.sel]

/-! ### Indices (R84) -/

theorem coreIndex_iff (cfg : Config) (n : Nat) (c : CoreId) : coreIndex cfg n = some c ↔ c.val < cfg.numCores ∧ n = c.val := by
  unfold coreIndex
  constructor
  · intro e
    split at e <;> [skip; cases e]
    split at e <;> [skip; cases e]
    cases e
    exact ⟨by assumption, rfl⟩
  · rintro ⟨h, rfl⟩
    rw [dif_pos c.isLt, if_pos h]

theorem chanIndex_iff (cfg : Config) (n : Nat) (h : ChanId) :
    chanIndex cfg n = some h ↔ h.val < cfg.numChannels ∧ n = h.val := by
  unfold chanIndex
  constructor
  · intro e
    split at e <;> [skip; cases e]
    split at e <;> [skip; cases e]
    cases e
    exact ⟨by assumption, rfl⟩
  · rintro ⟨hh, rfl⟩
    rw [dif_pos h.isLt, if_pos hh]

/-! ### The two forms (R82, R83) -/

theorem locateCh_iff (cfg : Config) (off : Word) (c : CoreId) (h : ChanId) (r : ChReg) :
    locateCh cfg off = .ch c h r ↔ c.val < cfg.numCores ∧ h.val < cfg.numChannels ∧
      off.toNat / 256 % 4 = c.val ∧ off.toNat / 32 % 8 = h.val ∧ off.toNat % 32 = r.sel := by
  unfold locateCh
  have e1 : (off.extractLsb' 8 2).toNat = off.toNat / 256 % 4 := by
    simp [BitVec.extractLsb'_toNat, Nat.shiftRight_eq_div_pow]
  have e2 : (off.extractLsb' 5 3).toNat = off.toNat / 32 % 8 := by
    simp [BitVec.extractLsb'_toNat, Nat.shiftRight_eq_div_pow]
  have e3 : (off.extractLsb' 0 5).toNat = off.toNat % 32 := by simp [BitVec.extractLsb'_toNat]
  constructor
  · intro e
    split at e <;> cases e
    rename_i a b d
    rw [coreIndex_iff] at a
    rw [chanIndex_iff] at b
    rw [ChReg.ofSel_iff] at d
    omega
  · rintro ⟨h1, h2, h3, h4, h5⟩
    rw [(coreIndex_iff cfg _ c).2 ⟨h1, e1.trans h3⟩, (chanIndex_iff cfg _ h).2 ⟨h2, e2.trans h4⟩,
      (ChReg.ofSel_iff _ r).2 (e3.trans h5)]

theorem locateCr_iff (cfg : Config) (off : Word) (c : CoreId) (r : CoReg) (hl : 0x300 ≤ off.toNat) :
    locateCr cfg off = .co c r ↔
      c.val < cfg.numCores ∧ (off.toNat - 0x300) / 256 % 4 = c.val ∧ off.toNat % 256 = r.sel := by
  unfold locateCr
  have e0 : (off - chBoundary).toNat = off.toNat - 0x300 := by
    have := off.isLt
    simp only [chBoundary, BitVec.toNat_sub]
    simp
    omega
  have e1 : ((off - chBoundary).extractLsb' 8 2).toNat = (off.toNat - 0x300) / 256 % 4 := by
    rw [BitVec.extractLsb'_toNat, e0]
    simp [Nat.shiftRight_eq_div_pow]
  have e3 : (off.extractLsb' 0 8).toNat = off.toNat % 256 := by simp [BitVec.extractLsb'_toNat]
  constructor
  · intro e
    split at e <;> cases e
    rename_i a d
    rw [coreIndex_iff] at a
    rw [CoReg.ofSel_iff] at d
    omega
  · rintro ⟨h1, h3, h5⟩
    rw [(coreIndex_iff cfg _ c).2 ⟨h1, e1.trans h3⟩, (CoReg.ofSel_iff _ r).2 (e3.trans h5)]

theorem locateCh_ne_co (cfg : Config) (off : Word) (c : CoreId) (r : CoReg) : locateCh cfg off ≠ .co c r := by
  intro e
  unfold locateCh at e
  split at e <;> cases e

theorem locateCr_ne_ch (cfg : Config) (off : Word) (c : CoreId) (h : ChanId) (r : ChReg) :
    locateCr cfg off ≠ .ch c h r := by
  intro e
  unfold locateCr at e
  split at e <;> cases e

/-- The offset of a register that exists selects it. -/
theorem locate_chReg {cfg : Config} {c : CoreId} {h : ChanId} (he : chanExists cfg c h = true) (r : ChReg) :
    locate cfg (ChReg.offset c h r) = .ch c h r := by
  simp only [chanExists, coreExists, Bool.and_eq_true, decide_eq_true_eq] at he
  have ho := ChReg.offset_toNat c h r
  have hs := ChReg.sel_le r
  have hc := c.isLt
  have hh := h.isLt
  unfold locate
  rw [if_pos (by rw [ho]; simp [chBoundary]; omega), locateCh_iff, ho]
  exact ⟨he.1, he.2, by omega, by omega, by omega⟩

theorem locate_coReg {cfg : Config} {c : CoreId} (he : coreExists cfg c = true) (r : CoReg) :
    locate cfg (CoReg.offset c r) = .co c r := by
  simp only [coreExists, decide_eq_true_eq] at he
  have ho := CoReg.offset_toNat c r
  have hs := CoReg.sel_le r
  have hc := c.isLt
  unfold locate
  rw [if_neg (by rw [ho]; simp [chBoundary]; omega), locateCr_iff _ _ _ _ (by omega), ho]
  exact ⟨he, by omega, by omega⟩

/-- What an offset selects exists under the configuration (R84). -/
theorem locate_exists {cfg : Config} {off : Word} :
    (∀ c h r, locate cfg off = .ch c h r → chanExists cfg c h = true) ∧
    ∀ c r, locate cfg off = .co c r → coreExists cfg c = true := by
  constructor
  · intro c h r e
    unfold locate at e
    split at e
    · have := (locateCh_iff cfg off c h r).1 e
      simp [chanExists, coreExists, this.1, this.2.1]
    · exact absurd e (locateCr_ne_ch _ _ _ _ _)
  · intro c r e
    unfold locate at e
    split at e
    · exact absurd e (locateCh_ne_co _ _ _ _)
    · rename_i hl
      have := (locateCr_iff cfg off c r (by simpa [chBoundary] using hl)).1 e
      simp [coreExists, this.1]

/-! ### Accesses and records -/

/-- The access of a well-formed instruction decodes to it. -/
theorem decodeAccess_access {cfg : Config} {i : Instr} (hw : i.wf cfg = true) : decodeAccess cfg i.access = .ok i := by
  cases i <;> simp only [Instr.wf, badOffset, Bool.and_eq_true, decide_eq_true_eq] at hw <;>
    simp only [Instr.access, decodeAccess, if_true]
  all_goals first
    | rw [locate_chReg hw]; rfl
    | rw [locate_coReg hw]; rfl
    | rw [hw.2]; rfl

theorem wordOfBytes_bytesOfWord (w : Word) :
    wordOfBytes (w.extractLsb' 0 8) (w.extractLsb' 8 8) (w.extractLsb' 16 8) (w.extractLsb' 24 8) = w := by
  unfold wordOfBytes
  apply BitVec.eq_of_getLsbD_eq
  intro i hi
  simp only [BitVec.getLsbD_append, BitVec.getLsbD_extractLsb']
  by_cases h1 : i < 8
  · simp [h1]
  · by_cases h2 : i - 8 < 8
    · simp [h1, h2, show 8 + (i - 8) = i by omega]
    · by_cases h3 : i - 8 - 8 < 8
      · simp [h1, h2, h3, show 16 + (i - 8 - 8) = i by omega]
      · simp [h1, h2, h3, show 24 + (i - 8 - 8 - 8) = i by omega, show i - 8 - 8 - 8 < 8 by omega]

/-- A record gives back the 4-byte access it carries, and the bytes after it. -/
theorem ofBytes_read (off : Word) (rest : List Byte) :
    Access.ofBytes ((Access.read off 4).bytes ++ rest) = .ok (.read off 4, rest) := by
  simp only [Access.bytes, bytesOfWord, List.cons_append, List.nil_append, Access.ofBytes, wordOfBytes_bytesOfWord]
  rfl

theorem ofBytes_write (off v : Word) (rest : List Byte) :
    Access.ofBytes ((Access.write off 4 v).bytes ++ rest) = .ok (.write off 4 v, rest) := by
  simp only [Access.bytes, bytesOfWord, List.cons_append, List.nil_append, Access.ofBytes, wordOfBytes_bytesOfWord]
  rfl

/-- The bytes of a number are the bytes it was made from. -/
theorem bytesOfNat_foldr (l : List Byte) :
    l.foldr (fun b n => b.toNat + 256 * n) 0 < 256 ^ l.length ∧
    bytesOfNat l.length (l.foldr (fun b n => b.toNat + 256 * n) 0) = l := by
  induction l with
  | nil => simp [bytesOfNat]
  | cons b l ih =>
    have hb := b.isLt
    simp only [List.foldr_cons, List.length_cons, bytesOfNat, pow_succ]
    refine ⟨by omega, ?_⟩
    have e1 : (b.toNat + 256 * l.foldr (fun b n => b.toNat + 256 * n) 0) / 256 =
        l.foldr (fun b n => b.toNat + 256 * n) 0 := by omega
    rw [e1, ih.2]
    congr 1
    apply BitVec.eq_of_toNat_eq
    simp
    omega

/-! ### What a device's configuration guarantees (R52, R211) -/

theorem Config.ok_bounds {cfg : Config} (hok : cfg.ok = true) :
    (1 ≤ cfg.numChannels ∧ cfg.numChannels ≤ 5) ∧ (1 ≤ cfg.numCores ∧ cfg.numCores ≤ 2) ∧
    cfg.downstream.isSome = true ∧ cfg.leastWindow ≤ cfg.windowSize := by
  simp only [Config.ok, Config.valid, Config.failing, Config.inRange, Bool.and_eq_true, decide_eq_true_eq,
    List.isEmpty_iff, List.append_eq_nil_iff, ite_eq_left_iff, List.cons_ne_nil, imp_false, not_not] at hok
  exact ⟨hok.1.1.1, hok.1.1.2, hok.1.2, hok.2⟩

end Sys2Proof
end

