-- ==== Sys2Proof/Laws/Image.lean ====
section
/-! SUPPORT. What RAM reads after the chunks of a transfer, byte by byte: where they wrote, and everywhere else. -/

namespace Sys2Proof.Machine

/-! ### One chunk -/

theorem wf_unitImage {u : Setup} {dai : Bool} {dst : Word} {f : Nat → Byte} {m : Memory} (hm : m.wf = true) :
    (unitImage u dai dst f m).wf = true := by
  unfold unitImage
  generalize List.range (subCount u.tsz u.dp) = ks
  induction ks generalizing m with
  | nil => exact hm
  | cons k ks ih => exact ih (Memory.wf_writeBytes _ _ hm)

/-- A chunk leaves every address alone that its write phase does not reach. -/
theorem unitImage_out {u : Setup} (fit : Fits u) {dai : Bool} {dst : Word} {f : Nat → Byte} {x : Nat} {m : Memory}
    (hx : ∀ q < writeRun u, x ≠ (runAddr dai dst u.dp q).toNat) : (unitImage u dai dst f m).read x = m.read x := by
  unfold unitImage
  have key : ∀ (ks : List Nat) (m : Memory), (∀ k ∈ ks, k < subCount u.tsz u.dp) →
      (ks.foldl (fun m k => m.writeBytes (stepped dai dst k u.dp) ((List.range u.dp).map fun j => f (k * u.dp + j)))
        m).read x = m.read x := by
    intro ks
    induction ks with
    | nil => exact fun _ _ => rfl
    | cons k ks ih =>
      intro m hk
      rw [List.foldl_cons, ih _ fun y hy => hk y (List.mem_cons_of_mem _ hy), Memory.read_writeBytes_out]
      intro j hj
      rw [List.length_map, List.length_range] at hj
      have hlt : (k + 1) * u.dp ≤ writeRun u := Nat.mul_le_mul_right _ (hk k (by simp))
      rw [Nat.succ_mul] at hlt
      have := hx (k * u.dp + j) (by omega)
      rwa [← runAddr_later fit.dp, runAddr_first hj] at this
  exact key _ m fun k hk => List.mem_range.1 hk

/-- A chunk with an incrementing destination leaves there the bytes it sent. -/
theorem unitImage_in_true {u : Setup} (fit : Fits u) {dst : Word} {f : Nat → Byte} {m : Memory} (hm : m.wf = true)
    {q : Nat} (hq : q < writeRun u) : (unitImage u true dst f m).read (byteAddr dst q).toNat = f q := by
  have := fit.write
  rw [unitImage_true, Memory.read_writeBytes_in _ _ hm (by simp; omega) q (by simpa using hq)]
  simp

/-- A chunk with a fixed destination leaves there the last bytes it sent. -/
theorem unitImage_in_false {u : Setup} (fit : Fits u) {dst : Word} {f : Nat → Byte} {m : Memory} (hm : m.wf = true)
    {j : Nat} (hj : j < u.dp) :
    (unitImage u false dst f m).read (byteAddr dst j).toNat = f (writeRun u - u.dp + j) := by
  have h64 := fit.write
  have h1 := fit.dpRun
  obtain ⟨n, hn⟩ : ∃ n, subCount u.tsz u.dp = n + 1 := by
    refine Nat.exists_eq_succ_of_ne_zero fun e => ?_
    simp only [writeRun, e, Nat.zero_mul] at h1
    exact absurd fit.dp (by omega)
  have hr : writeRun u = n * u.dp + u.dp := by rw [writeRun, hn, Nat.succ_mul]
  have hw : (unitImage u false dst f
      m).read (byteAddr dst j).toNat = f (n * u.dp + j) := by
    have wf' : ((List.range n).foldl (fun m k =>
        m.writeBytes (stepped false dst k u.dp) ((List.range u.dp).map fun j => f (k * u.dp + j))) m).wf = true := by
      generalize List.range n = ks
      induction ks generalizing m with
      | nil => exact hm
      | cons k ks ih => exact ih (Memory.wf_writeBytes _ _ hm)
    rw [unitImage, hn, List.range_succ, List.foldl_append, List.foldl_cons, List.foldl_nil,
      show stepped false dst n u.dp = dst from rfl,
      Memory.read_writeBytes_in _ _ wf' (by simp; omega) j (by simpa using hj)]
    simp
  rw [hw, hr]
  congr 1
  omega

/-! ### The bytes sent -/

/-- The bytes that the chunks after the first send. -/
theorem sentByte_later {u : Setup} (fit : Fits u) (sai : Bool) (draws : Nat) (src : Word) (m : Memory) (q : Nat) :
    sentByte u sai (draws + 64) (stepped sai src (subCount u.tsz u.sp) u.sp) m q =
      sentByte u sai draws src m (writeRun u + q) := by
  have hw : 0 < writeRun u := Nat.lt_of_lt_of_le fit.dp fit.dpRun
  unfold sentByte
  rw [Nat.add_mod_left, Nat.add_div_left _ hw, runAddr_later fit.sp]
  rw [show subCount u.tsz u.sp * u.sp + (q / writeRun u * readRun u + q % writeRun u) =
      (q / writeRun u).succ * readRun u + q % writeRun u by rw [Nat.succ_mul]; unfold readRun; omega]
  rw [show draws + 64 + 64 * (q / writeRun u) + q % writeRun u =
      draws + 64 * (q / writeRun u).succ + q % writeRun u by omega]

/-- The bytes sent depend on the source's bytes alone. -/
theorem sentByte_congr {u : Setup} {sai : Bool} {draws n : Nat} {src : Word} {m m' : Memory}
    (hm : ∀ p < n * readRun u, m'.read (runAddr sai src u.sp p).toNat = m.read (runAddr sai src u.sp p).toNat) {q : Nat}
    (hq : q < n * writeRun u) : sentByte u sai draws src m' q = sentByte u sai draws src m q := by
  have hk : q / writeRun u < n := Nat.div_lt_of_lt_mul (by rwa [Nat.mul_comm])
  unfold sentByte
  split
  · next hlt =>
    refine hm _ ?_
    calc _ < (q / writeRun u + 1) * readRun u := by rw [Nat.succ_mul]; omega
      _ ≤ _ := Nat.mul_le_mul_right _ hk
  · rfl

/-! ### All chunks -/

/-- A transfer leaves every address alone that its writes do not reach. -/
theorem transferImage_out {u : Setup} (fit : Fits u) {sai dai : Bool} {x : Nat} :
    ∀ (n draws : Nat) (src dst : Word) (m : Memory), (∀ q < n * writeRun u, x ≠ (runAddr dai dst u.dp q).toNat) →
      (transferImage u sai dai n draws src dst m).read x = m.read x
  | 0, _, _, _, _, _ => rfl
  | n + 1, draws, src, dst, m, hx => by
    rw [Nat.succ_mul] at hx
    rw [transferImage, transferImage_out fit n, unitImage_out fit fun q hq => hx q (by omega)]
    intro q hq
    rw [runAddr_later fit.dp]
    exact hx _ (by unfold writeRun at *; omega)

/-- The premises of the statements below for the chunks after the first. -/
theorem disjoint_later {u : Setup} (fit : Fits u) {sai dai : Bool} {n : Nat} {src dst : Word}
    (hd : ∀ p < (n + 1) * readRun u, ∀ q < (n + 1) * writeRun u, runAddr sai src u.sp p ≠ runAddr dai dst u.dp q) :
    ∀ p < n * readRun u, ∀ q < n * writeRun u,
      runAddr sai (stepped sai src (subCount u.tsz u.sp) u.sp) u.sp p ≠
        runAddr dai (stepped dai dst (subCount u.tsz u.dp) u.dp) u.dp q := by
  intro p hp q hq
  rw [runAddr_later fit.sp, runAddr_later fit.dp]
  simp only [Nat.succ_mul] at hd
  exact hd _ (by unfold readRun at *; omega) _ (by unfold writeRun at *; omega)

/-- The first chunk leaves the sources of the later ones alone. -/
theorem source_kept {u : Setup} (fit : Fits u) {sai dai : Bool} {n : Nat} {src dst : Word} {f : Nat → Byte} {m : Memory}
    (hd : ∀ p < (n + 1) * readRun u, ∀ q < (n + 1) * writeRun u, runAddr sai src u.sp p ≠ runAddr dai dst u.dp q) :
    ∀ p < (n + 1) * readRun u, (unitImage u dai dst f m).read (runAddr sai src u.sp p).toNat =
      m.read (runAddr sai src u.sp p).toNat :=
  fun p hp => unitImage_out fit fun q hq e =>
    hd p hp q (by rw [Nat.succ_mul]; omega) (BitVec.eq_of_toNat_eq e)

/-- With an incrementing destination, each destination byte holds the byte sent to it. -/
theorem transferImage_in_true {u : Setup} (fit : Fits u) {sai : Bool} : ∀ (n draws : Nat) (src dst : Word) (m : Memory),
    m.wf = true → n * writeRun u < 2 ^ 32 →
    (∀ p < n * readRun u, ∀ q < n * writeRun u, runAddr sai src u.sp p ≠ runAddr true dst u.dp q) → ∀ q < n * writeRun u,
      (transferImage u sai true n draws src dst m).read (byteAddr dst q).toNat = sentByte u sai draws src m q
  | 0, _, _, _, _, _, _, _, q, hq => by simp at hq
  | n + 1, draws, src, dst, m, hm, hn, hd, q, hq => by
    rw [transferImage]
    have hn' := hn
    have hq' := hq
    rw [Nat.succ_mul] at hn' hq'
    by_cases hlt : q < writeRun u
    · rw [transferImage_out fit, unitImage_in_true fit hm hlt]
      intro p hp e
      rw [runAddr_later fit.dp, runAddr_true] at e
      have := byteAddr_inj (by omega) (by unfold writeRun at *; omega) e
      unfold writeRun at *; omega
    · have ih := transferImage_in_true fit n (draws + 64) (stepped sai src (subCount u.tsz u.sp) u.sp)
        (stepped true dst (subCount u.tsz u.dp) u.dp) (unitImage u true dst (sentByte u sai draws src m) m)
        (wf_unitImage hm) (by omega) (disjoint_later fit hd) (q - writeRun u) (by omega)
      rw [sentByte_later fit, show writeRun u + (q - writeRun u) = q by omega,
        sentByte_congr (source_kept fit hd) hq, stepped_true, byteAddr_add,
        show subCount u.tsz u.dp * u.dp + (q - writeRun u) = q by unfold writeRun at *; omega] at ih
      exact ih

/-- With a fixed destination, the destination holds the last bytes sent. -/
theorem transferImage_in_false {u : Setup} (fit : Fits u) {sai : Bool} {j : Nat} (hj : j < u.dp) :
    ∀ (n draws : Nat) (src dst : Word) (m : Memory), m.wf = true → 0 < n →
    (∀ p < n * readRun u, ∀ q < n * writeRun u, runAddr sai src u.sp p ≠ runAddr false dst u.dp q) →
      (transferImage u sai false n draws src dst m).read (byteAddr dst j).toNat =
        sentByte u sai draws src m (n * writeRun u - u.dp + j)
  | 1, draws, src, dst, m, hm, _, _ => by
    rw [transferImage, transferImage, unitImage_in_false fit hm hj, Nat.one_mul]
  | n + 2, draws, src, dst, m, hm, _, hd => by
    have hle := fit.dpRun
    have ih := transferImage_in_false fit hj (n + 1) (draws + 64) (stepped sai src (subCount u.tsz u.sp) u.sp)
      (stepped false dst (subCount u.tsz u.dp) u.dp) (unitImage u false dst (sentByte u sai draws src m) m)
      (wf_unitImage hm) (by omega) (disjoint_later fit hd)
    have e : writeRun u + ((n + 1) * writeRun u - u.dp + j) = (n + 2) * writeRun u - u.dp + j := by
      have : (n + 2) * writeRun u = (n + 1) * writeRun u + writeRun u := Nat.succ_mul _ _
      have := Nat.le_mul_of_pos_left (writeRun u) (by omega : 0 < n + 1)
      omega
    have hlt : (n + 2) * writeRun u - u.dp + j < (n + 2) * writeRun u := by
      have := Nat.le_mul_of_pos_left (writeRun u) (by omega : 0 < n + 2)
      omega
    rw [sentByte_later fit, e, sentByte_congr (source_kept fit hd) hlt] at ih
    exact ih

end Sys2Proof.Machine
end

