-- ==== Sys2Proof/Laws/OtherCore.lean ====
section
/-! SUPPORT. A pass over a core neither reads nor writes another core's bank (41_scheduler.md R149): each operation of the
engine and the scheduler commutes with replacing that bank. -/

namespace Sys2Proof.Machine

theorem setCore_comm (s : State) {c c' : CoreId} (k k' : CoreBank) (hc : c' ≠ c) :
    (s.setCore c' k').setCore c k = (s.setCore c k).setCore c' k' := by
  unfold State.setCore
  have : ∀ v : Vector CoreBank 2, (v.set c'.val k' c'.isLt).set c.val k c.isLt = (v.set c.val k c.isLt).set c'.val k' c'.isLt := by
    intro v
    apply Vector.set_comm
    intro e; exact hc (Fin.ext e)
  simp only [this]

/-- Applies a function to the state of a result of the engine. -/
def mapResult {α : Type} (f : State → State) : EngineResult α → EngineResult α
  | .ok x s => .ok x (f s)
  | .fault d s => .fault d (f s)
  | .refuse r => .refuse r

variable {c c' : CoreId} {h : ChanId} {k : CoreBank}

theorem core_setOther (hc : c' ≠ c) (s : State) : (s.setCore c' k).core c = s.core c := core_setCore_ne s k (Ne.symm hc)

theorem chan_setOther (hc : c' ≠ c) (s : State) (h) :
    (s.setCore c' k).chan c h = s.chan c h := by rw [State.chan, core_setOther hc]; rfl

theorem setChan_setOther (hc : c' ≠ c) (s : State) (h ch) :
    (s.setCore c' k).setChan c h ch = (s.setChan c h ch).setCore c' k := by
  unfold State.setChan; rw [core_setOther hc, setCore_comm _ _ _ hc]

theorem memRead_setOther (s : State) (a n) :
    memRead a n (s.setCore c' k) = mapResult (·.setCore c' k) (memRead a n s) := by
  unfold memRead
  rw [setCore_cfg]
  cases route s.cfg .read a n <;> try rfl
  dsimp only
  show (if Config.deviceAnswers s.bus a n = true then _ else _) = _
  split <;> rfl

theorem memWrite_setOther (s : State) (a b) :
    memWrite a b (s.setCore c' k) = mapResult (·.setCore c' k) (memWrite a b s) := by
  unfold memWrite
  rw [setCore_cfg]
  cases route s.cfg .write a b.length <;> try rfl
  dsimp only
  show (if Config.deviceAccepts s.bus a b = true then _ else _) = _
  split <;> rfl

theorem advanceSrc_setOther (hc : c' ≠ c) (s : State) (n) :
    advanceSrc c h n (s.setCore c' k) = (advanceSrc c h n s).setCore c' k := by
  unfold advanceSrc; simp only [chan_setOther hc, setChan_setOther hc, setCore_cfg]

theorem advanceDst_setOther (hc : c' ≠ c) (s : State) (n) :
    advanceDst c h n (s.setCore c' k) = (advanceDst c h n s).setCore c' k := by
  unfold advanceDst; simp only [chan_setOther hc, setChan_setOther hc, setCore_cfg]

theorem readPhase_setOther (hc : c' ≠ c) (sp) :
    ∀ n i buf (s : State), readPhase c h sp n i buf (s.setCore c' k) = mapResult (·.setCore c' k) (readPhase c h sp n i buf s) := by
  intro n
  induction n with
  | zero => intro _ _ _; rfl
  | succ n ih =>
    intro i buf s
    rw [readPhase, readPhase, chan_setOther hc, memRead_setOther]
    cases memRead (s.chan c h).dsa sp s with
    | ok b s1 => simp only [mapResult]; rw [advanceSrc_setOther hc, ih]; rfl
    | fault d s1 => rfl
    | refuse r => rfl

theorem writePhase_setOther (hc : c' ≠ c) (dp buf) :
    ∀ n i (s : State), writePhase c h dp buf n i (s.setCore c' k) = mapResult (·.setCore c' k) (writePhase c h dp buf n i s) := by
  intro n
  induction n with
  | zero => intro _ _; rfl
  | succ n ih =>
    intro i s
    rw [writePhase, writePhase, chan_setOther hc, memWrite_setOther]
    cases memWrite (s.chan c h).dta (buf.slice i dp) s with
    | ok b s1 => simp only [mapResult]; rw [advanceDst_setOther hc, ih]; rfl
    | fault d s1 => rfl
    | refuse r => rfl

theorem chunk_setOther (hc : c' ≠ c) (u) (s : State) :
    chunk c h u (s.setCore c' k) = mapResult (·.setCore c' k) (chunk c h u s) := by
  unfold chunk
  have e : (s.setCore c' k).setDraws ((s.setCore c' k).draws + 64) = (s.setDraws (s.draws + 64)).setCore c' k := rfl
  rw [e, readPhase_setOther hc]
  show (match mapResult _ (readPhase c h u.sp (subCount u.tsz u.sp) 0 (drawnBuffer s.draws) (s.setDraws (s.draws + 64))) with
    | .fault d s1 => _ | .refuse r => _ | .ok buf s1 => _ : EngineResult Unit) = _
  cases readPhase c h u.sp (subCount u.tsz u.sp) 0 (drawnBuffer s.draws) (s.setDraws (s.draws + 64)) with
  | ok b s1 =>
    simp only [mapResult]
    rw [writePhase_setOther hc]
    cases writePhase c h u.dp b (subCount u.tsz u.dp) 0 s1 with
    | ok x s2 => simp only [mapResult, decrementCount, chan_setOther hc, setChan_setOther hc]
    | fault d s1 => rfl
    | refuse r => rfl
  | fault d s1 => rfl
  | refuse r => rfl

theorem chunkLoop_setOther (hc : c' ≠ c) (u) :
    ∀ n (s : State), chunkLoop c h u n (s.setCore c' k) = mapResult (·.setCore c' k) (chunkLoop c h u n s) := by
  intro n
  induction n with
  | zero => intro _; rfl
  | succ n ih =>
    intro s
    rw [chunkLoop, chunkLoop, chunk_setOther hc]
    cases chunk c h u s with
    | ok b s1 => exact ih s1
    | fault d s1 => rfl
    | refuse r => rfl

/-- Applies a function to the state of a result of run-channel. -/
def mapRun (f : State → State) : Except Refusal (ChannelOutcome × State) → Except Refusal (ChannelOutcome × State)
  | .ok (o, s) => .ok (o, f s)
  | .error r => .error r

theorem runChannel_setOther (hc : c' ≠ c) (s : State) :
    runChannel c h (s.setCore c' k) = mapRun (·.setCore c' k) (runChannel c h s) := by
  have hr : runnable (s.setCore c' k) c h = runnable s c h := by simp only [runnable, core_setOther hc, chan_setOther hc, setCore_cfg]
  have halt : ∀ t : State, haltOutcome c h (t.setCore c' k) = (haltOutcome c h t).setCore c' k := by
    intro t; simp only [haltOutcome, core_setOther hc, chan_setOther hc, setChan_setOther hc, setCore_cfg, setCore_comm _ _ _ hc]
  have aerr : ∀ t : State, addressError c h (t.setCore c' k) = (addressError c h t).setCore c' k := by
    intro t; simp only [addressError, core_setOther hc, chan_setOther hc, setChan_setOther hc, setCore_cfg, setCore_comm _ _ _ hc]
  have lg : ∀ (t : State) d, (t.setCore c' k).logDiag d = (t.logDiag d).setCore c' k := fun _ _ => rfl
  have tend : ∀ t : State, transferEnd c h (t.setCore c' k) = (transferEnd c h t).setCore c' k := by
    intro t; unfold transferEnd; rw [chan_setOther hc, setCore_cfg]; split <;> rfl
  have comp : ∀ t : State, completeTransfer c h (t.setCore c' k) = (completeTransfer c h t).setCore c' k := by
    intro t; simp only [completeTransfer, chan_setOther hc, setChan_setOther hc, setCore_cfg]
  have desc : ∀ t : State, descriptorHalt c h (t.setCore c' k) = (descriptorHalt c h t).setCore c' k := by
    intro t; simp only [descriptorHalt, lg, core_setOther hc, setCore_cfg, setCore_comm _ _ _ hc]
  unfold runChannel transfer
  rw [hr, setCore_cfg, chan_setOther hc]
  split
  · split
    · cases setup s.cfg c h (s.chan c h) with
      | error d =>
        simp only [mapRun]
        rw [← halt]; rfl
      | ok u =>
        simp only
        rw [chunkLoop_setOther hc]
        cases chunkLoop c h u (s.chan c h).dtc.toNat s with
        | ok x s1 =>
          simp only [mapResult, mapRun, tend, comp]
        | fault d s1 => simp only [mapResult, mapRun, aerr]
        | refuse r => rfl
    · simp only [mapRun, desc]
  · rfl

theorem runChannels_setOther (hc : c' ≠ c) :
    ∀ hs (s : State), runChannels c hs (s.setCore c' k) = (runChannels c hs s).map (·.setCore c' k) := by
  intro hs
  induction hs with
  | nil => intro _; rfl
  | cons h hs ih =>
    intro s
    rw [runChannels, runChannels, runChannel_setOther hc]
    cases runChannel c h s with
    | error r => rfl
    | ok x => cases x; exact ih _

end Sys2Proof.Machine
end

