-- ==== Sys2Proof/Laws/PerInstr.lean ====
section
/-! SUPPORT. A property of every instruction as syntax, one lemma for each constructor. -/

namespace Sys2Proof.Laws.EncodeShape

/-- An instruction's record is nine bytes long, and its access is 4 bytes wide (R81, R99). -/
def Statement (i : Instr) : Prop :=
  (encode i).length = 9 ∧
  match i.access with
  | .read _ size => size = 4
  | .write _ size _ => size = 4

theorem rdDsa (c : CoreId) (h : ChanId) : Statement (.rdDsa c h) := ⟨rfl, rfl⟩
theorem wrDsa (c : CoreId) (h : ChanId) (v : Word) : Statement (.wrDsa c h v) := ⟨rfl, rfl⟩
theorem rdDta (c : CoreId) (h : ChanId) : Statement (.rdDta c h) := ⟨rfl, rfl⟩
theorem wrDta (c : CoreId) (h : ChanId) (v : Word) : Statement (.wrDta c h v) := ⟨rfl, rfl⟩
theorem rdDtc (c : CoreId) (h : ChanId) : Statement (.rdDtc c h) := ⟨rfl, rfl⟩
theorem wrDtc (c : CoreId) (h : ChanId) (v : Word) : Statement (.wrDtc c h v) := ⟨rfl, rfl⟩
theorem rdDrt (c : CoreId) (h : ChanId) : Statement (.rdDrt c h) := ⟨rfl, rfl⟩
theorem wrDrt (c : CoreId) (h : ChanId) (v : Word) : Statement (.wrDrt c h v) := ⟨rfl, rfl⟩
theorem rdDcs (c : CoreId) (h : ChanId) : Statement (.rdDcs c h) := ⟨rfl, rfl⟩
theorem wrDcs (c : CoreId) (h : ChanId) (v : Word) : Statement (.wrDcs c h v) := ⟨rfl, rfl⟩
theorem rdDcm (c : CoreId) (h : ChanId) : Statement (.rdDcm c h) := ⟨rfl, rfl⟩
theorem wrDcm (c : CoreId) (h : ChanId) (v : Word) : Statement (.wrDcm c h v) := ⟨rfl, rfl⟩
theorem rdDda (c : CoreId) (h : ChanId) : Statement (.rdDda c h) := ⟨rfl, rfl⟩
theorem wrDda (c : CoreId) (h : ChanId) (v : Word) : Statement (.wrDda c h v) := ⟨rfl, rfl⟩
theorem rdDsd (c : CoreId) (h : ChanId) : Statement (.rdDsd c h) := ⟨rfl, rfl⟩
theorem wrDsd (c : CoreId) (h : ChanId) (v : Word) : Statement (.wrDsd c h v) := ⟨rfl, rfl⟩
theorem rdDmac (c : CoreId) : Statement (.rdDmac c) := ⟨rfl, rfl⟩
theorem wrDmac (c : CoreId) (v : Word) : Statement (.wrDmac c v) := ⟨rfl, rfl⟩
theorem rdDirqp (c : CoreId) : Statement (.rdDirqp c) := ⟨rfl, rfl⟩
theorem wrDirqp (c : CoreId) (v : Word) : Statement (.wrDirqp c v) := ⟨rfl, rfl⟩
theorem rdDdr (c : CoreId) : Statement (.rdDdr c) := ⟨rfl, rfl⟩
theorem wrDdr (c : CoreId) (v : Word) : Statement (.wrDdr c v) := ⟨rfl, rfl⟩
theorem rdDdrs (c : CoreId) : Statement (.rdDdrs c) := ⟨rfl, rfl⟩
theorem wrDdrs (c : CoreId) (v : Word) : Statement (.wrDdrs c v) := ⟨rfl, rfl⟩
theorem rdDcke (c : CoreId) : Statement (.rdDcke c) := ⟨rfl, rfl⟩
theorem wrDcke (c : CoreId) (v : Word) : Statement (.wrDcke c v) := ⟨rfl, rfl⟩
theorem rdBad (off : Word) : Statement (.rdBad off) := ⟨rfl, rfl⟩
theorem wrBad (off v : Word) : Statement (.wrBad off v) := ⟨rfl, rfl⟩

end Sys2Proof.Laws.EncodeShape
end

