-- ==== Sys2Proof/Laws/Step.lean ====
section
/-! SUPPORT. What a step can do, said once: it serves the oldest request, or none. -/

namespace Sys2Proof.Machine

/-- The ways a step that answers a next state can have gone. -/
theorem step_cases {s t : State} (e : step s = .next t) :
    (s.port = [] ∧ t = s) ∨
    (∃ p rest, s.port = .construct p :: rest ∧ p.ok = true ∧
      t = { s.setPort rest with cfg := p, cores := #v[.zero, .zero], irq := false, reply := none }) ∨
    (∃ rest, s.port = .reset :: rest ∧ s.cfg.ok = true ∧ t = resetDevice (s.setPort rest)) ∨
    ∃ a rest, s.port = .access a :: rest ∧ s.cfg.ok = true ∧
      (t = (s.setPort rest).respond none ∨ ∃ i, decodeAccess s.cfg a = .ok i ∧ exec i (s.setPort rest) = .next t) := by
  unfold step at e
  split at e
  · rename_i hp; cases e; exact .inl ⟨hp, rfl⟩
  · rename_i p rest hp
    unfold construct at e
    split at e <;> [skip; cases e]
    split at e <;> [skip; cases e]
    rename_i hv hr
    cases e
    exact .inr (.inl ⟨p, rest, hp, by simp [Config.ok, hv, hr], rfl⟩)
  · rename_i rest hp
    unfold resetRequest at e
    split at e <;> [skip; cases e]
    rename_i hok
    cases e
    exact .inr (.inr (.inl ⟨rest, hp, hok, rfl⟩))
  · rename_i a rest hp
    unfold serve at e
    split at e <;> [skip; cases e]
    rename_i hok
    refine .inr (.inr (.inr ⟨a, rest, hp, hok, ?_⟩))
    split at e
    · unfold runAccess at e
      split at e
      · rename_i i hi; exact .inr ⟨i, hi, e⟩
      · cases e
    · cases e; exact .inl rfl

/-- The reset of a core by index: the configured ones are zeroed (R214). -/
theorem resetDevice_core (s : State) (c : CoreId) : (resetDevice s).core c = resetCore s.cfg s c := by
  fin_cases c <;> rfl

/-- The reset of a channel by index: the configured ones of the configured cores are zeroed (R214). -/
theorem resetDevice_chan (s : State) (c : CoreId) (h : ChanId) :
    (resetDevice s).chan c h =
      if c.val < s.cfg.numCores then (if h.val < s.cfg.numChannels then Channel.zero else s.chan c h) else s.chan c h := by
  rw [State.chan, resetDevice_core]
  unfold resetCore
  split
  · fin_cases h <;> rfl
  · rfl

end Sys2Proof.Machine
end

