-- ==== Sys2Proof/Tests/Slice0.lean ====
section
/-! SUPPORT. The model's own tests: ill-formed terms that are refused, records written out from the register map, single steps
with results from spec/95_test_vectors.md, and for each obligation with hypotheses a state and operands that meet them. -/

namespace Sys2Proof.Tests

open Sys2Proof Sys2Proof.Machine

/-! ### Small states -/

/-- One core and two channels: fewer of both than the hardware maximum. -/
def small : Config := { Config.default with numCores := 1, numChannels := 2, windowSize := 0x314 }

/-- Channel (0,0) as in program P1 of 95_test_vectors.md. -/
def chanP1 : Channel := { Channel.zero with dsa := 0x1000, dta := 0x2000, dtc := 1, drt := 0x08, dcm := 0x00C00000 }

/-- The bytes `DE AD BE EF` at 0x1000. -/
def ramP1 : Memory := [(0x1000, 0xDE), (0x1001, 0xAD), (0x1002, 0xBE), (0x1003, 0xEF)]

/-- The reset state with `DMAC` of core 0, channel (0,0) and RAM as given. -/
def machine (dmac : Word) (ch : Channel) (mem : Memory) : State :=
  ((State.reset.setCore 0 { State.reset.core 0 with dmac := dmac }).setChan 0 0 ch).setMem mem

/-- The start of P1, with the core enabled. -/
def p1 : State := machine 1 chanP1 ramP1

/-- `DCS = KICK`. -/
def kick : Word := 0x80000001

/-- `f` of the next state, or nothing. -/
def result {α : Type} (f : State → α) : Host.Outcome State Fault Refusal → Option α
  | .next t => some (f t)
  | .fault _ => none
  | .refused _ => none

/-- `DCS`, `DMAC`, `DTC`, `DSA` and `DTA` of channel (0,0). -/
def view (t : State) : List Nat :=
  [(t.chan 0 0).dcs.toNat, (t.core 0).dmac.toNat, (t.chan 0 0).dtc.toNat, (t.chan 0 0).dsa.toNat, (t.chan 0 0).dta.toNat]

/-- The four bytes at an address. -/
def bytesAt (a : Word) (t : State) : List Nat := (t.mem.readBytes a 4).map BitVec.toNat

/-! ### Ill-formed terms -/

theorem test_wf_core : (Instr.rdDsa 1 0).wf small = false ∧ (Instr.wrDmac 1 0).wf small = false := by decide
theorem test_wf_channel : (Instr.wrDcs 0 2 0).wf small = false ∧ (Instr.wrDcs 0 1 0).wf small = true := by decide
theorem test_wf_bad_is_register : (Instr.rdBad 0x010).wf small = false ∧ (Instr.wrBad 0x310 0).wf small = false := by decide
theorem test_wf_bad_beyond_window : (Instr.rdBad 0x314).wf small = false ∧ (Instr.rdBad 0x040).wf small = true := by decide

/-! ### Records written out from R24, R35, R82 and R86: offset, value, then 0x00 for a read and 0x01 for a write of 4 bytes -/

theorem test_decode_channel_reads :
    decode .default [0x00, 0x00, 0, 0, 0, 0, 0, 0, 0x00] = .ok (.rdDsa 0 0, []) ∧
    decode .default [0x24, 0x00, 0, 0, 0, 0, 0, 0, 0x00] = .ok (.rdDta 0 1, []) ∧
    decode .default [0x48, 0x00, 0, 0, 0, 0, 0, 0, 0x00] = .ok (.rdDtc 0 2, []) ∧
    decode .default [0x6c, 0x01, 0, 0, 0, 0, 0, 0, 0x00] = .ok (.rdDrt 1 3, []) ∧
    decode .default [0x90, 0x01, 0, 0, 0, 0, 0, 0, 0x00] = .ok (.rdDcs 1 4, []) ∧
    decode .default [0x94, 0x00, 0, 0, 0, 0, 0, 0, 0x00] = .ok (.rdDcm 0 4, []) ∧
    decode .default [0x18, 0x01, 0, 0, 0, 0, 0, 0, 0x00] = .ok (.rdDda 1 0, []) ∧
    decode .default [0x1c, 0x00, 0, 0, 0, 0, 0, 0, 0x00] = .ok (.rdDsd 0 0, []) :=
  ⟨rfl, rfl, rfl, rfl, rfl, rfl, rfl, rfl⟩

theorem test_decode_channel_writes :
    decode .default [0x00, 0x01, 0, 0, 0xef, 0xbe, 0xad, 0xde, 0x01] = .ok (.wrDsa 1 0 0xdeadbeef, []) ∧
    decode .default [0x84, 0x01, 0, 0, 0x03, 0x00, 0x00, 0x80, 0x01] = .ok (.wrDta 1 4 0x80000003, []) ∧
    decode .default [0x08, 0x00, 0, 0, 0xff, 0xff, 0xff, 0x01, 0x01] = .ok (.wrDtc 0 0 0x01ffffff, []) ∧
    decode .default [0x2c, 0x00, 0, 0, 0x7f, 0x00, 0x00, 0x00, 0x01] = .ok (.wrDrt 0 1 0x7f, []) ∧
    decode .default [0x10, 0x01, 0, 0, 0x01, 0x00, 0x00, 0x80, 0x01] = .ok (.wrDcs 1 0 0x80000001, []) ∧
    decode .default [0x54, 0x00, 0, 0, 0x00, 0x00, 0xc0, 0x00, 0x01] = .ok (.wrDcm 0 2 0x00c00000, []) ∧
    decode .default [0x78, 0x00, 0, 0, 0x01, 0xef, 0xcd, 0xab, 0x01] = .ok (.wrDda 0 3 0xabcdef01, []) ∧
    decode .default [0x3c, 0x00, 0, 0, 0x01, 0x00, 0xff, 0xff, 0x01] = .ok (.wrDsd 0 1 0xffff0001, []) :=
  ⟨rfl, rfl, rfl, rfl, rfl, rfl, rfl, rfl⟩

theorem test_decode_core_registers :
    decode .default [0x00, 0x03, 0, 0, 0, 0, 0, 0, 0x00] = .ok (.rdDmac 0, []) ∧
    decode .default [0x00, 0x04, 0, 0, 0x01, 0, 0, 0, 0x01] = .ok (.wrDmac 1 1, []) ∧
    decode .default [0x04, 0x03, 0, 0, 0, 0, 0, 0, 0x00] = .ok (.rdDirqp 0, []) ∧
    decode .default [0x04, 0x04, 0, 0, 0xff, 0, 0, 0, 0x01] = .ok (.wrDirqp 1 0xff, []) ∧
    decode .default [0x08, 0x04, 0, 0, 0, 0, 0, 0, 0x00] = .ok (.rdDdr 1, []) ∧
    decode .default [0x08, 0x03, 0, 0, 0x03, 0, 0, 0, 0x01] = .ok (.wrDdr 0 3, []) ∧
    decode .default [0x0c, 0x03, 0, 0, 0, 0, 0, 0, 0x00] = .ok (.rdDdrs 0, []) ∧
    decode .default [0x0c, 0x04, 0, 0, 0x04, 0, 0, 0, 0x01] = .ok (.wrDdrs 1 4, []) ∧
    decode .default [0x10, 0x04, 0, 0, 0, 0, 0, 0, 0x00] = .ok (.rdDcke 1, []) ∧
    decode .default [0x10, 0x03, 0, 0, 0xff, 0, 0, 0, 0x01] = .ok (.wrDcke 0 0xff, []) :=
  ⟨rfl, rfl, rfl, rfl, rfl, rfl, rfl, rfl, rfl, rfl⟩

theorem test_decode_bad_and_refused :
    decode .default [0xa0, 0x00, 0, 0, 0, 0, 0, 0, 0x00] = .ok (.rdBad 0xa0, []) ∧
    decode .default [0x14, 0x03, 0, 0, 0xff, 0, 0, 0, 0x01] = .ok (.wrBad 0x314 0xff, []) ∧
    decode .default [0x00, 0x00, 0, 0, 0x03, 0, 0, 0, 0x0d] = .error (.accessSize 0 2) ∧
    decode .default [0x00, 0x00, 0, 0, 0, 0, 0, 0] = .error .truncated :=
  ⟨rfl, rfl, rfl, rfl⟩

/-- The decode table of 95_test_vectors.md L2.1, its rows that are reached under a window of 0x1000 bytes. -/
theorem test_decode_table :
    ([0x000, 0x01C, 0x020, 0x094, 0x0A0, 0x0E0, 0x003, 0x01E, 0x110, 0x1F0, 0x200, 0x2FC] : List Word).map
        (locate { Config.default with windowSize := 0x1000 }) =
      [.ch 0 0 .dsa, .ch 0 0 .dsd, .ch 0 1 .dsa, .ch 0 4 .dcm, .bad, .bad, .bad, .bad, .ch 1 0 .dcs, .bad, .bad, .bad] ∧
    ([0x300, 0x302, 0x30C, 0x310, 0x314, 0x3FC, 0x400, 0x410, 0x500, 0x600, 0x700, 0x80C] : List Word).map
        (locate { Config.default with windowSize := 0x1000 }) =
      [.co 0 .dmac, .bad, .co 0 .ddrs, .co 0 .dcke, .bad, .bad, .co 1 .dmac, .co 1 .dcke, .bad, .bad, .co 0 .dmac,
        .co 1 .ddrs] := by decide

theorem test_table_word : decodeTableWord 16 0x184 = some (.rdDta 1 4) ∧ decodeTableWord 8 0x10 = some (.rdDcs 0 0) := by
  decide

theorem test_fetch_word_runs : result State.reply (step (p1.withFetchWord 8 0x04)) = some (some 0x2000) := by decide

/-! ### Single steps (L1 and L2.2 of 95_test_vectors.md, and the examples of 40_decode_dispatch.md) -/

theorem test_rd_dsa : result State.reply (exec (.rdDsa 0 0) p1) = some (some 0x1000) := by decide
theorem test_rd_dta : result State.reply (exec (.rdDta 0 0) p1) = some (some 0x2000) := by decide
theorem test_rd_dtc : result State.reply (exec (.rdDtc 0 0) p1) = some (some 1) := by decide
theorem test_rd_drt : result State.reply (exec (.rdDrt 0 0) p1) = some (some 0x08) := by decide
theorem test_rd_dcm : result State.reply (exec (.rdDcm 0 0) p1) = some (some 0x00c00000) := by decide
theorem test_rd_dcs :
    result State.reply (exec (.rdDcs 0 0) (machine 1 { chanP1 with dcs := 0x80000009 } [])) = some (some 0x80000009) := by
  decide
theorem test_rd_dda :
    result State.reply (exec (.rdDda 0 0) (machine 1 { chanP1 with dda := 0xabcdef01 } [])) = some (some 0xabcdef01) := by
  decide
theorem test_rd_dsd :
    result State.reply (exec (.rdDsd 0 0) (machine 1 { chanP1 with dsd := 0x00400010 } [])) = some (some 0x00400010) := by
  decide
theorem test_wr_dsa : result (fun t => (t.chan 0 0).dsa) (exec (.wrDsa 0 0 0xffffffff) p1) = some 0xffffffff := by decide
theorem test_wr_dta : result (fun t => (t.chan 1 0).dta) (exec (.wrDta 1 0 0x2000) p1) = some 0x2000 := by decide
theorem test_wr_dtc : result (fun t => (t.chan 0 0).dtc) (exec (.wrDtc 0 0 0x01ffffff) p1) = some 0xffffff := by decide
theorem test_wr_drt : result (fun t => (t.chan 0 0).drt) (exec (.wrDrt 0 0 0xffffffc8) p1) = some 0x08 := by decide
theorem test_wr_dcm : result (fun t => ((t.chan 0 0).dcm, t.log)) (exec (.wrDcm 0 0 0x700) p1) = some (0x700, []) := by decide
theorem test_wr_dda : result (fun t => (t.chan 0 0).dda) (exec (.wrDda 0 0 0xf) p1) = some 0xf := by decide
theorem test_wr_dsd : result (fun t => (t.chan 0 1).dsd) (exec (.wrDsd 0 1 0xffff0001) p1) = some 0xffff0001 := by decide

/-- L1.6, the success scenario. -/
theorem test_wr_dcs_success :
    result (fun t => (view t, bytesAt 0x2000 t, t.log)) (exec (.wrDcs 0 0 kick) p1) =
      some ([0x80000009, 0x1, 0, 0x1004, 0x2004], [0xDE, 0xAD, 0xBE, 0xEF], []) := by decide

/-- L1.7, the failing destination. -/
theorem test_wr_dcs_failing_destination :
    result (fun t => (view t, t.log)) (exec (.wrDcs 0 0 kick) (machine 1 { chanP1 with dta := 0x20000 } ramP1)) =
      some ([0x80000011, 0x5, 1, 0x1004, 0x20000], []) := by decide

/-- S2 of L2.3: the channel was kicked while the core was disabled. -/
theorem test_wr_dmac_starts :
    result (fun t => (view t, bytesAt 0x2000 t)) (exec (.wrDmac 0 1) (machine 0 { chanP1 with dcs := kick } ramP1)) =
      some ([0x80000009, 0x1, 0, 0x1004, 0x2004], [0xDE, 0xAD, 0xBE, 0xEF]) := by decide

/-- S7 of L2.3: the core's `HLT` is written as 1, so nothing runs. -/
theorem test_wr_dmac_halted :
    result view (exec (.wrDmac 0 9) (machine 0 { chanP1 with dcs := kick } ramP1)) =
      some [0x80000001, 0x9, 1, 0x1000, 0x2000] := by decide

theorem test_rd_dmac : result State.reply (exec (.rdDmac 0) (machine 9 chanP1 [])) = some (some 9) := by decide

/-- Core 0 with `PEND = 4` (L1.8). -/
def pending : State := State.reset.setCore 0 { CoreBank.zero with pend := 4 }

theorem test_rd_dirqp : result State.reply (exec (.rdDirqp 0) pending) = some (some 4) := by decide
theorem test_rd_ddr : result State.reply (exec (.rdDdr 0) pending) = some (some 4) := by decide
theorem test_rd_ddrs : result State.reply (exec (.rdDdrs 0) pending) = some (some 0) := by decide
theorem test_wr_ddrs : result (fun t => (t.core 0).pend) (exec (.wrDdrs 0 1) pending) = some 5 := by decide
theorem test_wr_ddrs_zero : result (fun t => (t.core 0).pend) (exec (.wrDdrs 0 0) pending) = some 4 := by decide
theorem test_wr_dirqp : result (fun t => (t.core 0).pend) (exec (.wrDirqp 0 0xffffffff) pending) = some 0xffffffff := by decide
theorem test_wr_ddr : result (fun t => (t.core 0).pend) (exec (.wrDdr 0 0) pending) = some 0 := by decide
theorem test_wr_dcke : result (fun t => (t.core 1).dcke) (exec (.wrDcke 1 0x1f) pending) = some 0x1f := by decide
theorem test_rd_dcke :
    result State.reply (exec (.rdDcke 1) (State.reset.setCore 1 { CoreBank.zero with dcke := 0x1f })) = some (some 0x1f) := by
  decide
theorem test_rd_bad : result (fun t => (t.reply, t.log)) (exec (.rdBad 0x0a0) p1) = some (some 0, [.badOffsetRead 0x0a0]) := by
  decide
theorem test_wr_bad :
    result (fun t => (view t, t.log)) (exec (.wrBad 0x314 0xffffffff) p1) =
      some ([0, 1, 1, 0x1000, 0x2000], [.badOffsetWrite 0x314 0xffffffff]) := by decide

/-- L1.9: no device. -/
theorem test_construct_fails :
    step (State.reset.setPort [.construct { Config.default with numCores := 3 }]) = .fault (.configInvalid .numCores) := by
  have h : namedParameter { Config.default with numCores := 3 } = .numCores := by
    show ([Parameter.numCores] : List Parameter).getD (Config.namedFailure _ % 1) .numCores = .numCores
    rw [Nat.mod_one]; rfl
  show Host.Outcome.fault (Fault.configInvalid (namedParameter { Config.default with numCores := 3 })) = _
  rw [h]

/-- Restoring puts the registers back and starts no transfer (R218). -/
theorem test_restore_starts_nothing :
    view (State.reset.restored (machine 0 chanP1 []).saved) = [0, 0, 1, 0x1000, 0x2000] ∧
    (State.reset.restored p1.saved).bus = [] := by decide

/-- Row 14 of L2.2: a 2-byte write. -/
theorem test_access_size :
    step (State.reset.setPort [.access (.write 0 2 3)]) = .refused (.accessSize 0 2) := rfl


/-! ### Witnesses: for each statement with hypotheses, a state and operands that meet them, clause by clause -/

/-- P1 with `DCS` written. -/
def kicked (s : State) : State := afterDcsWrite 0 0 kick s

/-- A ready channel after the kick: P1 with another channel (0,0). -/
def with00 (ch : Channel) : State := kicked (machine 1 ch ramP1)

theorem witness_ReadsHaveNoSideEffects : isRead (.rdDdrs 1) = true ∧ isRead (.rdBad 0x413) = true := by decide

theorem witness_WriteThenReadBack :
    (Instr.wrDtc 1 4 0xffffffff, Instr.rdDtc 1 4, (0x00ffffff : Word)) ∈
      [(Instr.wrDsa 1 4 0xffffffff, Instr.rdDsa 1 4, 0xffffffff#32), (.wrDta 1 4 0xffffffff, .rdDta 1 4, 0xffffffff#32),
        (.wrDtc 1 4 0xffffffff, .rdDtc 1 4, 0xffffffff#32 &&& 0x00ffffff#32),
        (.wrDrt 1 4 0xffffffff, .rdDrt 1 4, 0xffffffff#32 &&& 0x3f#32), (.wrDcm 1 4 0xffffffff, .rdDcm 1 4, 0xffffffff#32),
        (.wrDda 1 4 0xffffffff, .rdDda 1 4, 0xffffffff#32), (.wrDsd 1 4 0xffffffff, .rdDsd 1 4, 0xffffffff#32),
        (.wrDirqp 1 0xffffffff, .rdDirqp 1, 0xffffffff#32), (.wrDdr 1 0xffffffff, .rdDdr 1, 0xffffffff#32),
        (.wrDdr 1 0xffffffff, .rdDirqp 1, 0xffffffff#32), (.wrDirqp 1 0xffffffff, .rdDdr 1, 0xffffffff#32), (.wrDcke 1 0xffffffff, .rdDcke 1, 0xffffffff#32)] := by
  decide

theorem witness_NotRunnableWriteOnlyStores :
    runnable State.reset 1 4 = false ∧ runnable (afterDcsWrite 1 4 kick p1) 1 4 = false := by decide

theorem witness_DescriptorModeHaltsCoreOnly :
    runnable (afterDcsWrite 0 0 1 p1) 0 0 = true ∧
    ((afterDcsWrite 0 0 1 p1).chan 0 0).ndes (afterDcsWrite 0 0 1 p1).cfg.layout = false := by decide

/-- A core disabled, with channel (0,4) enabled in descriptor mode. -/
def descriptor4 : State := State.reset.setChan 0 4 { chanP1 with dcs := 1 }

theorem witness_DescriptorModeHaltsCoreOnly_again :
    (4 : ChanId).val < descriptor4.cfg.numChannels ∧ runnable (afterDmacWrite 0 1 descriptor4) 0 4 = true ∧
    (descriptor4.chan 0 4).ndes descriptor4.cfg.layout = false ∧
    ∀ h : ChanId, h.val < 4 → runnable (afterDmacWrite 0 1 descriptor4) 0 h = false := by decide

/-- The registers-mode premises with `DRT = DRT_AUTO` and `STDE = 0`, as the configuration-error statements have them. -/
def executable (s : State) : Bool :=
  runnable s 0 0 && (s.chan 0 0).ndes s.cfg.layout && decide ((s.chan 0 0).drt = s.cfg.drtAuto) &&
    !(s.chan 0 0).stde s.cfg.layout

theorem witness_UnimplementedRequestHalts_type :
    runnable (with00 { chanP1 with drt := 0x3f }) 0 0 = true ∧
    ((with00 { chanP1 with drt := 0x3f }).chan 0 0).ndes FieldLayout.default = true ∧
    ((with00 { chanP1 with drt := 0x3f }).chan 0 0).drt ≠ Config.default.drtAuto := by decide

theorem witness_UnimplementedRequestHalts_stride :
    runnable (with00 { chanP1 with dcm := 4 }) 0 0 = true ∧
    ((with00 { chanP1 with dcm := 4 }).chan 0 0).ndes FieldLayout.default = true ∧
    ((with00 { chanP1 with dcm := 4 }).chan 0 0).drt = Config.default.drtAuto ∧
    ((with00 { chanP1 with dcm := 4 }).chan 0 0).stde FieldLayout.default = true := by decide

theorem witness_ConfigurationErrorHalts :
    (executable (with00 { chanP1 with dcm := 0xc000 }) = true ∧
      ((with00 { chanP1 with dcm := 0xc000 }).chan 0 0).sp = 3) ∧
    (executable (with00 { chanP1 with dcm := 0x0600 }) = true ∧
      ((with00 { chanP1 with dcm := 0x0600 }).chan 0 0).sp = 0 ∧ ((with00 { chanP1 with dcm := 0x0600 }).chan 0 0).dp = 0 ∧
      ((with00 { chanP1 with dcm := 0x0600 }).chan 0 0).tsz = 6) ∧
    (executable (with00 { chanP1 with dcm := 0xa700 }) = true ∧
      ((with00 { chanP1 with dcm := 0xa700 }).chan 0 0).sp = 2 ∧ ((with00 { chanP1 with dcm := 0xa700 }).chan 0 0).dp = 2 ∧
      ((with00 { chanP1 with dcm := 0xa700 }).chan 0 0).tsz = 7) := by decide

theorem witness_DestinationWidthHaltsAfterSource :
    executable (with00 { chanP1 with dcm := 0xb700 }) = true ∧
    ((with00 { chanP1 with dcm := 0xb700 }).chan 0 0).sp = 2 ∧
    ((with00 { chanP1 with dcm := 0xb700 }).chan 0 0).dp = 3 := by decide

/-- Codes 2, 1 and 5: 2 bytes, 1 byte, 64 bytes. -/
theorem witness_SetupReadsFieldCodes :
    setup Config.default 1 4 { chanP1 with dcm := 0x9500 } = .ok ⟨2, 1, 64⟩ := rfl

theorem witness_ZeroCountSucceedsWithoutAccess :
    Ready 0 0 ⟨4, 4, 4⟩ (with00 { chanP1 with dtc := 0 }) ∧ ((with00 { chanP1 with dtc := 0 }).chan 0 0).dtc = 0 :=
  ⟨⟨by decide, by decide, rfl⟩, by decide⟩

theorem witness_SuccessScenario :
    Ready 0 0 ⟨4, 4, 4⟩ (kicked p1) ∧ (p1.chan 0 0).sp = 0 ∧ (p1.chan 0 0).dp = 0 ∧ (p1.chan 0 0).tsz = 0 ∧ (p1.chan 0 0).dtc = 1 ∧
    (p1.chan 0 0).sai p1.cfg.layout = true ∧ (p1.chan 0 0).dai p1.cfg.layout = true ∧ p1.mem.wf = true ∧
    route p1.cfg .read (p1.chan 0 0).dsa 4 = .ram ∧ route p1.cfg .write (p1.chan 0 0).dta 4 = .ram :=
  ⟨⟨by decide, by decide, rfl⟩, by decide⟩

/-- The kind of outcome of a run-channel. -/
def outcome (r : Except Refusal (ChannelOutcome × State)) : Option ChannelOutcome :=
  match r with
  | .ok (o, _) => some o
  | .error _ => none

theorem outcome_some {r : Except Refusal (ChannelOutcome × State)} {o : ChannelOutcome} (e : outcome r = some o) :
    ∃ t, r = .ok (o, t) := by
  match r, e with
  | .ok (_, t), e => exact ⟨t, by injection e with e; rw [e]⟩

/-- For SuccessClosedForm and SuccessfulTransferTrace. -/
theorem witness_SuccessfulTransfer :
    Ready 0 0 ⟨4, 4, 4⟩ (kicked p1) ∧ ∃ t, runChannel 0 0 (kicked p1) = .ok (.success, t) :=
  ⟨⟨by decide, by decide, rfl⟩, outcome_some (by decide)⟩

/-- F1 with a device of 256 bytes at 0x20000. -/
def withDevice : Config :=
  { Config.default with
    downstream := some { Downstream.f1 with
      regions := Downstream.f1.regions ++
        [{ base := 0x20000, size := 0x100, kind := .device, readable := true, writable := true, aligned := false }] } }

/-- A device register read at a fixed address into RAM, one unit: it answers what it likes, and if it answers at all the
transfer succeeds. -/
def fifo : State :=
  kicked { machine 1 { chanP1 with dsa := 0x20000, dcm := 0x00400000 } [] with cfg := withDevice }

theorem witness_SuccessfulTransfer_device :
    Ready 0 0 ⟨4, 4, 4⟩ fifo ∧ route fifo.cfg .read (fifo.chan 0 0).dsa 4 = .device ∧
    (Config.deviceAnswers [] 0x20000 4 = true → ∃ t, runChannel 0 0 fifo = .ok (.success, t)) := by
  have hr : Ready 0 0 ⟨4, 4, 4⟩ fifo := ⟨by decide, by decide, rfl⟩
  refine ⟨hr, by decide, fun ha => outcome_some ?_⟩
  have e : memRead (fifo.chan 0 0).dsa 4 (fifo.setDraws 64) =
      readOk 0x20000 4 ((List.range 4).map (Config.deviceByte [] 0x20000 4)) (fifo.setDraws 64) := if_pos ha
  have e1 : chunk 0 0 ⟨4, 4, 4⟩ fifo = match readPhase 0 0 4 1 0 (drawnBuffer 0) (fifo.setDraws 64) with
    | .fault d s1 => .fault d s1
    | .refuse r => .refuse r
    | .ok buf s1 =>
      match writePhase 0 0 4 buf 1 0 s1 with
      | .fault d s2 => .fault d s2
      | .refuse r => .refuse r
      | .ok _ s2 => .ok () (decrementCount 0 0 s2) := rfl
  rw [runChannel_ready hr, show (fifo.chan 0 0).dtc.toNat = 1 from rfl, chunkLoop, e1, readPhase,
    show ((fifo.setDraws 64).chan 0 0).dsa = (fifo.chan 0 0).dsa from rfl, e]
  decide

/-- P1 with the destination, or the source, where nothing answers. -/
def badTarget : State := with00 { chanP1 with dta := 0x20000, dtc := 2 }
def badSource : State := with00 { chanP1 with dsa := 0x10000, dtc := 2 }

/-- For AddressErrorClosedForm and FailingTransferStopsAtFailure, the write clause and then the read clause. -/
theorem witness_FailingTransfer_write :
    Ready 0 0 ⟨4, 4, 4⟩ badTarget ∧ ∃ t, runChannel 0 0 badTarget = .ok (.addressError .write, t) :=
  ⟨⟨by decide, by decide, rfl⟩, outcome_some (by decide)⟩

/-- The start of program P4 of L3, on channel (0,0): 16-byte units, the destination 8 bytes below the end of RAM. -/
def p4 : State :=
  machine 1 { chanP1 with dta := 0xfff8, dtc := 2, dcm := 0x00C00300 }
    ((List.range 32).map fun k => (0x1000 + k, BitVec.ofNat 8 (0x10 + k)))

/-- No rollback (L1.12, P4): the third write of the chunk faults, and the two before it stay. -/
theorem test_no_rollback :
    result (bytesAt 0xfff8) (exec (.wrDcs 0 0 kick) p4) = some [0x10, 0x11, 0x12, 0x13] ∧
    result (bytesAt 0xfffc) (exec (.wrDcs 0 0 kick) p4) = some [0x14, 0x15, 0x16, 0x17] ∧
    result view (exec (.wrDcs 0 0 kick) p4) = some [0x80000011, 5, 2, 0x1010, 0x10000] := by decide

/-- A write that fails after others succeeded. -/
theorem witness_FailingTransfer_later :
    Ready 0 0 ⟨4, 4, 16⟩ (kicked p4) ∧ ∃ t, runChannel 0 0 (kicked p4) = .ok (.addressError .write, t) :=
  ⟨⟨by decide, by decide, rfl⟩, outcome_some (by decide)⟩

theorem witness_FailingTransfer_read :
    Ready 0 0 ⟨4, 4, 4⟩ badSource ∧ ∃ t, runChannel 0 0 badSource = .ok (.addressError .read, t) :=
  ⟨⟨by decide, by decide, rfl⟩, outcome_some (by decide)⟩

/-- Two units, the second sub-access of the source the last word of the RAM. -/
def twoUnits : State := machine 1 { chanP1 with dsa := 0xfff8, dtc := 2 } ramP1

/-- Rows Q7 (fixed source), Q8 (fixed destination) and Q4 (`TSZ` 1 below both widths) of L2.4. -/
def fixedSource : State := machine 1 { chanP1 with dtc := 2, dcm := 0x00400000 } ramP1
def fixedTarget : State := machine 1 { chanP1 with dtc := 2, dcm := 0x00800000 } ramP1
def shortUnits : State := machine 1 { chanP1 with dtc := 2, dcm := 0x00C00100 } ramP1

/-- A transfer of channel (0,0) that RAM answers and whose source and destination share no byte, as
DisjointRamTransferCopiesImage has it (RamTransferCopiesUnitByUnit: the first part). -/
def ramDisjoint (u : Setup) (s : State) : Prop :=
  AllRam s.cfg (channelTrace u s.cfg.layout (s.chan 0 0)) ∧ s.mem.wf = true ∧
  ∀ p < (s.chan 0 0).dtc.toNat * readRun u, ∀ q < (s.chan 0 0).dtc.toNat * writeRun u,
    runAddr ((s.chan 0 0).sai s.cfg.layout) (s.chan 0 0).dsa u.sp p ≠
      runAddr ((s.chan 0 0).dai s.cfg.layout) (s.chan 0 0).dta u.dp q

theorem witness_RamTransfer_incrementing :
    Ready 0 0 ⟨4, 4, 4⟩ (kicked twoUnits) ∧ ramDisjoint ⟨4, 4, 4⟩ twoUnits ∧
    (twoUnits.chan 0 0).sai twoUnits.cfg.layout = true ∧ (twoUnits.chan 0 0).dai twoUnits.cfg.layout = true :=
  ⟨⟨by decide, by decide, rfl⟩, ⟨by unfold AllRam; decide, by decide, by decide⟩, by decide, by decide⟩

theorem witness_RamTransfer_fixed_source :
    Ready 0 0 ⟨4, 4, 4⟩ (kicked fixedSource) ∧ ramDisjoint ⟨4, 4, 4⟩ fixedSource ∧
    (fixedSource.chan 0 0).sai fixedSource.cfg.layout = false ∧
    (fixedSource.chan 0 0).dai fixedSource.cfg.layout = true :=
  ⟨⟨by decide, by decide, rfl⟩, ⟨by unfold AllRam; decide, by decide, by decide⟩, by decide, by decide⟩

theorem witness_RamTransfer_fixed_destination :
    Ready 0 0 ⟨4, 4, 4⟩ (kicked fixedTarget) ∧ ramDisjoint ⟨4, 4, 4⟩ fixedTarget ∧
    (fixedTarget.chan 0 0).dai fixedTarget.cfg.layout = false ∧ (fixedTarget.chan 0 0).dtc ≠ 0 :=
  ⟨⟨by decide, by decide, rfl⟩, ⟨by unfold AllRam; decide, by decide, by decide⟩, by decide, by decide⟩

theorem witness_RamTransfer_short_size :
    Ready 0 0 ⟨4, 4, 1⟩ (kicked shortUnits) ∧ ramDisjoint ⟨4, 4, 1⟩ shortUnits ∧
    readRun ⟨4, 4, 1⟩ = 4 ∧ writeRun ⟨4, 4, 1⟩ = 4 :=
  ⟨⟨by decide, by decide, rfl⟩, ⟨by unfold AllRam; decide, by decide, by decide⟩, by decide, by decide⟩

/-- `SP` code 1, `DP` code 0, `TSZ` code 1. -/
def oneByte : State := machine 1 { chanP1 with dcm := 0x00C04100 } ramP1

theorem witness_UnfilledBytesAreFree :
    Ready 0 0 ⟨1, 4, 1⟩ (kicked oneByte) ∧ (oneByte.chan 0 0).dtc = 1 ∧ oneByte.mem.wf = true ∧
    route oneByte.cfg .read (oneByte.chan 0 0).dsa 1 = .ram ∧ route oneByte.cfg .write (oneByte.chan 0 0).dta 4 = .ram :=
  ⟨⟨by decide, by decide, rfl⟩, by decide⟩

theorem witness_FirstReadFaultIsAddressError :
    Ready 0 0 ⟨4, 4, 4⟩ badSource ∧ (badSource.chan 0 0).dtc ≠ 0 ∧
    route badSource.cfg .read (badSource.chan 0 0).dsa 4 = .unmapped := ⟨⟨by decide, by decide, rfl⟩, by decide⟩

theorem witness_FirstWriteFaultIsAddressError :
    Ready 0 0 ⟨4, 4, 4⟩ badTarget ∧ (badTarget.chan 0 0).sp = 0 ∧ (badTarget.chan 0 0).dp = 0 ∧
    (badTarget.chan 0 0).tsz = 0 ∧ (badTarget.chan 0 0).dtc ≠ 0 ∧ (badTarget.chan 0 0).sai badTarget.cfg.layout = true ∧
    route badTarget.cfg .read (badTarget.chan 0 0).dsa 4 = .ram ∧
    route badTarget.cfg .write (badTarget.chan 0 0).dta 4 = .unmapped := ⟨⟨by decide, by decide, rfl⟩, by decide⟩

/-- A platform that routes the block's own window at 0x1000 of the downstream's space. -/
def ownAt1000 : Config := { Config.default with downstream := some { Downstream.f1 with ownWindow := some 0x1000 } }

/-- The first read, a write (0x1410 is the last word of the window), and the second read of a transfer reach it. -/
def ownRead : State := { machine 1 chanP1 [] with cfg := ownAt1000 }
def ownWrite : State := { machine 1 { chanP1 with dsa := 0x2000, dta := 0x1410 } [] with cfg := ownAt1000 }
def ownLater : State := { machine 1 { chanP1 with dsa := 0x0ffc, dtc := 2 } [] with cfg := ownAt1000 }

/-- The trace of a transfer, from the front: what RAM answers, and what then reaches the window. -/
theorem witness_OwnWindowAccessIsRefused_dcs :
    (Ready 0 0 ⟨4, 4, 4⟩ (kicked ownRead) ∧
      StopsAtOwn ownRead.cfg (channelTrace ⟨4, 4, 4⟩ ownRead.cfg.layout (ownRead.chan 0 0)) (.read, 0x1000, 4)) ∧
    (Ready 0 0 ⟨4, 4, 4⟩ (kicked ownWrite) ∧
      StopsAtOwn ownWrite.cfg (channelTrace ⟨4, 4, 4⟩ ownWrite.cfg.layout (ownWrite.chan 0 0)) (.write, 0x1410, 4)) ∧
    (Ready 0 0 ⟨4, 4, 4⟩ (kicked ownLater) ∧
      StopsAtOwn ownLater.cfg (channelTrace ⟨4, 4, 4⟩ ownLater.cfg.layout (ownLater.chan 0 0)) (.read, 0x1000, 4)) :=
  ⟨⟨⟨by decide, by decide, rfl⟩, [], [(.write, 0x2000, 4)], by decide, by unfold AllRam; decide, by decide⟩,
    ⟨⟨by decide, by decide, rfl⟩, [(.read, 0x2000, 4)], [], by decide, by unfold AllRam; decide, by decide⟩,
    ⟨⟨by decide, by decide, rfl⟩, [(.read, 0x0ffc, 4), (.write, 0x2000, 4)], [(.write, 0x2004, 4)], by decide,
      by unfold AllRam; decide, by decide⟩⟩

/-- Channel (0,0) waits with a transfer that RAM answers, and channel (0,1) with one that reaches the window. -/
def ownSecond (dmac : Word) : State :=
  { (machine dmac { chanP1 with dsa := 0x3000, dcs := kick } []).setChan 0 1 { chanP1 with dcs := kick } with
    cfg := ownAt1000 }

theorem witness_OwnWindowAccessIsRefused_dmac :
    channelIds (ownSecond 0).cfg = [0] ++ 1 :: [2, 3, 4] ∧
    ∃ t, runChannels 0 [0] (afterDmacWrite 0 1 (ownSecond 0)) = .ok t ∧ Ready 0 1 ⟨4, 4, 4⟩ t ∧
      StopsAtOwn (ownSecond 0).cfg (channelTrace ⟨4, 4, 4⟩ (ownSecond 0).cfg.layout (t.chan 0 1)) (.read, 0x1000, 4) :=
  ⟨by decide, _, rfl, ⟨by decide, by decide, rfl⟩, [], [(.write, 0x2000, 4)], by decide, by unfold AllRam; decide, by decide⟩

theorem witness_OwnWindowAccessIsRefused_ddrs :
    channelIds (ownSecond 1).cfg = [0] ++ 1 :: [2, 3, 4] ∧
    ∃ t, runChannels 0 [0] (afterDdrsWrite 0 2 (ownSecond 1)) = .ok t ∧ Ready 0 1 ⟨4, 4, 4⟩ t ∧
      StopsAtOwn (ownSecond 1).cfg (channelTrace ⟨4, 4, 4⟩ (ownSecond 1).cfg.layout (t.chan 0 1)) (.read, 0x1000, 4) :=
  ⟨by decide, _, rfl, ⟨by decide, by decide, rfl⟩, [], [(.write, 0x2000, 4)], by decide, by unfold AllRam; decide, by decide⟩

theorem witness_OwnWindowAccessIsRefused_only :
    exec (.wrDcs 0 0 kick) ownRead = .refused (.reentrant .read 0x1000 4) := by rfl

/-- For EveryAccessCompletes, DcsWriteFrame and DmacWriteFrame: fixtures F1 and F2 of 95_test_vectors.md. -/
theorem witness_noOwnWindow :
    noOwnWindow p1.cfg = true ∧ noOwnWindow { Config.default with downstream := some .f2 } = true := by decide

theorem witness_DdrsWriteOnlySetsPend : Quiescent pending := by unfold Quiescent; decide

/-- Channel (0,0) waiting for the core to be enabled. -/
def waiting : State := machine 0 { chanP1 with dcs := kick } ramP1

theorem witness_DmacWriteRunningNothingOnlyStores :
    bitAt 0xfffffff2 waiting.cfg.layout.dmac.dmae = false ∧ bitAt 0x9 waiting.cfg.layout.dmac.hlt = true ∧
    bitAt 0x5 waiting.cfg.layout.dmac.ar = true ∧ ∀ h, runnable (afterDmacWrite 1 1 waiting) 1 h = false := by decide

theorem witness_DmacWriteStartsWaitingChannel :
    (0 : ChanId).val < waiting.cfg.numChannels ∧ runnable (afterDmacWrite 0 1 waiting) 0 0 = true ∧
    (∀ h, h ≠ 0 → runnable (afterDmacWrite 0 1 waiting) 0 h = false) ∧
    ∃ t, runChannel 0 0 (afterDmacWrite 0 1 waiting) = .ok (.success, t) :=
  ⟨by decide, by decide, by decide, outcome_some (by decide)⟩

theorem witness_OutcomeBlocksRestOfPass :
    (∃ t, runChannel 0 0 (afterDcsWrite 0 0 1 p1) = .ok (.descriptorMode, t)) ∧
    (∃ t, runChannel 0 0 (with00 { chanP1 with drt := 0 }) = .ok (.halted (.unimplRequestType 0 0 0), t)) ∧
    ∃ t, runChannel 0 0 badSource = .ok (.addressError .read, t) :=
  ⟨outcome_some (by decide), outcome_some (by decide), outcome_some (by decide)⟩

/-- With the witnesses above, every outcome that RunChannelLeavesChannelNotRunnable and CountOnlyFalls speak of. -/
theorem witness_CountOnlyFalls : ∃ t, runChannel 1 4 p1 = .ok (.notRunnable, t) := outcome_some (by decide)

/-- A step that serves a request answered a next state. -/
def isNext : Host.Outcome State Fault Refusal → Bool
  | .next _ => true
  | .fault _ => false
  | .refused _ => false

theorem next_of {o : Host.Outcome State Fault Refusal} (e : isNext o = true) : ∃ t, o = .next t := by
  match o, e with
  | .next t, _ => exact ⟨t, rfl⟩

theorem witness_CoresDoNotInteract : (1 : CoreId) ≠ 0 ∧ ∃ t, exec (.wrDmac 0 1) waiting = .next t :=
  ⟨by decide, next_of (by decide)⟩

theorem witness_StatusBitsAreSticky :
    (∃ t, exec (.wrDcs 0 0 kick) p1 = .next t) ∧ (∃ t, exec (.wrDmac 0 1) waiting = .next t) ∧
    ∃ t, exec (.wrDdrs 1 0) badTarget = .next t := ⟨next_of (by decide), next_of (by decide), next_of (by decide)⟩

theorem witness_PassIsBounded :
    (∃ t, exec (.wrDcs 0 0 kick) p1 = .next t) ∧ (∃ t, exec (.wrDmac 0 1) waiting = .next t) ∧
    ∃ t, exec (.wrDcke 0 1) p1 = .next t := ⟨next_of (by decide), next_of (by decide), next_of (by decide)⟩

theorem witness_reset_requests :
    (p1.setPort [.reset, .reset]).cfg.ok = true ∧ (p1.setPort [.reset, .reset]).port = .reset :: [.reset] := by decide

/-- Parameters with the given counts. -/
def counts (cores channels : Nat) : Config := { Config.default with numCores := cores, numChannels := channels }

/-- Every field of `DCS`, of `DCM` and of `DMAC` on one bit, and a window beyond the 32-bit offsets: a model takes both (R211,
R52, D19). -/
def oneBit : FieldLayout :=
  { dcs := ⟨0, 0, 0, 0, 0, 0, 0⟩, dcm := ⟨0, 0, 0, 0, 0, 0, 0, 0, 0, 0, 0⟩, dmac := ⟨0, 0, 0, 0, 0, 0, 0, 0⟩ }

/-- The counts at both ends of their ranges, no downstream, and free parameters of R9 far from the defaults. -/
theorem witness_ConstructionChecks :
    (0x314 ≤ (counts 1 1).windowSize ∧ isNext (construct (counts 1 1) p1) = true) ∧
    (0x414 ≤ (counts 2 5).windowSize ∧ isNext (construct (counts 2 5) p1) = true) ∧
    (0x414 ≤ (counts 2 0).windowSize ∧ isNext (construct (counts 2 0) p1) = false) ∧
    (0x414 ≤ (counts 2 6).windowSize ∧ isNext (construct (counts 2 6) p1) = false) ∧
    isNext (construct (counts 0 5) p1) = false ∧ isNext (construct (counts 3 5) p1) = false ∧
    isNext (construct { Config.default with downstream := none } p1) = false ∧
    isNext (construct { Config.default with windowSize := 2 ^ 33 } p1) = true ∧
    isNext (construct { Config.default with layout := oneBit } p1) = true ∧
    isNext (construct { small with windowSize := 0x313 } p1) = false := by decide

theorem witness_ConstructionGivesResetState :
    (p1.setPort [.construct (counts 1 1)]).port = .construct (counts 1 1) :: [] ∧
    ∃ t, step (p1.setPort [.construct (counts 1 1)]) = .next t := ⟨rfl, next_of (by decide)⟩

/-- P1 with one access waiting. -/
def asking (a : Access) : State := p1.setPort [.access a]

/-- The last offset of the window, an access of another size there, and the first offset beyond the window. -/
theorem witness_StepRunsDecodedAccess :
    ((asking (.read 0x413 4)).cfg.ok = true ∧ decodeAccess p1.cfg (.read 0x413 4) = .ok (.rdBad 0x413) ∧
      (accessOffset (.read 0x413 4)).toNat < p1.cfg.windowSize) ∧
    (accessSize (.write 0x413 1 0) ≠ 4 ∧ (accessOffset (.write 0x413 1 0)).toNat < p1.cfg.windowSize) ∧
    p1.cfg.windowSize ≤ (accessOffset (.read 0x414 4)).toNat := ⟨⟨by decide, rfl, by decide⟩, by decide, by decide⟩

theorem witness_FetchedWordRunsNext :
    p1.cfg.ok = true ∧ (Instr.wrBad 0x413 0xffffffff).wf p1.cfg = true ∧ (Instr.wrDcke 1 0xffffffff).wf p1.cfg = true := by
  decide

theorem witness_IdleStepChangesNothing : p1.port = [] := rfl

theorem witness_NoDeviceIsRefused :
    ({ p1 with cfg := counts 3 5 } : State).cfg.ok = false ∧
    Config.ok { Config.default with windowSize := 0x413 } = false := by decide

theorem witness_DecodeEncodeRoundTrip :
    (Instr.wrDsd 1 4 0xffffffff).wf Config.default = true ∧ (Instr.rdBad 0x19f).wf Config.default = true := by decide

/-- The last channel register, the first core register, and an alias. -/
theorem witness_OffsetsDecodeExactly :
    locate Config.default 0x19c = .ch 1 4 .dsd ∧ locate Config.default 0x300 = .co 0 .dmac ∧
    locate Config.default 0x810 = .co 1 .dcke ∧ locate Config.default 0x2ff = .bad := by decide

theorem witness_WindowHoldsEveryRegister :
    small.ok = true ∧ small.windowSize = 0x314 ∧ Config.default.ok = true ∧ Config.default.windowSize = 0x414 ∧
    (asking (.write 0xffffffff 4 0)).cfg = Config.default := by decide

theorem witness_StepKeepsInvariant :
    MachineInv (asking (.write 0x10 4 kick)) ∧ ∃ t, step (asking (.write 0x10 4 kick)) = .next t :=
  ⟨⟨by decide, by unfold Quiescent; decide, by unfold UnconfiguredZero; decide, by decide, by decide⟩, next_of (by decide)⟩

theorem witness_ConfigurationNeverChanges :
    (∃ t, step (asking (.read 0x10 4)) = .next t) ∧ ∀ p rest, (asking (.read 0x10 4)).port ≠ .construct p :: rest :=
  ⟨next_of (by decide), fun p rest => by simp [asking, State.setPort]⟩

theorem witness_LogAndTraceOnlyGrow :
    (∃ t, step (asking (.write 0x413 4 0)) = .next t) ∧ locate p1.cfg (accessOffset (.write 0x413 4 0)) = .bad ∧
    ∃ t, step (asking (.write 0x10 4 kick)) = .next t := ⟨next_of (by decide), by decide, next_of (by decide)⟩

end Sys2Proof.Tests
end

section
/-! SUPPORT. Reset and the configuration (10_state.md R16, R20, R45, R46): what a reset request answers, what is zero in the
state it leaves and what stays, and that no operation writes the configuration. -/

namespace Sys2Proof.Machine

/-! ### What a reset keeps (R46, R215) -/

@[simp] theorem resetDevice_cfg (s : State) : (resetDevice s).cfg = s.cfg := rfl
@[simp] theorem resetDevice_irq (s : State) : (resetDevice s).irq = false := rfl
@[simp] theorem resetDevice_log (s : State) : (resetDevice s).log = s.log := rfl
@[simp] theorem resetDevice_mem (s : State) : (resetDevice s).mem = s.mem := rfl
@[simp] theorem resetDevice_port (s : State) : (resetDevice s).port = s.port := rfl
@[simp] theorem resetDevice_reply (s : State) : (resetDevice s).reply = none := rfl
@[simp] theorem resetDevice_bus (s : State) : (resetDevice s).bus = s.bus := rfl
@[simp] theorem resetDevice_draws (s : State) : (resetDevice s).draws = s.draws := rfl

/-- The step that serves a reset request, on a device that exists (R216). -/
theorem step_reset {s : State} {rest : List Request} (hok : s.cfg.ok = true) (hp : s.port = .reset :: rest) :
    step s = .next (resetDevice (s.setPort rest)) := by
  simp only [step, hp, resetRequest, setPort_cfg, hok, if_true]

/-! ### What a reset zeroes (R45, R214) -/

/-- The three cells of a configured core. -/
theorem resetDevice_cells {s : State} {c : CoreId} (hc : c.val < s.cfg.numCores) :
    ((resetDevice s).core c).dmac = 0 ∧ ((resetDevice s).core c).pend = 0 ∧ ((resetDevice s).core c).dcke = 0 := by
  rw [resetDevice_core, resetCore, if_pos hc]
  exact ⟨rfl, rfl, rfl⟩

/-- The registers of a configured channel of a configured core. -/
theorem resetDevice_chan_zero {s : State} {c : CoreId} {h : ChanId} (hc : c.val < s.cfg.numCores)
    (hh : h.val < s.cfg.numChannels) : (resetDevice s).chan c h = Channel.zero := by
  rw [resetDevice_chan, if_pos hc, if_pos hh]

/-! ### Reads of zero registers -/

/-- A read replies 0 where the value it answers is 0. -/
theorem exec_replies_zero {i : Instr} {s : State} {v : Word} (hv : v = 0) (e : exec i s = answer v s) :
    ∃ t, exec i s = .next t ∧ t.reply = some 0 :=
  ⟨s.respond (some v), e, congrArg some hv⟩

/-- The five reads of a core whose cells are zero; `DDRS` has no cell and reads 0 anyway (R126, D8). -/
theorem coreReads_reply_zero {s : State} {c : CoreId} (hd : (s.core c).dmac = 0) (hp : (s.core c).pend = 0)
    (hk : (s.core c).dcke = 0) :
    ∀ i ∈ [Instr.rdDmac c, .rdDirqp c, .rdDdr c, .rdDdrs c, .rdDcke c], ∃ t, exec i s = .next t ∧ t.reply = some 0 := by
  simp only [List.mem_cons, List.not_mem_nil, or_false]
  rintro i (rfl | rfl | rfl | rfl | rfl)
  · exact exec_replies_zero hd rfl
  · exact exec_replies_zero hp rfl
  · exact exec_replies_zero hp rfl
  · exact exec_replies_zero rfl rfl
  · exact exec_replies_zero hk rfl

/-- The eight reads of a channel whose registers are zero; `DTC` and `DRT` answer theirs zero-extended. -/
theorem chanReads_reply_zero {s : State} {c : CoreId} {h : ChanId} (hz : s.chan c h = Channel.zero) :
    ∀ i ∈ [Instr.rdDsa c h, .rdDta c h, .rdDtc c h, .rdDrt c h, .rdDcs c h, .rdDcm c h, .rdDda c h, .rdDsd c h],
      ∃ t, exec i s = .next t ∧ t.reply = some 0 := by
  simp only [List.mem_cons, List.not_mem_nil, or_false]
  rintro i (rfl | rfl | rfl | rfl | rfl | rfl | rfl | rfl)
  · exact exec_replies_zero (congrArg Channel.dsa hz) rfl
  · exact exec_replies_zero (congrArg Channel.dta hz) rfl
  · exact exec_replies_zero (congrArg (fun ch => zext32 ch.dtc) hz) rfl
  · exact exec_replies_zero (congrArg (fun ch => zext32 ch.drt) hz) rfl
  · exact exec_replies_zero (congrArg Channel.dcs hz) rfl
  · exact exec_replies_zero (congrArg Channel.dcm hz) rfl
  · exact exec_replies_zero (congrArg Channel.dda hz) rfl
  · exact exec_replies_zero (congrArg Channel.dsd hz) rfl

/-! ### The configuration (R16) -/

/-- No operation writes the configuration: neither a pass nor one that starts none. -/
theorem exec_cfg {i : Instr} {s t : State} (e : exec i s = .next t) : t.cfg = s.cfg := by
  rcases exec_cases e with ⟨_, _, _, -, pass⟩ | ⟨_, _, -, pass⟩ | ⟨_, _, -, pass⟩ | ⟨-, -, quiet⟩
  · exact pass.cfg
  · exact pass.cfg
  · exact pass.cfg
  · exact quiet.cfg

/-! ### The obligations of reset and configuration -/

/-- Settles O44: the registers are those of the reset device, and a read of a zero register replies 0. -/
theorem resetZeroesEveryRegister : Obligations.ResetZeroesEveryRegister := by
  intro s rest hok hp
  refine ⟨_, step_reset hok hp, fun c hc => ?_⟩
  obtain ⟨hd, hq, hk⟩ := resetDevice_cells (s := s.setPort rest) hc
  refine ⟨hd, hq, hk, coreReads_reply_zero hd hq hk, fun h hh => ?_⟩
  have hz := resetDevice_chan_zero (s := s.setPort rest) hc hh
  exact ⟨hz, chanReads_reply_zero hz⟩

/-- Settles O45: the step leaves the reset device, by the laws of its fields. -/
theorem resetKeepsLogAndDownstream : Obligations.ResetKeepsLogAndDownstream := by
  intro s rest hok hp
  exact ⟨_, step_reset hok hp, by simp⟩

/-- Settles O59, by the ways a step can go: the construction is excluded, and every other one keeps the configuration. -/
theorem configurationNeverChanges : Obligations.ConfigurationNeverChanges := by
  intro s t e hne
  rcases step_cases e with ⟨-, rfl⟩ | ⟨p, rest, hp, -⟩ | ⟨rest, -, -, rfl⟩ | ⟨a, rest, -, -, rfl | ⟨i, -, ei⟩⟩
  · rfl
  · exact absurd hp (hne p rest)
  · simp
  · simp
  · simpa using exec_cfg ei

/-- Settles O53: each clause runs the decoder on one closed record. -/
theorem decodedWords : Obligations.DecodedWords :=
  ⟨rfl, rfl, rfl, rfl, rfl, rfl, rfl, rfl⟩

end Sys2Proof.Machine
end

section
/-! SUPPORT. Memory (20_memory.md): reads of registers have no side effects (R62), the window holds every register (R52),
what a transfer that RAM answers leaves in RAM (R54, R55, R71), and where a register write is refused (R77). -/

namespace Sys2Proof.Machine

section Lemmas

variable {c : CoreId} {h : ChanId} {u : Setup} {v : Word} {s : State}

/-! ### Reads of registers (R62) -/

/-- The word a read operation returns (R103 to R130): a register, or 0 for DDRS (R126) and an invalid offset (R130). -/
def readValue (s : State) : Instr → Word
  | .rdDsa c h => (s.chan c h).dsa
  | .rdDta c h => (s.chan c h).dta
  | .rdDtc c h => zext32 (s.chan c h).dtc
  | .rdDrt c h => zext32 (s.chan c h).drt
  | .rdDcs c h => (s.chan c h).dcs
  | .rdDcm c h => (s.chan c h).dcm
  | .rdDda c h => (s.chan c h).dda
  | .rdDsd c h => (s.chan c h).dsd
  | .rdDmac c => (s.core c).dmac
  | .rdDirqp c => (s.core c).pend
  | .rdDdr c => (s.core c).pend
  | .rdDcke c => (s.core c).dcke
  | _ => 0

/-- The value depends on the register banks alone. -/
theorem readValue_congr {t : State} (e : t.cores = s.cores) (i : Instr) : readValue t i = readValue s i := by
  cases i <;> simp only [readValue, State.chan, State.core, e]

theorem answer_logging_nothing (x : Word) (s : State) :
    answer x s = .next { s with reply := some x, log := s.log ++ [] } := by
  rw [List.append_nil]; rfl

/-- What a read does, whole: its value goes out, and its own events, those of an invalid read, are logged. -/
theorem exec_read {i : Instr} (hi : isRead i = true) (s : State) :
    exec i s = .next { s with reply := some (readValue s i), log := s.log ++ ownEvents i } := by
  cases i
  case rdBad off => rfl
  case rdDsa | rdDta | rdDtc | rdDrt | rdDcs | rdDcm | rdDda | rdDsd | rdDmac | rdDirqp | rdDdr | rdDdrs | rdDcke =>
    exact answer_logging_nothing _ s
  all_goals cases hi

/-! ### The register window (R52) -/

/-- The least window ends 0x14 bytes into the last configured core's control block. -/
theorem leastWindow_eq {cfg : Config} (hok : cfg.ok = true) : cfg.leastWindow = 0x214 + 0x100 * cfg.numCores := by
  obtain ⟨-, hn, -, -⟩ := Config.ok_bounds hok
  unfold Config.leastWindow
  split <;> omega

/-- An access at WINDOW_SIZE or above is consumed and answered with nothing (R52, log 14). -/
theorem step_beyond_window {a : Access} {rest : List Request} (hok : s.cfg.ok = true) (hp : s.port = .access a :: rest)
    (ha : s.cfg.windowSize ≤ (accessOffset a).toNat) : step s = .next { s with port := rest, reply := none } := by
  have hr : reaches s.cfg a = false := decide_eq_false (Nat.not_lt.2 ha)
  simp only [step, hp, serve, setPort_cfg, hok, hr, if_true, Bool.false_eq_true, if_false]
  rfl

/-! ### Transfers that RAM answers (R54, R55, R71) -/

/-- A piece of the engine's work that completes keeps what the engine keeps. -/
theorem Ends.keeps {α : Type} {t : State} {x : α} {y : EngineResult α} (hy : Ends c h s y) (e : y = .ok x t) :
    Keeps c h s t := by
  rcases hy with ⟨_, _, e', k⟩ | ⟨_, _, e', -⟩ | ⟨_, _, _, e', -⟩ <;> cases e.symm.trans e'
  exact k

/-- A DCS write that makes a channel ready, where RAM answers the transfer: RAM is that of the chunks one after another, the
count has run down, TT is set, and no core register changed. -/
theorem exec_wrDcs_ram (hr : Ready c h u (afterDcsWrite c h v s))
    (ha : AllRam s.cfg (channelTrace u s.cfg.layout (s.chan c h))) :
    ∃ t, exec (.wrDcs c h v) s = .next t ∧
      t.mem = transferImage u ((s.chan c h).sai s.cfg.layout) ((s.chan c h).dai s.cfg.layout) (s.chan c h).dtc.toNat
        s.draws (s.chan c h).dsa (s.chan c h).dta s.mem ∧
      (t.chan c h).dtc = 0 ∧ (t.chan c h).dcs = setBit v s.cfg.layout.dcs.tt ∧ CoresKept s t := by
  have fit := Fits.of_setup hr.2.2
  obtain ⟨s1, e1, m1⟩ := chunkLoop_ram fit _ (afterDcsWrite c h v s) (by rw [afterDcsWrite_chan_self]; exact ha)
  have c1 := ((chunkLoop_spec fit.read fit.write _ _).1 s1 e1).1
  have k1 := (chunkLoop_ends (c := c) (h := h) u _ _).keeps e1
  have ran : runChannel c h (afterDcsWrite c h v s) = .ok (.success, completeTransfer c h (transferEnd c h s1)) := by
    rw [runChannel_ready hr, afterDcsWrite_chan_self, e1]
  refine ⟨_, execWrDcs_next ran, ?_, ?_, ?_, fun c' => ?_⟩
  · rw [afterDcsWrite_chan_self] at m1
    rw [completeTransfer_mem, transferEnd_mem, m1]
    rfl
  · simp [c1, Channel.after]
  · simp [k1.dcs, k1.cfg]
  · simp [k1.dmac, k1.pend, k1.dcke]

/-- The bytes sent are those of the source, in order, where both phases of a chunk reach a unit and nothing else. -/
theorem sentByte_eq_source (hr : readRun u = u.tsz) (hw : writeRun u = u.tsz) (draws : Nat) (src : Word) (m : Memory)
    {n i : Nat} (hi : i < n * u.tsz) : sentByte u true draws src m i = m.read (byteAddr src i).toNat := by
  have hpos : 0 < u.tsz := Nat.pos_of_mul_pos_left (Nat.zero_lt_of_lt hi)
  rw [sentByte, hr, hw, if_pos (Nat.mod_lt i hpos), runAddr_true, Nat.div_add_mod']

/-- A write phase of one sub-access stores one run of bytes. -/
theorem unitImage_single (hk : subCount u.tsz u.dp = 1) (dai : Bool) (dst : Word) (f : Nat → Byte) (m : Memory) :
    unitImage u dai dst f m = m.writeBytes dst ((List.range u.dp).map f) := by
  simp [unitImage, hk, List.range_one]

/-! ### Refusals (R77, D22) -/

/-- A pass is refused where it comes to a ready channel whose transfer stops at the block's own window. -/
theorem runChannels_own {hs hs' : List ChanId} {t : State} {op : Dir × Word × Nat} (e : runChannels c hs s = .ok t)
    (hr : Ready c h u t) (ho : StopsAtOwn s.cfg (channelTrace u s.cfg.layout (t.chan c h)) op) :
    passOutcome (runChannels c (hs ++ h :: hs') s) = .refused (.reentrant op.1 op.2.1 op.2.2) := by
  rw [← (runChannels_keeps hs e).cfg] at ho
  exact passOutcome_refused.2 (runChannels_append hs e (runChannel_own hr ho))

/-- An operation that is refused names a sub-access that reaches the block's own window: only those that start a pass
issue one. -/
theorem exec_refused {i : Instr} {r : Refusal} (e : exec i s = .refused r) :
    ∃ dir a n, r = .reentrant dir a n ∧ route s.cfg dir a n = .own := by
  cases i
  case wrDcs c h v =>
    rw [exec, execWrDcs_eq, passOutcome_refused] at e
    cases e1 : runChannel c h (afterDcsWrite c h v s) with
    | error r' =>
      rw [e1] at e
      cases e
      simpa using runChannel_refused e1
    | ok x =>
      rw [e1] at e
      cases e
  case wrDmac c v =>
    rw [exec, execWrDmac_eq, passOutcome_refused] at e
    simpa using runChannels_refused _ e
  case wrDdrs c v =>
    rw [exec, execWrDdrs_eq, passOutcome_refused] at e
    exact runChannels_refused (s := afterDdrsWrite c v s) _ e
  all_goals cases e

end Lemmas

/-! ### The obligations of memory -/

/-- Settles O6: a read changes the reply and, if invalid, the log, and its value depends on neither. -/
theorem readsHaveNoSideEffects : Obligations.ReadsHaveNoSideEffects := by
  intro i s hi
  refine ⟨_, exec_read hi s, fun _ _ => rfl, fun _ => ⟨rfl, rfl, rfl⟩, fun _ => rfl, ⟨rfl, rfl, rfl, rfl, rfl⟩, rfl,
    _, exec_read hi _, ?_⟩
  exact congrArg some (readValue_congr (t := { s with reply := _, log := _ }) rfl i)

/-- Settles O26: the transfer's image, which is a copy of whole units where no phase is longer than a unit. -/
theorem ramTransferCopiesUnitByUnit : Obligations.RamTransferCopiesUnitByUnit := by
  intro s c h v u hr ha
  obtain ⟨t, e, hm, hd, hc, hk⟩ := exec_wrDcs_ram hr ha
  have runs := subCount_mul hr.2.2
  refine ⟨t, e, hm, fun hs hda hsp hdp => ?_, hd, hc, hk⟩
  rw [hm, hs, hda, transferImage_copies (Fits.of_setup hr.2.2) (runs.1 hsp) (runs.2 hdp)]

/-- Settles O27: the transfer's image byte by byte, as Laws/Image.lean has it. -/
theorem disjointRamTransferCopiesImage : Obligations.DisjointRamTransferCopiesImage := by
  intro s c h v u hr ha hwf hdis
  obtain ⟨t, e, hm, -⟩ := exec_wrDcs_ram hr ha
  have fit := Fits.of_setup hr.2.2
  have runs := subCount_mul hr.2.2
  have hlen : (s.chan c h).dtc.toNat * writeRun u < 2 ^ 32 :=
    calc _ ≤ (2 ^ 24 - 1) * 64 := Nat.mul_le_mul (Nat.le_pred_of_lt (s.chan c h).dtc.isLt) fit.write
      _ < 2 ^ 32 := by decide
  have sent (hda : (s.chan c h).dai s.cfg.layout = true) : ∀ q < (s.chan c h).dtc.toNat * writeRun u,
      t.mem.read (byteAddr (s.chan c h).dta q).toNat =
        sentByte u ((s.chan c h).sai s.cfg.layout) s.draws (s.chan c h).dsa s.mem q := by
    rw [hda] at hm hdis
    rw [hm]
    exact transferImage_in_true fit _ _ _ _ _ hwf hlen hdis
  refine ⟨t, e, sent, fun hda hn j hj => ?_, fun hsa hda hsp hdp i hi => ?_, fun a hout => ?_⟩
  · rw [hda] at hm hdis
    have hpos : 0 < (s.chan c h).dtc.toNat := Nat.pos_of_ne_zero fun hz => hn (BitVec.eq_of_toNat_eq hz)
    rw [hm]
    exact transferImage_in_false fit hj _ _ _ _ _ hwf hpos hdis
  · rw [sent hda i (by rwa [runs.2 hdp]), hsa, sentByte_eq_source (runs.1 hsp) (runs.2 hdp) _ _ _ hi]
  · rw [hm]
    exact transferImage_out fit _ _ _ _ _ hout

/-- Settles O28: the one chunk reads one byte and stores four buffer bytes, of which the reads filled the first. -/
theorem unfilledBytesAreFree : Obligations.UnfilledBytesAreFree := by
  rintro s c h v ⟨_, _, _⟩ hr rfl rfl rfl hn hwf hread hwrite
  have trace : channelTrace ⟨1, 4, 1⟩ s.cfg.layout (s.chan c h) =
      [(.read, (s.chan c h).dsa, 1), (.write, (s.chan c h).dta, 4)] := by
    simp [channelTrace, hn, transferTrace, chunkTrace, subCount]
  have ha : AllRam s.cfg (channelTrace ⟨1, 4, 1⟩ s.cfg.layout (s.chan c h)) := by
    rw [trace]
    exact List.forall_mem_cons.2 ⟨hread, List.forall_mem_singleton.2 hwrite⟩
  obtain ⟨t, e, hm, -⟩ := exec_wrDcs_ram hr ha
  rw [hn, show BitVec.toNat (1 : BitVec 24) = 1 from rfl, transferImage, transferImage, unitImage_single (by rfl)] at hm
  have bytes : ∀ j < 4, t.mem.read (byteAddr (s.chan c h).dta j).toNat =
      sentByte ⟨1, 4, 1⟩ ((s.chan c h).sai s.cfg.layout) s.draws (s.chan c h).dsa s.mem j := fun j hj => by
    rw [hm, Memory.read_writeBytes_in _ _ hwf (by simp) j (by simpa using hj)]
    simp
  refine ⟨t, e, ?_, fun j h0 hj => ?_, fun a hout => ?_⟩
  · have first := bytes 0 (by decide)
    rw [byteAddr_zero] at first
    rw [first]
    simp [sentByte, readRun, writeRun, subCount, runAddr, byteAddr_zero]
  · rw [bytes j hj]
    simp [sentByte, readRun, writeRun, subCount, Nat.div_eq_of_lt hj, Nat.mod_eq_of_lt hj, Nat.ne_of_gt h0]
  · rw [hm]
    exact Memory.read_writeBytes_out _ _ _ _ (by simpa using hout)

/-- Settles O31: run-channel is refused where its transfer stops at the block's own window, and so is the pass that comes
to it; nothing else refuses. -/
theorem ownWindowAccessIsRefused : Obligations.OwnWindowAccessIsRefused := by
  refine fun s c u op => ⟨fun h v hr ho => ?_, fun v hs h hs' t hids e hr ho => ?_, fun v hs h hs' t hids e hr ho => ?_,
    fun i r => exec_refused⟩
  · have := runChannel_own hr (op := op) (by rw [afterDcsWrite_chan_self]; exact ho)
    rw [exec, execWrDcs_eq, this]
    rfl
  · rw [exec, execWrDmac_eq, hids]
    exact runChannels_own e hr ho
  · rw [exec, execWrDdrs_eq, hids]
    exact runChannels_own e hr ho

/-- Settles O56: the last register offset of core `c` is `0x310 + 0x100*c`, below the least window. -/
theorem windowHoldsEveryRegister : Obligations.WindowHoldsEveryRegister := by
  intro cfg hok
  obtain ⟨-, -, -, hwin⟩ := Config.ok_bounds hok
  rw [leastWindow_eq hok] at hwin
  refine ⟨fun c hc r => ⟨?_, fun h q => ?_⟩, by omega, ?_⟩
  · have := CoReg.sel_le r
    rw [CoReg.offset_toNat]
    omega
  · have := ChReg.sel_le q
    have := h.isLt
    rw [ChReg.offset_toNat]
    omega
  · rintro s a rest rfl hp ha
    exact step_beyond_window hok hp ha

end Sys2Proof.Machine
end

section
/-! SUPPORT. Encoding (30_encoding.md): the record of every instruction decodes to it (R81 to R83), which offsets select
which register (R83 to R85), and what the field codes of the preconditions come to (R92, R93, R151). -/

namespace Sys2Proof

/-! ### Records (R81) -/

/-- The record of an instruction carries its access, and the bytes after it stay. -/
theorem ofBytes_encode (i : Instr) (rest : List Byte) : Access.ofBytes (encode i ++ rest) = .ok (i.access, rest) := by
  cases i
  case rdDsa | rdDta | rdDtc | rdDrt | rdDcs | rdDcm | rdDda | rdDsd | rdDmac | rdDirqp | rdDdr | rdDdrs | rdDcke | rdBad =>
    exact ofBytes_read _ rest
  all_goals exact ofBytes_write _ _ rest

/-! ### Offsets (R83 to R85) -/

theorem locate_of_lt {off : Word} (cfg : Config) (ho : off.toNat < 0x300) : locate cfg off = locateCh cfg off :=
  if_pos ho

theorem locate_of_ge {off : Word} (cfg : Config) (ho : 0x300 ≤ off.toNat) : locate cfg off = locateCr cfg off :=
  if_neg (Nat.not_lt.2 ho)

/-- The offsets that select a channel register: its own only (R24). -/
theorem locate_eq_ch_iff (cfg : Config) (off : Word) (c : CoreId) (h : ChanId) (r : ChReg) :
    locate cfg off = .ch c h r ↔
      c.val < cfg.numCores ∧ h.val < cfg.numChannels ∧ off.toNat = 0x100 * c.val + 0x20 * h.val + r.sel := by
  have hr := ChReg.sel_le r
  rcases Nat.lt_or_ge off.toNat 0x300 with ho | ho
  · rw [locate_of_lt cfg ho, locateCh_iff]
    omega
  · rw [locate_of_ge cfg ho]
    exact iff_of_false (locateCr_ne_ch cfg off c h r) (by omega)

/-- The offsets that select a core register: its own and, from 0x700 up, the aliases with period 0x400 (R35, R85). -/
theorem locate_eq_co_iff (cfg : Config) (off : Word) (c : CoreId) (r : CoReg) :
    locate cfg off = .co c r ↔
      c.val < cfg.numCores ∧ ∃ n, off.toNat = 0x300 + 0x100 * c.val + r.sel + 0x400 * n := by
  have hr := CoReg.sel_le r
  rcases Nat.lt_or_ge off.toNat 0x300 with ho | ho
  · rw [locate_of_lt cfg ho]
    exact iff_of_false (locateCh_ne_co cfg off c r) fun ⟨_, n, hn⟩ => by omega
  · rw [locate_of_ge cfg ho, locateCr_iff cfg off c r ho]
    refine and_congr_right fun _ => ⟨fun _ => ⟨(off.toNat - 0x300) / 0x400, by omega⟩, ?_⟩
    rintro ⟨n, hn⟩
    omega

end Sys2Proof

namespace Sys2Proof.Machine

/-! ### Field codes (R92, R93, R151) -/

theorem portWidth_eq_some_iff (code : BitVec 2) (n : Nat) :
    portWidth code = some n ↔ (code, n) ∈ [(0#2, 4), (1#2, 1), (2#2, 2)] := by
  obtain ⟨k, hk⟩ := code
  interval_cases k <;> simp [portWidth, eq_comm]

theorem transferSize_eq_some_iff (code : BitVec 3) (n : Nat) :
    transferSize code = some n ↔ (code, n) ∈ [(0#3, 4), (1#3, 1), (2#3, 2), (3#3, 16), (4#3, 32), (5#3, 64)] := by
  obtain ⟨k, hk⟩ := code
  interval_cases k <;> simp [transferSize, eq_comm]

/-- The preconditions pass exactly when none of the five fails; the fields are then the decoded ones. -/
theorem setup_eq_ok_iff {cfg : Config} {c : CoreId} {h : ChanId} {ch : Channel} {u : Setup} :
    setup cfg c h ch = .ok u ↔
      ch.drt = cfg.drtAuto ∧ ch.stde cfg.layout = false ∧
      portWidth ch.sp = some u.sp ∧ portWidth ch.dp = some u.dp ∧ transferSize ch.tsz = some u.tsz := by
  constructor
  · intro e
    obtain ⟨hsp, hdp, htsz, hdrt, hstde⟩ := setup_bounds e
    exact ⟨hdrt, hstde, hsp, hdp, htsz⟩
  · rintro ⟨hdrt, hstde, hsp, hdp, htsz⟩
    simp [setup, hdrt, hstde, hsp, hdp, htsz]

/-! ### The obligations of the encoding -/

/-- Settles O54: the record carries the instruction's access, and that access decodes to the instruction. -/
theorem decodeEncodeRoundTrip : Obligations.DecodeEncodeRoundTrip := by
  intro cfg i rest hw
  simp only [decode, ofBytes_encode, decodeAccess_access hw]

/-- Settles O55, by the offsets of the channel registers and those of the core registers. -/
theorem offsetsDecodeExactly : Obligations.OffsetsDecodeExactly :=
  fun cfg off => ⟨locate_eq_ch_iff cfg off, locate_eq_co_iff cfg off⟩

/-- Settles O19: each precondition is one clause, and the tables give the codes that have a width or a size. -/
theorem setupReadsFieldCodes : Obligations.SetupReadsFieldCodes := by
  intro cfg c h ch u
  rw [setup_eq_ok_iff, portWidth_eq_some_iff, portWidth_eq_some_iff, transferSize_eq_some_iff]

end Sys2Proof.Machine
end

section
/-! SUPPORT. Decode and dispatch (40_decode_dispatch.md): which instruction a step runs (R101, R102, R129), what the reads
answer and the plain stores change (R103 to R131), and the writes that start a pass (R112, R120, R125, R139). -/

namespace Sys2Proof.Machine

section Lemmas

variable {c : CoreId} {h : ChanId} {i : Instr} {s : State}

/-! ### Plain stores (R104 to R118, R122 to R128) -/

/-- An instruction that stores a channel's registers stores them and does nothing else. -/
theorem exec_stores_chan {ch : Channel} (e : exec i s = storeChan c h ch s) :
    ∃ t, exec i s = .next t ∧ ChannelStored c h ch s t :=
  ⟨_, e, storeChan_stored s ch⟩

/-- An instruction that stores a core's three cells stores them and does nothing else. -/
theorem exec_stores_core {k : CoreBank} (hk : k.channels = (s.core c).channels) (e : exec i s = storeCore c k s) :
    ∃ t, exec i s = .next t ∧ CoreStored c k.dmac k.pend k.dcke s t :=
  ⟨_, e, storeCore_stored s k hk⟩

/-! ### The pass over a core (R120, R125, R139) -/

/-- The configured channels are those with index below NUM_CHANNELS, in index order (R139, R148). -/
theorem channelIds_map_val (cfg : Config) : (channelIds cfg).map Fin.val = List.range (min cfg.numChannels 5) := by
  unfold channelIds
  rcases Nat.lt_or_ge cfg.numChannels 5 with hn | hn
  · interval_cases cfg.numChannels <;> rfl
  · have all : ∀ h ∈ ([0, 1, 2, 3, 4] : List ChanId), decide (h.val < cfg.numChannels) = true :=
      fun h _ => decide_eq_true (Nat.lt_of_lt_of_le h.isLt hn)
    rw [List.filter_eq_self.2 all, Nat.min_eq_right hn]
    rfl

/-- A pass is run-channel folded over its channels, each on the state the one before left, up to the first refusal. -/
theorem runChannels_eq_foldlM (c : CoreId) : ∀ (hs : List ChanId) (s : State),
    runChannels c hs s = hs.foldlM (fun t h => (runChannel c h t).map Prod.snd) s
  | [], _ => rfl
  | h :: hs, s => by
    rw [runChannels, List.foldlM_cons]
    cases runChannel c h s with
    | error r => rfl
    | ok x => exact runChannels_eq_foldlM c hs x.2

/-- With DMAE clear no channel of the core is runnable (R135). -/
theorem not_runnable_of_dmac_dmae (e : bitAt (s.core c).dmac s.cfg.layout.dmac.dmae = false) (h : ChanId) :
    runnable s c h = false :=
  Bool.eq_false_iff.2 fun er => Bool.eq_false_iff.1 e (runnable_iff.1 er).1

/-- A DMAC write does what its pass does to the state with the value stored. -/
theorem exec_wrDmac_next {v : Word} {t : State}
    (e : runChannels c (channelIds s.cfg) (afterDmacWrite c v s) = .ok t) : exec (.wrDmac c v) s = .next t :=
  passOutcome_next.2 e

/-- A DDRS write does what its pass does to the state with the value ORed in. -/
theorem exec_wrDdrs_next {v : Word} {t : State}
    (e : runChannels c (channelIds s.cfg) (afterDdrsWrite c v s) = .ok t) : exec (.wrDdrs c v) s = .next t :=
  passOutcome_next.2 e

/-- ORing into PEND makes no channel runnable and stops none from being so: PEND is not among R135's bits. -/
theorem runnable_afterDdrsWrite (c : CoreId) (v : Word) (s : State) (h : ChanId) :
    runnable (afterDdrsWrite c v s) c h = runnable s c h := by
  obtain ⟨hdmac, -, -, -, hchan, -⟩ := afterDdrsWrite_stored c v s
  exact runnable_congr rfl hdmac (congrArg Channel.dcs (hchan c h))

/-! ### The access a step serves (R14, R52, R101, R102, R129) -/

/-- An access within the window of a device that exists is decoded and run on the state with the request consumed. -/
theorem step_in_window {a : Access} {rest : List Request} (hp : s.port = .access a :: rest) (hok : s.cfg.ok = true)
    (ha : (accessOffset a).toNat < s.cfg.windowSize) : step s = runAccess a (s.setPort rest) := by
  have hr : reaches s.cfg a = true := decide_eq_true ha
  simp only [step, hp, serve, setPort_cfg, hok, hr, if_true]

theorem runAccess_of_decodes {a : Access} (e : decodeAccess s.cfg a = .ok i) : runAccess a s = exec i s := by
  simp only [runAccess, e]

/-- An access of a size other than 4 decodes to no instruction (R129, D1). -/
theorem decodeAccess_of_size_ne {a : Access} (cfg : Config) (ha : accessSize a ≠ 4) :
    decodeAccess cfg a = .error (.accessSize (accessOffset a) (accessSize a)) := by
  cases a with
  | read off size => exact if_neg ha
  | write off size v => exact if_neg ha

theorem runAccess_of_size_ne {a : Access} (ha : accessSize a ≠ 4) :
    runAccess a s = .refused (.accessSize (accessOffset a) (accessSize a)) := by
  simp only [runAccess, decodeAccess_of_size_ne s.cfg ha]

/-- The access of a well-formed instruction lies in the window of a device that exists (R52). -/
theorem accessOffset_lt_window {cfg : Config} (hok : cfg.ok = true) (hw : i.wf cfg = true) :
    (accessOffset i.access).toNat < cfg.windowSize := by
  obtain ⟨hregs, -, -⟩ := windowHoldsEveryRegister cfg hok
  have co {c : CoreId} {r : CoReg} (hc : coreExists cfg c = true) : (CoReg.offset c r).toNat < cfg.windowSize :=
    (hregs c (of_decide_eq_true hc) r).1
  have ch {c : CoreId} {h : ChanId} {r : ChReg} (hc : chanExists cfg c h = true) :
      (ChReg.offset c h r).toNat < cfg.windowSize :=
    (hregs c (of_decide_eq_true (Bool.and_eq_true_iff.1 hc).1) .dmac).2 h r
  cases i
  case rdBad | wrBad => exact of_decide_eq_true (Bool.and_eq_true_iff.1 hw).1
  case rdDmac | wrDmac | rdDirqp | wrDirqp | rdDdr | wrDdr | rdDdrs | wrDdrs | rdDcke | wrDcke => exact co hw
  all_goals exact ch hw

/-! ### Records as numbers (log 1 and 2) -/

theorem length_bytes (a : Access) : a.bytes.length = 9 := by
  cases a with
  | read off size => rfl
  | write off size v => rfl

/-- The number made of an instruction's nine bytes gives those bytes back, at 72 bits. -/
theorem recordOfNat_encode (i : Instr) :
    recordOfNat 72 ((encode i).foldr (fun b n => b.toNat + 256 * n) 0) = encode i := by
  obtain ⟨hlt, hbytes⟩ := bytesOfNat_foldr (encode i)
  have hlen : (encode i).length = 9 := length_bytes i.access
  rw [hlen] at hlt hbytes
  rw [recordOfNat, show 2 ^ 72 = 256 ^ 9 from rfl, Nat.mod_eq_of_lt hlt, hbytes]

theorem accessOfNat_encode (i : Instr) :
    accessOfNat 72 ((encode i).foldr (fun b n => b.toNat + 256 * n) 0) = some i.access := by
  have record := ofBytes_encode i []
  rw [List.append_nil] at record
  simp only [accessOfNat, recordOfNat_encode, record]

/-- An instruction's record puts the instruction's access in front of every request waiting. -/
theorem withFetchWord_encode (i : Instr) (s : State) :
    s.withFetchWord 72 ((encode i).foldr (fun b n => b.toNat + 256 * n) 0) = s.setPort (.access i.access :: s.port) := by
  simp only [State.withFetchWord, placeAccess, accessOfNat_encode]

end Lemmas

/-! ### The obligations of decode and dispatch: reads -/

/-- Settles O1: each read answers its register. -/
theorem channelReadsReturnStored : Obligations.ChannelReadsReturnStored :=
  fun _ _ _ => ⟨rfl, rfl, rfl, rfl, rfl, rfl, rfl, rfl⟩

/-- Settles O2: each read answers its cell. -/
theorem coreReadsReturnStored : Obligations.CoreReadsReturnStored :=
  fun _ _ => ⟨rfl, rfl, rfl⟩

/-- Settles O3: DDR answers the cell of DIRQP, and DDRS, which has none, 0. -/
theorem doorbellAliasReads : Obligations.DoorbellAliasReads :=
  fun _ _ => ⟨rfl, rfl, rfl⟩

/-- Settles O4: the event is logged and 0 answered. -/
theorem badReadReturnsZero : Obligations.BadReadReturnsZero :=
  fun _ _ => ⟨rfl, rfl, rfl⟩

/-! ### Writes that start no pass -/

/-- Settles O5: the event is logged and nothing answered. -/
theorem badWriteIsDropped : Obligations.BadWriteIsDropped :=
  fun _ _ _ => ⟨rfl, rfl, rfl⟩

/-- Settles O7: each of the seven is a plain store of the channel's registers. -/
theorem channelWritesStore : Obligations.ChannelWritesStore :=
  fun _ _ _ _ => ⟨exec_stores_chan rfl, exec_stores_chan rfl, exec_stores_chan rfl, exec_stores_chan rfl,
    exec_stores_chan rfl, exec_stores_chan rfl, exec_stores_chan rfl⟩

/-- Settles O8: both are plain stores of the core's cells. -/
theorem coreWritesStore : Obligations.CoreWritesStore :=
  fun s c v => ⟨exec_stores_core (k := { s.core c with pend := v }) rfl rfl,
    exec_stores_core (k := { s.core c with dcke := v }) rfl rfl⟩

/-- Settles O9: a plain store into the cell of DIRQP. -/
theorem ddrWriteStoresPend : Obligations.DdrWriteStoresPend :=
  fun s c v => exec_stores_core (k := { s.core c with pend := v }) rfl rfl

/-! ### Writes that start a pass -/

/-- Settles O11, by what run-channel ends in. -/
theorem dcsWriteStoresThenRunsChannel : Obligations.DcsWriteStoresThenRunsChannel := by
  intro s c h v
  change execWrDcs c h v s = match runChannel c h (afterDcsWrite c h v s) with
    | .ok (_, t) => .next t
    | .error r => .refused r
  rw [execWrDcs_eq]
  cases runChannel c h (afterDcsWrite c h v s) <;> rfl

/-- Settles O12: the pass is the fold of run-channel over the configured channels. -/
theorem dmacWriteStoresThenRunsCore : Obligations.DmacWriteStoresThenRunsCore :=
  fun s c v => ⟨congrArg passOutcome (runChannels_eq_foldlM c (channelIds s.cfg) (afterDmacWrite c v s)),
    channelIds_map_val s.cfg⟩

/-- Settles O34: a pass answers a state where nothing routes to the own window, and keeps what `PassKeeps` says of the state
with the value stored. -/
theorem dmacWriteFrame : Obligations.DmacWriteFrame := by
  intro s c v hw
  obtain ⟨t, e⟩ := runChannels_ok (c := c) (channelIds s.cfg) (s := afterDmacWrite c v s) hw
  have pass := runChannels_keeps _ e
  have hdmac := pass.dmac
  rw [afterDmacWrite_core_self] at hdmac
  obtain ⟨ops, hbus, -, hmem⟩ := pass.bus
  refine ⟨t, exec_wrDmac_next e, fun c' hc => ?_, hdmac, fun h => ?_, fun c' => ?_, pass.irq, pass.cfg, ops, hbus, hmem⟩
  · rw [pass.coreOther hc, afterDmacWrite_core_ne v s hc]
  · have hdcs := pass.dcs h
    rw [afterDmacWrite_chan] at hdcs
    rw [pass.drt, pass.dcm, pass.dda, pass.dsd, afterDmacWrite_chan]
    exact ⟨rfl, rfl, rfl, rfl, hdcs⟩
  · rw [pass.pend, pass.dcke, afterDmacWrite_pend, afterDmacWrite_dcke]
    exact ⟨rfl, rfl⟩

/-- Settles O35: the pass finds no channel runnable, since PEND decides no channel's runnability. -/
theorem ddrsWriteOnlySetsPend : Obligations.DdrsWriteOnlySetsPend := by
  intro s c v quiet
  have idle : ∀ h ∈ channelIds s.cfg, runnable (afterDdrsWrite c v s) c h = false :=
    fun h _ => (runnable_afterDdrsWrite c v s h).trans (quiet c h)
  exact ⟨_, exec_wrDdrs_next (runChannels_notRunnable _ idle), afterDdrsWrite_stored c v s⟩

/-- Settles O36: each of the three bits of the written value rules every channel of the core out, and a pass that finds none
runnable changes nothing. -/
theorem dmacWriteRunningNothingOnlyStores : Obligations.DmacWriteRunningNothingOnlyStores := by
  intro s c v
  have hv : ((afterDmacWrite c v s).core c).dmac = v := congrArg CoreBank.dmac (afterDmacWrite_core_self c v s)
  constructor
  · rintro (hdmae | hhlt | har)
    · exact not_runnable_of_dmac_dmae (by rwa [hv])
    · exact not_runnable_of_dmac_hlt (by rwa [hv])
    · exact not_runnable_of_dmac_ar (by rwa [hv])
  · intro idle
    exact ⟨_, exec_wrDmac_next (runChannels_notRunnable _ fun h _ => idle h),
      storeCore_stored s { s.core c with dmac := v } rfl⟩

/-- Settles O37: the pass skips the channels before the one that runs, and its run makes none of those after it runnable. -/
theorem dmacWriteStartsWaitingChannel : Obligations.DmacWriteStartsWaitingChannel := by
  intro s t c h v o hh _ others e
  refine exec_wrDmac_next (runChannels_first _ (mem_channelIds.2 hh) (channelIds_sorted _) (fun h' hlt => ?_) e
    fun h' hlt => ?_)
  · exact others h' (Fin.ne_of_lt hlt)
  · exact (runChannel_keeps e).notRunnable (others h' (Fin.ne_of_gt hlt))

/-! ### Steps -/

/-- Settles O49: within the window the access is decoded, which fails for another size; beyond it nothing happens. -/
theorem stepRunsDecodedAccess : Obligations.StepRunsDecodedAccess := by
  refine fun s a rest hp hok => ⟨fun i hi ha => ?_, fun hsize ha => ?_, step_beyond_window hok hp⟩
  · exact (step_in_window hp hok ha).trans (runAccess_of_decodes hi)
  · exact (step_in_window hp hok ha).trans (runAccess_of_size_ne hsize)

/-- Settles O50: the record places the instruction's access, which lies in the window and decodes to the instruction. -/
theorem fetchedWordRunsNext : Obligations.FetchedWordRunsNext := by
  intro s i hok hw
  have fetched : step (s.setPort (.access i.access :: s.port)) = runAccess i.access s :=
    step_in_window rfl hok (accessOffset_lt_window hok hw)
  rw [withFetchWord_encode, fetched, runAccess_of_decodes (decodeAccess_access hw)]

end Sys2Proof.Machine
end

section
/-! SUPPORT. The scheduler (41_scheduler.md): runnability (R135 to R137), descriptor mode (R141), what a pass leaves runnable
(R134), that cores do not interact (R149), sticky status bits (R145), the bound on a pass (R150, R173), and the invariant
between steps (R134). -/

namespace Sys2Proof.Machine

section Lemmas

variable {c : CoreId} {h : ChanId} {s t : State}

/-! ### The invariant while a pass runs (R134) -/

/-- The invariant but for quiescence, which a write that starts a pass suspends until its pass has ended. -/
structure PassInv (s : State) : Prop where
  cfgOk        : s.cfg.ok = true
  unconfigured : UnconfiguredZero s
  irqLow       : s.irq = false
  memWf        : s.mem.wf = true

theorem machineInv_iff : MachineInv s ↔ PassInv s ∧ Quiescent s :=
  ⟨fun ⟨hcfg, hq, hz, hirq, hmem⟩ => ⟨⟨hcfg, hz, hirq, hmem⟩, hq⟩,
    fun ⟨⟨hcfg, hz, hirq, hmem⟩, hq⟩ => ⟨hcfg, hq, hz, hirq, hmem⟩⟩

/-- Beyond the configured counts nothing appears where nothing is written there. -/
theorem UnconfiguredZero.of_kept (hz : UnconfiguredZero s) (hcfg : t.cfg = s.cfg)
    (hcore : ∀ c : CoreId, s.cfg.numCores ≤ c.val → t.core c = s.core c)
    (hchan : ∀ (c : CoreId) (h : ChanId), s.cfg.numChannels ≤ h.val → t.chan c h = s.chan c h) : UnconfiguredZero t := by
  obtain ⟨zcore, zchan⟩ := hz
  rw [UnconfiguredZero, hcfg]
  exact ⟨fun c hc => (hcore c hc).trans (zcore c hc), fun c h hh => (hchan c h hh).trans (zchan c h hh)⟩

/-- What writes no register, no RAM and not the line keeps it. -/
theorem PassInv.of_cores_eq (hs : PassInv s) (hcfg : t.cfg = s.cfg) (hcores : t.cores = s.cores) (hirq : t.irq = s.irq)
    (hmem : t.mem = s.mem) : PassInv t where
  cfgOk := hcfg ▸ hs.cfgOk
  unconfigured := hs.unconfigured.of_kept hcfg (fun c _ => by rw [State.core, hcores]; rfl)
    fun c h _ => by rw [State.chan, State.core, hcores]; rfl
  irqLow := hirq.trans hs.irqLow
  memWf := hmem ▸ hs.memWf

/-- A store into a configured channel of a configured core keeps it, whatever is stored. -/
theorem PassInv.storeChan (hs : PassInv s) (hc : c.val < s.cfg.numCores) (hh : h.val < s.cfg.numChannels) (ch : Channel) :
    PassInv ((s.setChan c h ch).respond none) where
  cfgOk := hs.cfgOk
  unconfigured := hs.unconfigured.of_kept rfl
    (fun _ hc' => core_setChan_ne s h ch (Fin.ne_of_gt (hc.trans_le hc')))
    fun _ _ hh' => chan_setChan_ne s ch fun e => Fin.ne_of_gt (hh.trans_le hh') e.2
  irqLow := hs.irqLow
  memWf := hs.memWf

/-- A store into a configured core's cells keeps it. -/
theorem PassInv.storeCore (hs : PassInv s) (hc : c.val < s.cfg.numCores) (k : CoreBank)
    (hk : k.channels = (s.core c).channels) : PassInv ((s.setCore c k).respond none) where
  cfgOk := hs.cfgOk
  unconfigured := hs.unconfigured.of_kept rfl (fun _ hc' => core_setCore_ne s k (Fin.ne_of_gt (hc.trans_le hc')))
    fun c' h' _ => chan_setCore s c k hk c' h'
  irqLow := hs.irqLow
  memWf := hs.memWf

/-- A pass over configured channels of a configured core keeps it. -/
theorem PassInv.pass {hs : List ChanId} {n m : Nat} (hi : PassInv s) (pass : PassKeeps c hs n m s t)
    (hc : c.val < s.cfg.numCores) (hhs : ∀ h ∈ hs, h.val < s.cfg.numChannels) : PassInv t where
  cfgOk := pass.cfg ▸ hi.cfgOk
  unconfigured := hi.unconfigured.of_kept pass.cfg (fun _ hc' => pass.coreOther (Fin.ne_of_gt (hc.trans_le hc')))
    fun c' h' hh' => pass.other c' h' fun ⟨_, hm⟩ => Nat.not_lt.2 hh' (hhs h' hm)
  irqLow := pass.irq.trans hi.irqLow
  memWf := pass.memWf hi.memWf

/-! ### The passes that a write starts (R140) -/

/-- A DMAC write that answers a next state ran its pass to it. -/
theorem exec_wrDmac_inv {v : Word} (e : exec (.wrDmac c v) s = .next t) :
    runChannels c (channelIds s.cfg) (afterDmacWrite c v s) = .ok t :=
  passOutcome_next.1 e

/-- A DDRS write that answers a next state ran its pass to it. -/
theorem exec_wrDdrs_inv {v : Word} (e : exec (.wrDdrs c v) s = .next t) :
    runChannels c (channelIds s.cfg) (afterDdrsWrite c v s) = .ok t :=
  passOutcome_next.1 e

/-! ### Passes end quiescent (R134) -/

/-- With CTE clear the channel is not runnable (R135). -/
theorem not_runnable_of_dcs_cte (e : bitAt (s.chan c h).dcs s.cfg.layout.dcs.cte = false) : runnable s c h = false :=
  Bool.eq_false_iff.2 fun er => Bool.eq_false_iff.1 e (runnable_iff.1 er).2.1

theorem not_runnable_of_dmac_zero (e : (s.core c).dmac = 0) (h : ChanId) : runnable s c h = false :=
  not_runnable_of_dmac_dmae (by simp [e, bitAt]) h

theorem not_runnable_of_chan_zero (e : s.chan c h = Channel.zero) : runnable s c h = false :=
  not_runnable_of_dcs_cte (by simp [e, Channel.zero, bitAt])

/-- Runnability depends on the configuration and the core's own bank only. -/
theorem runnable_of_core_eq (hcfg : t.cfg = s.cfg) (hcore : t.core c = s.core c) : runnable t c h = runnable s c h :=
  runnable_congr hcfg (by rw [hcore]) (by rw [State.chan, hcore, State.chan])

/-- A DCS write decides the runnability of its own channel only. -/
theorem runnable_afterDcsWrite_ne (v : Word) (s : State) {c' : CoreId} {h' : ChanId} (hne : ¬(c' = c ∧ h' = h)) :
    runnable (afterDcsWrite c h v s) c' h' = runnable s c' h' :=
  runnable_congr rfl (afterDcsWrite_dmac c h v s c') (congrArg Channel.dcs (afterDcsWrite_chan_ne v s hne))

/-- A DMAC write decides the runnability of its own core's channels only. -/
theorem runnable_afterDmacWrite_ne (v : Word) (s : State) {c' : CoreId} (h' : ChanId) (hne : c' ≠ c) :
    runnable (afterDmacWrite c v s) c' h' = runnable s c' h' :=
  runnable_of_core_eq rfl (afterDmacWrite_core_ne v s hne)

/-- A DDRS write leaves every DMAC and every channel as it was. -/
theorem afterDdrsWrite_dmac (v : Word) (s : State) (c' : CoreId) :
    ((afterDdrsWrite c v s).core c').dmac = (s.core c').dmac := by
  obtain ⟨hdmac, -, -, others, -⟩ := afterDdrsWrite_stored c v s
  by_cases hc : c' = c
  · rw [hc, hdmac]
  · rw [others c' hc]

theorem afterDdrsWrite_chan (v : Word) (s : State) (c' : CoreId) (h' : ChanId) :
    (afterDdrsWrite c v s).chan c' h' = s.chan c' h' := by
  obtain ⟨-, -, -, -, hchan, -⟩ := afterDdrsWrite_stored c v s
  exact hchan c' h'

/-- A DDRS write decides no channel's runnability, of any core. -/
theorem runnable_afterDdrsWrite_any (v : Word) (s : State) (c' : CoreId) (h' : ChanId) :
    runnable (afterDdrsWrite c v s) c' h' = runnable s c' h' :=
  runnable_congr rfl (afterDdrsWrite_dmac v s c') (congrArg Channel.dcs (afterDdrsWrite_chan v s c' h'))

/-- After a DMAC write no channel is runnable: those of the core that are configured were in the pass, those that are not have
CTE clear, and those of the other core were not runnable before. -/
theorem quiescent_wrDmac {v : Word} (hz : UnconfiguredZero s) (hq : Quiescent s)
    (e : runChannels c (channelIds s.cfg) (afterDmacWrite c v s) = .ok t) : Quiescent t := by
  intro c' h'
  have pass := runChannels_keeps _ e
  by_cases hc : c' = c
  · subst hc
    by_cases hh : h'.val < s.cfg.numChannels
    · exact runChannels_self _ e h' (mem_channelIds.2 hh)
    · refine pass.notRunnable (not_runnable_of_chan_zero ?_)
      rw [afterDmacWrite_chan, hz.2 c' h' (Nat.not_lt.1 hh)]
  · exact pass.notRunnable ((runnable_afterDmacWrite_ne v s h' hc).trans (hq c' h'))

/-- After a DCS write its own channel was run, and no other has become runnable. -/
theorem quiescent_wrDcs {v : Word} {o : ChannelOutcome} (hq : Quiescent s)
    (e : runChannel c h (afterDcsWrite c h v s) = .ok (o, t)) : Quiescent t := by
  intro c' h'
  by_cases hne : c' = c ∧ h' = h
  · obtain ⟨rfl, rfl⟩ := hne
    exact runChannel_self e
  · exact (runChannel_keeps e).notRunnable ((runnable_afterDcsWrite_ne v s hne).trans (hq c' h'))

/-- Every operation leaves the machine quiescent. -/
theorem exec_quiescent {i : Instr} (hz : UnconfiguredZero s) (hq : Quiescent s) (e : exec i s = .next t) :
    Quiescent t := by
  rcases exec_cases e with ⟨c, h, v, rfl, -⟩ | ⟨c, v, rfl, -⟩ | ⟨c, v, rfl, pass⟩ | ⟨-, -, quiet⟩
  · obtain ⟨o, ran⟩ := execWrDcs_inv e
    exact quiescent_wrDcs hq ran
  · exact quiescent_wrDmac hz hq (exec_wrDmac_inv e)
  · exact fun c' h' => pass.notRunnable ((runnable_afterDdrsWrite_any v s c' h').trans (hq c' h'))
  · exact fun c' h' => (runnable_congr quiet.cfg (quiet.dmac c') (quiet.dcs c' h')).trans (hq c' h')

/-! ### Operations keep the rest of the invariant (R15, R19) -/

theorem isRead_readInstr (off : Word) (loc : Loc) : isRead (loc.readInstr off) = true := by
  rcases loc with ⟨c, h, r⟩ | ⟨c, r⟩ | _
  · cases r <;> rfl
  · cases r <;> rfl
  · rfl

/-- A write of a register of a configured channel. -/
theorem PassInv.exec_wrChan {r : ChReg} {off v : Word} (hs : PassInv s) (hc : c.val < s.cfg.numCores)
    (hh : h.val < s.cfg.numChannels) (e : exec ((Loc.ch c h r).writeInstr off v) s = .next t) : PassInv t := by
  cases r
  case dcs =>
    obtain ⟨o, ran⟩ := execWrDcs_inv e
    exact (hs.storeChan hc hh { s.chan c h with dcs := v }).pass (runChannel_keeps ran) hc
      fun h' hm => List.mem_singleton.1 hm ▸ hh
  all_goals
    cases e
    exact hs.storeChan hc hh _

/-- A write of a register of a configured core. -/
theorem PassInv.exec_wrCore {r : CoReg} {off v : Word} (hs : PassInv s) (hc : c.val < s.cfg.numCores)
    (e : exec ((Loc.co c r).writeInstr off v) s = .next t) : PassInv t := by
  cases r
  case dmac =>
    exact (hs.storeCore hc { s.core c with dmac := v } rfl).pass (runChannels_keeps _ (exec_wrDmac_inv e)) hc
      fun h' => mem_channelIds.1
  case ddrs =>
    exact (hs.storeCore hc { s.core c with pend := (s.core c).pend ||| v } rfl).pass
      (runChannels_keeps _ (exec_wrDdrs_inv e)) hc fun h' => mem_channelIds.1
  all_goals
    cases e
    exact hs.storeCore hc _ rfl

/-- An operation that an access decodes to writes only registers that exist (R84). -/
theorem PassInv.exec_decoded {a : Access} {i : Instr} (hs : PassInv s) (hi : decodeAccess s.cfg a = .ok i)
    (e : exec i s = .next t) : PassInv t := by
  cases a with
  | read off size =>
    simp only [decodeAccess] at hi
    split at hi <;> cases hi
    rw [exec_read (isRead_readInstr off _)] at e
    cases e
    exact hs.of_cores_eq rfl rfl rfl rfl
  | write off size v =>
    simp only [decodeAccess] at hi
    split at hi <;> cases hi
    cases hl : locate s.cfg off with
    | ch c h r =>
      have hex := locate_exists.1 c h r hl
      simp only [chanExists, coreExists, Bool.and_eq_true, decide_eq_true_eq] at hex
      rw [hl] at e
      exact hs.exec_wrChan hex.1 hex.2 e
    | co c r =>
      rw [hl] at e
      exact hs.exec_wrCore (of_decide_eq_true (locate_exists.2 c r hl)) e
    | bad =>
      rw [hl] at e
      cases e
      exact hs.of_cores_eq rfl rfl rfl rfl

/-! ### The steps that are no access (R20, R213, R214) -/

/-- A device of which every register is zero, as construction makes it. -/
theorem machineInv_of_zero (hok : s.cfg.ok = true) (hcores : s.cores = #v[.zero, .zero]) (hirq : s.irq = false)
    (hmem : s.mem.wf = true) : MachineInv s := by
  have core_zero : ∀ c, s.core c = CoreBank.zero := fun c => by rw [State.core, hcores]; fin_cases c <;> rfl
  have chan_zero : ∀ c h, s.chan c h = Channel.zero := fun c h => by rw [State.chan, core_zero]; fin_cases h <;> rfl
  exact ⟨hok, fun c h => not_runnable_of_chan_zero (chan_zero c h), ⟨fun c _ => core_zero c, fun c h _ => chan_zero c h⟩,
    hirq, hmem⟩

/-- A reset keeps the invariant: configured registers are zero after it, and the others are as before. -/
theorem MachineInv.resetDevice (hs : MachineInv s) : MachineInv (resetDevice s) where
  cfgOk := hs.cfgOk
  quiescent := fun c h => by
    by_cases hc : c.val < s.cfg.numCores
    · exact not_runnable_of_dmac_zero (resetDevice_cells hc).1 h
    · have hcore : (Machine.resetDevice s).core c = s.core c := by rw [resetDevice_core, resetCore, if_neg hc]
      exact (runnable_of_core_eq (resetDevice_cfg s) hcore).trans (hs.quiescent c h)
  unconfigured := hs.unconfigured.of_kept rfl
    (fun c hc => by rw [resetDevice_core, resetCore, if_neg (Nat.not_lt.2 hc)])
    fun c h hh => by rw [resetDevice_chan, if_neg (Nat.not_lt.2 hh), ite_self]
  irqLow := rfl
  memWf := hs.memWf

/-- What is asked next is no part of the invariant. -/
theorem MachineInv.setPort (hs : MachineInv s) (p : List Request) : MachineInv (s.setPort p) :=
  ⟨hs.cfgOk, hs.quiescent, hs.unconfigured, hs.irqLow, hs.memWf⟩

theorem MachineInv.respond (hs : MachineInv s) (r : Option Word) : MachineInv (s.respond r) :=
  ⟨hs.cfgOk, hs.quiescent, hs.unconfigured, hs.irqLow, hs.memWf⟩

/-! ### Descriptor mode (R141) -/

/-- Once descriptor mode was detected, HLT keeps every channel of the core from running. -/
theorem not_runnable_descriptorHalt (s : State) (h' : ChanId) : runnable (descriptorHalt c h s) c h' = false :=
  not_runnable_of_dmac_hlt (by simp) h'

/-- A DMAC write whose first runnable channel is in descriptor mode ends with that detection. -/
theorem exec_wrDmac_descriptor {v : Word} (hh : h.val < s.cfg.numChannels)
    (hr : runnable (afterDmacWrite c v s) c h = true) (hn : (s.chan c h).ndes s.cfg.layout = false)
    (hl : ∀ h' : ChanId, h'.val < h.val → runnable (afterDmacWrite c v s) c h' = false) :
    exec (.wrDmac c v) s = .next (descriptorHalt c h (afterDmacWrite c v s)) := by
  have ran := runChannel_descriptor hr (by rwa [afterDmacWrite_chan])
  exact exec_wrDmac_next (runChannels_first _ (mem_channelIds.2 hh) (channelIds_sorted _) hl ran
    fun h' _ => not_runnable_descriptorHalt _ h')

/-! ### Replacing the other core's bank (R149) -/

theorem passOutcome_map (f : State → State) (x : Except Refusal State) :
    passOutcome (x.map f) = mapNext f (passOutcome x) := by
  cases x <;> rfl

/-- A run of channels as an outcome, over the other core's bank replaced. -/
theorem passOutcome_setOther {c' : CoreId} (hc : c' ≠ c) (k : CoreBank) (hs : List ChanId) (s : State) :
    passOutcome (runChannels c hs (s.setCore c' k)) = mapNext (·.setCore c' k) (passOutcome (runChannels c hs s)) := by
  rw [runChannels_setOther hc, passOutcome_map]

/-- The pass of a DCS write is the run of one channel. -/
theorem execWrDcs_eq_runChannels (v : Word) (s : State) :
    execWrDcs c h v s = passOutcome (runChannels c [h] (afterDcsWrite c h v s)) := by
  rw [execWrDcs_eq, runChannels]
  cases runChannel c h (afterDcsWrite c h v s) <;> rfl

theorem afterDcsWrite_setOther {c' : CoreId} (hc : c' ≠ c) (k : CoreBank) (v : Word) (s : State) :
    afterDcsWrite c h v (s.setCore c' k) = (afterDcsWrite c h v s).setCore c' k := by
  rw [afterDcsWrite, chan_setOther hc, setChan_setOther hc]
  rfl

theorem afterDmacWrite_setOther {c' : CoreId} (hc : c' ≠ c) (k : CoreBank) (v : Word) (s : State) :
    afterDmacWrite c v (s.setCore c' k) = (afterDmacWrite c v s).setCore c' k := by
  rw [afterDmacWrite, core_setOther hc, setCore_comm _ _ _ hc]
  rfl

theorem afterDdrsWrite_setOther {c' : CoreId} (hc : c' ≠ c) (k : CoreBank) (v : Word) (s : State) :
    afterDdrsWrite c v (s.setCore c' k) = (afterDdrsWrite c v s).setCore c' k := by
  rw [afterDdrsWrite, core_setOther hc, setCore_comm _ _ _ hc]
  rfl

/-! ### Status bits (R145) -/

/-- Every operation but a DCS write of the channel keeps the set bits of its DCS. -/
theorem exec_dcs_sticky {i : Instr} (e : exec i s = .next t) (hi : ∀ v, i ≠ .wrDcs c h v) {j : Fin 32}
    (hj : bitAt (s.chan c h).dcs j = true) : bitAt (t.chan c h).dcs j = true := by
  rcases exec_cases e with ⟨c', h', v, rfl, pass⟩ | ⟨c', v, rfl, pass⟩ | ⟨c', v, rfl, pass⟩ | ⟨-, -, quiet⟩
  · have hne : ¬(c = c' ∧ h = h') := by
      rintro ⟨rfl, rfl⟩
      exact hi v rfl
    exact (pass.dcsAll c h).mono (by rwa [afterDcsWrite_chan_ne v s hne])
  · exact (pass.dcsAll c h).mono (by rwa [afterDmacWrite_chan])
  · exact (pass.dcsAll c h).mono (by rwa [afterDdrsWrite_chan])
  · rwa [quiet.dcs]

/-- Every operation but a DMAC write of the core keeps the set bits of its DMAC. -/
theorem exec_dmac_sticky {i : Instr} (e : exec i s = .next t) (hi : ∀ v, i ≠ .wrDmac c v) {j : Fin 32}
    (hj : bitAt (s.core c).dmac j = true) : bitAt (t.core c).dmac j = true := by
  rcases exec_cases e with ⟨c', h', v, rfl, pass⟩ | ⟨c', v, rfl, pass⟩ | ⟨c', v, rfl, pass⟩ | ⟨-, -, quiet⟩
  · exact (pass.dmacAll c).mono (by rwa [afterDcsWrite_dmac])
  · have hne : c ≠ c' := by
      rintro rfl
      exact hi v rfl
    exact (pass.dmacAll c).mono (by rwa [afterDmacWrite_core_ne v s hne])
  · exact (pass.dmacAll c).mono (by rwa [afterDdrsWrite_dmac])
  · rwa [quiet.dmac]

/-- A DCS write leaves the bits set that it wrote. -/
theorem exec_wrDcs_sets {v : Word} (e : exec (.wrDcs c h v) s = .next t) {j : Fin 32} (hj : bitAt v j = true) :
    bitAt (t.chan c h).dcs j = true := by
  obtain ⟨o, ran⟩ := execWrDcs_inv e
  exact ((runChannel_keeps ran).dcs h).mono (by rwa [afterDcsWrite_chan_self])

/-- A DMAC write leaves the bits set that it wrote. -/
theorem exec_wrDmac_sets {v : Word} (e : exec (.wrDmac c v) s = .next t) {j : Fin 32} (hj : bitAt v j = true) :
    bitAt (t.core c).dmac j = true :=
  (runChannels_keeps _ (exec_wrDmac_inv e)).dmac.mono (by rwa [afterDmacWrite_core_self])

/-! ### Sub-accesses (R140, R150, R173) -/

/-- A pass over the configured channels makes at most one transfer for each. -/
theorem PassKeeps.bus_bounded (pass : PassKeeps c (channelIds s.cfg) (channelIds s.cfg).length (channelIds s.cfg).length s t) :
    ∃ ops, t.bus = s.bus ++ ops ∧ ops.length ≤ max 1 (min s.cfg.numChannels 5) * ((2 ^ 24 - 1) * 128) := by
  obtain ⟨ops, hbus, hlen, -⟩ := pass.bus
  have hn : (channelIds s.cfg).length ≤ max 1 (min s.cfg.numChannels 5) :=
    (length_channelIds_le s.cfg).trans (Nat.le_max_right _ _)
  exact ⟨ops, hbus, hlen.trans (Nat.mul_le_mul_right _ hn)⟩

end Lemmas

/-! ### The obligations of the scheduler -/

/-- Settles O57, by the ways a step can go: an operation's pass ends quiescent, and no operation writes a register that does
not exist. -/
theorem stepKeepsInvariant : Obligations.StepKeepsInvariant := by
  intro s t hs e
  rcases step_cases e with ⟨-, rfl⟩ | ⟨p, rest, -, hok, rfl⟩ | ⟨rest, -, -, rfl⟩ | ⟨a, rest, -, -, rfl | ⟨i, hi, ei⟩⟩
  · exact hs
  · exact machineInv_of_zero hok rfl rfl hs.memWf
  · exact (hs.setPort rest).resetDevice
  · exact (hs.setPort rest).respond none
  · obtain ⟨hinv, hq⟩ := machineInv_iff.1 (hs.setPort rest)
    exact machineInv_iff.2 ⟨hinv.exec_decoded hi ei, exec_quiescent hinv.unconfigured hq ei⟩

/-- Settles O14: run-channel of a channel that is not runnable does nothing, so the write's store is all there is. -/
theorem notRunnableWriteOnlyStores : Obligations.NotRunnableWriteOnlyStores :=
  fun s c h => ⟨runChannel_notRunnable, fun v hr =>
    ⟨_, execWrDcs_next (runChannel_notRunnable hr), storeChan_stored s { s.chan c h with dcs := v }⟩⟩

/-- Settles O15: the detection logs its event and sets the core's HLT, which keeps the channels after it from running. -/
theorem descriptorModeHaltsCoreOnly : Obligations.DescriptorModeHaltsCoreOnly := by
  intro s c h
  constructor
  · intro hr hn
    refine ⟨_, runChannel_descriptor hr hn, by simp, rfl, rfl, rfl, fun c' h' => by simp, fun c' hc => ?_, fun c' => ?_,
      fun _ => rfl, ⟨rfl, rfl, rfl, rfl, rfl⟩, rfl⟩
    · rw [descriptorHalt_core_ne h s hc]
    · have keeps := PassKeeps.descriptorHalt (c := c) (h := h) s
      exact ⟨keeps.pend c', keeps.dcke c'⟩
  · intro hh v hr hn hl
    exact ⟨_, exec_wrDmac_descriptor hh hr hn hl, by simp, rfl, fun c' h' => by simp⟩

/-- Settles O39: each outcome sets a bit that rules its channel out, and setting status bits makes no channel runnable. -/
theorem runChannelLeavesChannelNotRunnable : Obligations.RunChannelLeavesChannelNotRunnable :=
  fun _ _ _ _ _ e => ⟨runChannel_self e, fun _ _ => (runChannel_keeps e).notRunnable⟩

/-- Settles O40: the store and the pass both commute with replacing the other core's bank. -/
theorem coresDoNotInteract : Obligations.CoresDoNotInteract := by
  intro s c c' h k v hc
  refine ⟨?_, ?_, ?_, fun t e => ?_⟩
  · simp only [exec, execWrDmac_eq, afterDmacWrite_setOther hc, setCore_cfg, passOutcome_setOther hc]
  · simp only [exec, execWrDdrs_eq, afterDdrsWrite_setOther hc, setCore_cfg, passOutcome_setOther hc]
  · simp only [exec, execWrDcs_eq_runChannels, afterDcsWrite_setOther hc, passOutcome_setOther hc]
  · rw [(runChannels_keeps _ (exec_wrDmac_inv e)).coreOther hc, afterDmacWrite_core_ne v s hc]

/-- Settles O41: a store overwrites its own register only, and a pass only sets status bits. -/
theorem statusBitsAreSticky : Obligations.StatusBitsAreSticky := by
  refine fun i s t e => ⟨fun c h hi j => exec_dcs_sticky e hi, fun c hi j => exec_dmac_sticky e hi, ?_, ?_⟩
  · rintro c h v rfl j
    exact exec_wrDcs_sets e
  · rintro c v rfl j
    exact exec_wrDmac_sets e

/-- Settles O43: a pass makes one transfer for each channel at the most, and an operation without a pass makes none. -/
theorem passIsBounded : Obligations.PassIsBounded := by
  intro i s t e
  rcases exec_cases e with ⟨c, h, v, rfl, pass⟩ | ⟨c, v, rfl, pass⟩ | ⟨c, v, rfl, pass⟩ | ⟨hdcs, -, quiet⟩
  · obtain ⟨ops, hbus, hlen, -⟩ := pass.bus
    rw [Nat.one_mul] at hlen
    exact ⟨ops, hbus, hlen.trans (Nat.le_mul_of_pos_left _ (by omega)), fun _ _ _ _ => hlen,
      fun hi => absurd rfl (hi c h v)⟩
  · obtain ⟨ops, hbus, hlen⟩ := PassKeeps.bus_bounded (s := afterDmacWrite c v s) pass
    exact ⟨ops, hbus, hlen, by simp, fun _ hi => absurd rfl (hi c v)⟩
  · obtain ⟨ops, hbus, hlen⟩ := PassKeeps.bus_bounded (s := afterDdrsWrite c v s) pass
    exact ⟨ops, hbus, hlen, by simp, fun _ _ hi => absurd rfl (hi c v)⟩
  · exact ⟨[], by simp [quiet.bus], Nat.zero_le _, fun c h v hi => absurd hi (hdcs c h v), fun _ _ _ => rfl⟩

/-- Settles O13: the bits are those of the predicate, whose values say nothing of other registers. -/
theorem runnableIsSevenBits : Obligations.RunnableIsSevenBits :=
  fun _ _ _ => runnable_iff

end Sys2Proof.Machine
end

section
/-! SUPPORT. The bus transaction sequencer (42_bus_sequencer.md): the preconditions that fail (R152 to R158), the count (R159,
R164), the sub-accesses of a transfer (R165, R171, R172), transfers that end in their first chunk (R166, R175), and what a
DCS write keeps (R170). -/

namespace Sys2Proof.Machine

section Lemmas

variable {c : CoreId} {h : ChanId} {u : Setup} {v : Word} {s t : State}

/-! ### The preconditions that fail (R152 to R158) -/

/-- Code 3 has no width (R92). -/
theorem portWidth_eq_none_iff (code : BitVec 2) : portWidth code = none ↔ code = 3 := by
  obtain ⟨k, hk⟩ := code
  interval_cases k <;> simp [portWidth]

/-- Codes 6 and 7 have no size (R93). -/
theorem transferSize_eq_none_iff (code : BitVec 3) : transferSize code = none ↔ code = 6 ∨ code = 7 := by
  obtain ⟨k, hk⟩ := code
  interval_cases k <;> simp [transferSize]

section Setup

variable {cfg : Config} {ch : Channel}

/-- The request type is checked first (R152). -/
theorem setup_of_request_ne (hdrt : ch.drt ≠ cfg.drtAuto) : setup cfg c h ch = .error (.unimplRequestType c h ch.drt) :=
  if_pos hdrt

/-- Stride mode is checked next (R153). -/
theorem setup_of_stride (hdrt : ch.drt = cfg.drtAuto) (hstde : ch.stde cfg.layout = true) :
    setup cfg c h ch = .error (.unimplStride c h) := by
  simp only [setup, hdrt, hstde, ne_eq, not_true_eq_false, if_false, if_true]

variable (hdrt : ch.drt = cfg.drtAuto) (hstde : ch.stde cfg.layout = false)
include hdrt hstde

/-- The source width is checked before the destination's (R154, D29). -/
theorem setup_of_sp_eq (hsp : ch.sp = 3) : setup cfg c h ch = .error (.badSrcPortWidth c h 3) := by
  have width : portWidth 3#2 = none := rfl
  simp [setup, hdrt, hstde, hsp, width]

/-- The destination width is checked once the source's is good (R155, D29). -/
theorem setup_of_dp_eq (hsp : ch.sp ≠ 3) (hdp : ch.dp = 3) : setup cfg c h ch = .error (.badDstPortWidth c h 3) := by
  obtain ⟨sp, hsp⟩ := Option.ne_none_iff_exists'.1 (mt (portWidth_eq_none_iff _).1 hsp)
  have width : portWidth 3#2 = none := rfl
  simp [setup, hdrt, hstde, hsp, hdp, width]

/-- The size is checked last (R156). -/
theorem setup_of_tsz_eq (hsp : ch.sp ≠ 3) (hdp : ch.dp ≠ 3) (htsz : ch.tsz = 6 ∨ ch.tsz = 7) :
    setup cfg c h ch = .error (.badTransferSize c h ch.tsz) := by
  obtain ⟨sp, hsp⟩ := Option.ne_none_iff_exists'.1 (mt (portWidth_eq_none_iff _).1 hsp)
  obtain ⟨dp, hdp⟩ := Option.ne_none_iff_exists'.1 (mt (portWidth_eq_none_iff _).1 hdp)
  have size := (transferSize_eq_none_iff _).2 htsz
  simp [setup, hdrt, hstde, hsp, hdp, size]

end Setup

/-- Run-channel takes the halt outcome where a precondition fails (R158). -/
theorem runChannel_haltedBy {d : Diag} (hr : runnable s c h = true) (hn : (s.chan c h).ndes s.cfg.layout = true)
    (hs : setup s.cfg c h (s.chan c h) = .error d) :
    ∃ t, runChannel c h s = .ok (.halted d, t) ∧ HaltedBy c h d s t :=
  ⟨_, runChannel_halts hr hn hs, haltOutcome_haltedBy s d⟩

/-! ### The end of a transfer (R143, R168) -/

/-- The end of a transfer logs the interrupt that is not delivered, and does nothing else. -/
theorem transferEnd_eq (c : CoreId) (h : ChanId) (s : State) : transferEnd c h s =
    { s with log := s.log ++ (if (s.chan c h).tie s.cfg.layout then [.unimplInterrupt c h] else []) } := by
  unfold transferEnd
  split
  · rfl
  · rw [List.append_nil]

/-! ### The count (R159, R164) -/

/-- A channel's run of a transfer that completes leaves the count at 0. -/
theorem chunkLoop_dtc_ok (fit : Fits u) (e : chunkLoop c h u (s.chan c h).dtc.toNat s = .ok () t) :
    (t.chan c h).dtc = 0 := by
  obtain ⟨regs, -⟩ := (chunkLoop_spec fit.read fit.write _ _).1 t e
  simp [regs, Channel.after]

/-- One that fails leaves the failing chunk and those after it in the count. -/
theorem chunkLoop_dtc_fault (fit : Fits u) {d : Dir} (e : chunkLoop c h u (s.chan c h).dtc.toNat s = .fault d t) :
    0 < (t.chan c h).dtc.toNat ∧ (t.chan c h).dtc.toNat ≤ (s.chan c h).dtc.toNat := by
  obtain ⟨k, hk, fails⟩ := (chunkLoop_spec fit.read fit.write _ _).2 d t e
  have left : (t.chan c h).dtc = (s.chan c h).dtc - BitVec.ofNat 24 k := by
    rcases fails with ⟨-, j, -, regs, -⟩ | ⟨-, j, -, regs, -⟩ <;> rw [regs] <;> rfl
  have := (s.chan c h).dtc.isLt
  rw [left, BitVec.toNat_sub_of_le (by bv_omega), BitVec.toNat_ofNat]
  omega

/-! ### The sub-accesses of a transfer (R165, R171) -/

/-- How many of the sub-accesses go in a direction. -/
def countDir (dir : Dir) (shapes : List (Dir × Word × Nat)) : Nat := shapes.countP fun x => decide (x.1 = dir)

theorem countDir_append (dir : Dir) (x y : List (Dir × Word × Nat)) :
    countDir dir (x ++ y) = countDir dir x + countDir dir y :=
  List.countP_append

theorem countDir_chunkTrace (u : Setup) (sai dai : Bool) (src dst : Word) :
    countDir .read (chunkTrace u sai dai src dst) = subCount u.tsz u.sp ∧
    countDir .write (chunkTrace u sai dai src dst) = subCount u.tsz u.dp := by
  simp [countDir, chunkTrace, List.countP_map, Function.comp_def]

/-- A transfer of `n` chunks makes `n` times a chunk's reads and writes (R171). -/
theorem countDir_transferTrace (u : Setup) (sai dai : Bool) : ∀ (n : Nat) (src dst : Word),
    countDir .read (transferTrace u sai dai n src dst) = n * subCount u.tsz u.sp ∧
    countDir .write (transferTrace u sai dai n src dst) = n * subCount u.tsz u.dp
  | 0, _, _ => by rw [Nat.zero_mul, Nat.zero_mul]; exact ⟨rfl, rfl⟩
  | n + 1, src, dst => by
    obtain ⟨reads, writes⟩ := countDir_chunkTrace u sai dai src dst
    obtain ⟨ihr, ihw⟩ := countDir_transferTrace u sai dai n (stepped sai src (subCount u.tsz u.sp) u.sp)
      (stepped dai dst (subCount u.tsz u.dp) u.dp)
    rw [transferTrace, countDir_append, countDir_append, reads, writes, ihr, ihw]
    constructor <;> ring

/-- The sub-accesses of `dir` among those issued are those of their shapes. -/
theorem countP_dir_eq (dir : Dir) (ops : List BusOp) :
    ops.countP (fun op => decide ((shape op).1 = dir)) = countDir dir (ops.map shape) := by
  rw [countDir, List.countP_map]
  rfl

/-! ### Transfers that end in their first chunk (R159, R166, R175) -/

theorem subCount_pos {tsz w : Nat} (ht : 0 < tsz) (hw : 0 < w) : 0 < subCount tsz w :=
  Nat.div_pos (by omega) hw

theorem Ready.fits (ready : Ready c h u s) : Fits u := Fits.of_setup ready.2.2

/-- The size and the width of a ready channel ask for at least one read (R161). -/
theorem Ready.reads_pos (ready : Ready c h u s) : 0 < subCount u.tsz u.sp := by
  obtain ⟨-, -, e⟩ := ready
  obtain ⟨hsp, -, htsz, -⟩ := setup_bounds e
  have hw := portWidth_cases hsp
  have hs := transferSize_cases htsz
  exact subCount_pos (by omega) (by omega)

/-- With width and size codes 0 each chunk is one word. -/
theorem setup_word {cfg : Config} {ch : Channel} (e : setup cfg c h ch = .ok u) (hsp : ch.sp = 0) (hdp : ch.dp = 0)
    (htsz : ch.tsz = 0) : u = ⟨4, 4, 4⟩ := by
  obtain ⟨esp, edp, etsz, -⟩ := setup_bounds e
  rw [hsp] at esp
  rw [hdp] at edp
  rw [htsz] at etsz
  cases u
  cases esp
  cases edp
  cases etsz
  rfl

/-- A DCS write writes none of these codes. -/
theorem dcsWrite_ready_word (ready : Ready c h u (afterDcsWrite c h v s)) (hsp : (s.chan c h).sp = 0)
    (hdp : (s.chan c h).dp = 0) (htsz : (s.chan c h).tsz = 0) : u = ⟨4, 4, 4⟩ := by
  obtain ⟨-, -, e⟩ := ready
  rw [afterDcsWrite_chan_self] at e
  exact setup_word e hsp hdp htsz

/-- A chunk whose first read nothing answers stops there (R166). -/
theorem chunk_read_unmapped (hk : 0 < subCount u.tsz u.sp) (hr : route s.cfg .read (s.chan c h).dsa u.sp = .unmapped) :
    chunk c h u s = .fault .read ((s.setDraws (s.draws + 64)).issue (.read (s.chan c h).dsa u.sp none)) := by
  obtain ⟨k, hk⟩ := Nat.exists_eq_succ_of_ne_zero hk.ne'
  have read := memRead_unmapped (s := s.setDraws (s.draws + 64)) hr
  simp only [chunk, hk, readPhase, setDraws_chan, read]

/-- The state after the one read of a chunk of a word, which RAM answers. -/
def afterWordRead (c : CoreId) (h : ChanId) (s : State) : State :=
  advanceSrc c h 4 ((s.setDraws (s.draws + 64)).issue
    (.read (s.chan c h).dsa 4 (some (s.mem.readBytes (s.chan c h).dsa 4))))

/-- A chunk of a word whose read RAM answers ends as its write of the bytes read does. -/
theorem chunk_word (hr : route s.cfg .read (s.chan c h).dsa 4 = .ram) :
    (∀ t, memWrite (s.chan c h).dta (s.mem.readBytes (s.chan c h).dsa 4) (afterWordRead c h s) = .ok () t →
      chunk c h ⟨4, 4, 4⟩ s = .ok () (decrementCount c h (advanceDst c h 4 t))) ∧
    ∀ d t, memWrite (s.chan c h).dta (s.mem.readBytes (s.chan c h).dsa 4) (afterWordRead c h s) = .fault d t →
      chunk c h ⟨4, 4, 4⟩ s = .fault d t := by
  have one : subCount 4 4 = 1 := rfl
  have read := memRead_ram (s := s.setDraws (s.draws + 64)) hr
  have slice : ((drawnBuffer s.draws).fill 0 (s.mem.readBytes (s.chan c h).dsa 4)).slice 0 4 =
      s.mem.readBytes (s.chan c h).dsa 4 := by
    simp [Buffer.fill, Buffer.slice]
  have dta : ((afterWordRead c h s).chan c h).dta = (s.chan c h).dta := by simp [afterWordRead]
  unfold afterWordRead at dta ⊢
  refine ⟨fun t e => ?_, fun d t e => ?_⟩ <;>
    simp only [chunk, one, readPhase, writePhase, setDraws_chan, setDraws_mem, read, slice, dta, e]

/-- A ready channel whose first chunk fails ends in the address error. -/
theorem runChannel_first_fault {d : Dir} (ready : Ready c h u s) (hn : (s.chan c h).dtc ≠ 0)
    (e : chunk c h u s = .fault d t) : runChannel c h s = .ok (.addressError d, addressError c h t) := by
  rw [runChannel_ready ready, chunkLoop_while, if_neg hn, e]

/-- A ready channel with a count of 1 succeeds with its one chunk. -/
theorem runChannel_single (ready : Ready c h u s) (hn : (s.chan c h).dtc = 1) (e : chunk c h u s = .ok () t) :
    runChannel c h s = .ok (.success, completeTransfer c h (transferEnd c h t)) := by
  rw [runChannel_ready ready, hn, show BitVec.toNat (1 : BitVec 24) = 1 from rfl, chunkLoop, e]
  rfl

/-! ### How a ready channel's run ended (R166, R169) -/

theorem runChannel_success_inv (ready : Ready c h u s) (e : runChannel c h s = .ok (.success, t)) :
    ∃ s1, chunkLoop c h u (s.chan c h).dtc.toNat s = .ok () s1 ∧ t = completeTransfer c h (transferEnd c h s1) := by
  rw [runChannel_ready ready] at e
  cases loop : chunkLoop c h u (s.chan c h).dtc.toNat s with
  | ok x s1 =>
    rw [loop] at e
    cases e
    exact ⟨s1, rfl, rfl⟩
  | fault d s1 => rw [loop] at e; cases e
  | refuse r => rw [loop] at e; cases e

theorem runChannel_addressError_inv {d : Dir} (ready : Ready c h u s)
    (e : runChannel c h s = .ok (.addressError d, t)) :
    ∃ s1, chunkLoop c h u (s.chan c h).dtc.toNat s = .fault d s1 ∧ t = addressError c h s1 := by
  rw [runChannel_ready ready] at e
  cases loop : chunkLoop c h u (s.chan c h).dtc.toNat s with
  | ok x s1 => rw [loop] at e; cases e
  | fault d' s1 =>
    rw [loop] at e
    cases e
    exact ⟨s1, rfl, rfl⟩
  | refuse r => rw [loop] at e; cases e

/-! ### What a DCS write keeps outside its channel (R170) -/

/-- The run of a DCS write's channel keeps the other channels and every core register but its core's DMAC. -/
theorem PassKeeps.dcsWrite_frame {n m : Nat} (pass : PassKeeps c [h] n m (afterDcsWrite c h v s) t) :
    OtherChannelsKept c h s t ∧ OtherDmacKept c s t ∧ PendDckeKept s t := by
  refine ⟨fun c' h' hne => ?_, fun c' hc => ?_, fun c' => ⟨?_, ?_⟩⟩
  · rw [pass.other c' h' fun ⟨hc, hm⟩ => hne ⟨hc, List.mem_singleton.1 hm⟩, afterDcsWrite_chan_ne v s hne]
  · rw [pass.dmacO c' hc, afterDcsWrite_dmac]
  · rw [pass.pend, afterDcsWrite_pend]
  · rw [pass.dcke, afterDcsWrite_dcke]

end Lemmas

/-! ### The obligations of the bus sequencer: preconditions -/

/-- Settles O16: the request type and stride mode are checked before any other field. -/
theorem unimplementedRequestHalts : Obligations.UnimplementedRequestHalts :=
  fun _ _ _ hr hn => ⟨fun hdrt => runChannel_haltedBy hr hn (setup_of_request_ne hdrt),
    fun hdrt hstde => runChannel_haltedBy hr hn (setup_of_stride hdrt hstde), rfl, rfl, rfl, rfl⟩

/-- Settles O17: the source width is checked first of the three fields, the size last. -/
theorem configurationErrorHalts : Obligations.ConfigurationErrorHalts :=
  fun _ _ _ hr hn hdrt hstde => ⟨fun hsp => runChannel_haltedBy hr hn (setup_of_sp_eq hdrt hstde hsp),
    fun hsp hdp htsz => runChannel_haltedBy hr hn (setup_of_tsz_eq hdrt hstde hsp hdp htsz), rfl, rfl, rfl, rfl⟩

/-- Settles O18: the destination width is checked before the size. -/
theorem destinationWidthHaltsAfterSource : Obligations.DestinationWidthHaltsAfterSource := by
  intro s c h hr hn hdrt hstde hsp hdp
  obtain ⟨t, e, halted⟩ := runChannel_haltedBy hr hn (setup_of_dp_eq hdrt hstde hsp hdp)
  exact ⟨t, e, halted, rfl, rfl⟩

/-! ### The obligations of the bus sequencer: the count -/

/-- Settles O20: the loop runs no chunk, so only the transfer's end and completion write anything. -/
theorem zeroCountSucceedsWithoutAccess : Obligations.ZeroCountSucceedsWithoutAccess := by
  intro s c h u ready hn
  have loop : chunkLoop c h u (s.chan c h).dtc.toNat s = .ok () s := by rw [hn]; rfl
  have ran : runChannel c h s = .ok (.success, completeTransfer c h (transferEnd c h s)) := by
    rw [runChannel_ready ready, loop]
  refine ⟨_, ran, by simp [Channel.setTt], fun c' h' hne => ?_, fun c' => by simp, fun a => by simp, ?_⟩
  · rw [completeTransfer_chan_ne _ hne, transferEnd_chan]
  · rw [transferEnd_eq]
    exact ⟨⟨rfl, rfl, rfl, rfl, rfl⟩, rfl, rfl, rfl, rfl⟩

/-- Settles O42, by how run-channel ends: nothing but the loop writes the count, and it takes off the chunks it completed. -/
theorem countOnlyFalls : Obligations.CountOnlyFalls := by
  intro s t c h o e
  rcases runChannel_cases e with ⟨rfl, -, rfl⟩ | ⟨rfl, -, -, rfl⟩ | ⟨d, rfl, -, -, -, rfl⟩ |
    ⟨u, s1, ⟨-, -, setupOk⟩, -, ⟨d, rfl, loop, rfl⟩ | ⟨rfl, loop, rfl⟩⟩
  · rfl
  · simp
  · simp
  · simpa using chunkLoop_dtc_fault (Fits.of_setup setupOk) loop
  · simpa using chunkLoop_dtc_ok (Fits.of_setup setupOk) loop

/-- Run-channel never raises the count, whatever its outcome (R164, R197). -/
theorem runChannel_dtc_le {c : CoreId} {h : ChanId} {s t : State} {o : ChannelOutcome}
    (e : runChannel c h s = .ok (o, t)) : (t.chan c h).dtc.toNat ≤ (s.chan c h).dtc.toNat := by
  have count := countOnlyFalls s t c h o e
  cases o with
  | success => simp [show (t.chan c h).dtc = 0 from count]
  | addressError d => exact count.2
  | halted d => exact (congrArg BitVec.toNat count).le
  | descriptorMode => exact (congrArg BitVec.toNat count).le
  | notRunnable => exact (congrArg BitVec.toNat count).le

/-- Settles O33: where nothing routes to the own window the pass answers a state, and keeps what `PassKeeps` says of the state
with the value stored. -/
theorem dcsWriteFrame : Obligations.DcsWriteFrame := by
  intro s c h v hw
  obtain ⟨o, t, ran⟩ := runChannel_ok (c := c) (h := h) (s := afterDcsWrite c h v s) hw
  have pass := runChannel_keeps ran
  obtain ⟨others, otherDmac, pendDcke⟩ := pass.dcsWrite_frame
  have hdtc := runChannel_dtc_le ran
  have hdcs := pass.dcs h
  have hdmac := pass.dmac
  obtain ⟨ops, hbus, -, hmem⟩ := pass.bus
  rw [afterDcsWrite_chan_self] at hdtc hdcs
  rw [afterDcsWrite_dmac] at hdmac
  refine ⟨t, execWrDcs_next ran, ?_, ?_, ?_, ?_, hdtc, hdcs, hdmac, others, otherDmac, pendDcke, pass.irq, pass.cfg,
    ops, hbus, hmem⟩
  · rw [pass.drt, afterDcsWrite_chan_self]
  · rw [pass.dcm, afterDcsWrite_chan_self]
  · rw [pass.dda, afterDcsWrite_chan_self]
  · rw [pass.dsd, afterDcsWrite_chan_self]

/-! ### The obligations of the bus sequencer: sub-accesses -/

/-- Settles O24: the loop's closed form gives the shapes and its data what was got, sent and stored, of one list. -/
theorem successfulTransferTrace : Obligations.SuccessfulTransferTrace := by
  intro s t c h u ready e
  have fit := ready.fits
  obtain ⟨s1, loop, rfl⟩ := runChannel_success_inv ready e
  obtain ⟨-, ops, hbus, hshape, hok⟩ := (chunkLoop_spec fit.read fit.write _ _).1 s1 loop
  obtain ⟨ops', traced, -, sends⟩ := (chunkLoop_data fit.read fit.write _ _).1 s1 loop
  obtain rfl : ops' = ops := List.append_cancel_left (traced.bus.symm.trans hbus)
  have counts := countDir_transferTrace u ((s.chan c h).sai s.cfg.layout) ((s.chan c h).dai s.cfg.layout)
    (s.chan c h).dtc.toNat (s.chan c h).dsa (s.chan c h).dta
  refine ⟨ops', by simpa using hbus, hshape, hok, ?_, ?_, traced.reads, sends, by simpa using traced.ram⟩
  · rw [countP_dir_eq, hshape, counts.1]
  · rw [countP_dir_eq, hshape, counts.2]

/-- Settles O25: the same of a loop that fails, with the sub-access that failed at the list's end. -/
theorem failingTransferStopsAtFailure : Obligations.FailingTransferStopsAtFailure := by
  intro s t c h u dir ready e
  have fit := ready.fits
  obtain ⟨s1, loop, rfl⟩ := runChannel_addressError_inv ready e
  obtain ⟨k, -, fails⟩ := (chunkLoop_spec fit.read fit.write _ _).2 dir s1 loop
  obtain ⟨n, ops, op, hbus, -, hshape, hok, hfail, hdir⟩ := fails.issued
  obtain ⟨ops', op', failed, sends⟩ := (chunkLoop_data fit.read fit.write _ _).2 dir s1 loop
  obtain ⟨rfl, rfl⟩ := failed.eq_of_bus hbus
  exact ⟨ops', op', by simpa using hbus, hshape, hok, hfail, hdir, failed.reads, sends,
    fun a ha => by simpa using failed.ram a ha⟩

/-! ### The obligations of the bus sequencer: transfers that end in their first chunk -/

/-- Settles O29: the first chunk stops at its first read, before any register or byte of RAM is written. -/
theorem firstReadFaultIsAddressError : Obligations.FirstReadFaultIsAddressError := by
  intro s c h v u ready hn hroute
  have fails := chunk_read_unmapped (c := c) (h := h) (u := u) (s := afterDcsWrite c h v s) ready.reads_pos
    (by rw [afterDcsWrite_chan_self]; exact hroute)
  have ran := runChannel_first_fault ready (by rw [afterDcsWrite_chan_self]; exact hn) fails
  obtain ⟨others, otherDmac, pendDcke⟩ := (runChannel_keeps ran).dcsWrite_frame
  exact ⟨_, execWrDcs_next ran, by simp [Channel.setAr], by simp, others, otherDmac, pendDcke, fun a => by simp, by simp,
    by simp, runChannel_self ran⟩

/-- Settles O30: the first chunk stops at its one write, after its one read advanced DSA. -/
theorem firstWriteFaultIsAddressError : Obligations.FirstWriteFaultIsAddressError := by
  intro s c h v u ready hsp hdp htsz hn hsai hread hwrite
  obtain rfl := dcsWrite_ready_word ready hsp hdp htsz
  have fails := (chunk_word (c := c) (h := h) (s := afterDcsWrite c h v s) (by simpa using hread)).2 _ _
    (memWrite_unmapped (by simpa [afterWordRead] using hwrite))
  have ran := runChannel_first_fault ready (by simpa using hn) fails
  obtain ⟨others, otherDmac, pendDcke⟩ := (runChannel_keeps ran).dcsWrite_frame
  refine ⟨_, execWrDcs_next ran, ?_, ?_, ?_, others, otherDmac, pendDcke, fun a ha => ?_⟩
  · simpa [afterWordRead, Channel.setAr, Channel.sai, advanced] using hsai
  · simp [afterWordRead]
  · simp [afterWordRead]
  · rw [addressError_mem, setMem_mem, read_memoryAfterFault_out (by simpa using ha)]
    rfl

/-- Settles O21: the one chunk is a read and a write of a word. -/
theorem successScenario : Obligations.SuccessScenario := by
  intro s c h v u ready hsp hdp htsz hn hsai hdai hwf hread hwrite
  obtain rfl := dcsWrite_ready_word ready hsp hdp htsz
  have completes := (chunk_word (c := c) (h := h) (s := afterDcsWrite c h v s) (by simpa using hread)).1 _
    (memWrite_ram (by simpa [afterWordRead] using hwrite))
  have ran := runChannel_single ready (by simpa using hn) completes
  obtain ⟨others, -, -⟩ := (runChannel_keeps ran).dcsWrite_frame
  refine ⟨_, execWrDcs_next ran, ?_, ?_, fun c' => ?_, others, fun j hj => ?_, fun a ha => ?_⟩
  · simp [afterWordRead]
  · simp only [Channel.sai, Channel.dai] at hsai hdai
    simp [afterWordRead, Channel.sai, Channel.dai, advanced, hsai, hdai, hn, Channel.setTt]
  · simp [afterWordRead]
  · have stored := Memory.read_writeBytes_in (s.mem.readBytes (s.chan c h).dsa 4) (s.chan c h).dta hwf (by simp) j
      (by simpa using hj)
    simpa [afterWordRead, Memory.getElem_readBytes] using stored
  · have kept := Memory.read_writeBytes_out (s.mem.readBytes (s.chan c h).dsa 4) s.mem (s.chan c h).dta a
      (by simpa using ha)
    simpa [afterWordRead] using kept

end Sys2Proof.Machine
end

section
/-! SUPPORT. The address-stride controller (43_address_stride.md): the registers at the end of a transfer that succeeded (R184)
and of one that ended in an address error (R185). -/

namespace Sys2Proof.Machine

section Lemmas

variable {c : CoreId} {h : ChanId} {u : Setup} {s t : State}

/-! ### What the end of a transfer keeps (R143, R166) -/

/-- A piece of the engine's work that fails keeps what the engine keeps. -/
theorem Ends.keeps_fault {α : Type} {d : Dir} {y : EngineResult α} (hy : Ends c h s y) (e : y = .fault d t) :
    Keeps c h s t := by
  rcases hy with ⟨_, _, e', -⟩ | ⟨_, _, e', k⟩ | ⟨_, _, _, e', -⟩ <;> cases e.symm.trans e'
  exact k

/-- Completion after a loop writes no register outside the channel. -/
theorem Keeps.completed_frame (keeps : Keeps c h s t) :
    OtherChannelsKept c h s (completeTransfer c h (transferEnd c h t)) ∧
    CoresKept s (completeTransfer c h (transferEnd c h t)) :=
  ⟨fun c' h' hne => by rw [completeTransfer_chan_ne _ hne, transferEnd_chan, keeps.other c' h' hne],
    fun c' => by simp [keeps.dmac, keeps.pend, keeps.dcke]⟩

/-- The address error after a loop writes no register outside the channel but its core's `DMAC`. -/
theorem Keeps.addressError_frame (keeps : Keeps c h s t) :
    OtherChannelsKept c h s (addressError c h t) ∧ OtherDmacKept c s (addressError c h t) ∧
    PendDckeKept s (addressError c h t) :=
  ⟨fun c' h' hne => by rw [addressError_chan_ne _ hne, keeps.other c' h' hne],
    fun c' hc => by rw [addressError_core_ne h t hc, keeps.dmac],
    fun c' => by simp [keeps.pend, keeps.dcke]⟩

/-- The loop does not write the bit that the transfer's end reads. -/
theorem Keeps.tie (keeps : Keeps c h s t) : (t.chan c h).tie t.cfg.layout = (s.chan c h).tie s.cfg.layout := by
  rw [Channel.tie, Channel.tie, keeps.dcm, keeps.cfg]

/-! ### The registers after some chunks (R164, R178 to R181) -/

/-- Each chunk that completed took one off the count. -/
theorem Channel.after_dtc (l : FieldLayout) (u : Setup) (ch : Channel) {k : Nat} (j m : Nat) (hk : k ≤ ch.dtc.toNat) :
    (ch.after l u k j m).dtc = BitVec.ofNat 24 (ch.dtc.toNat - k) := by
  rw [← BitVec.ofNat_sub_ofNat_of_le _ _ (hk.trans_lt ch.dtc.isLt) hk, BitVec.ofNat_toNat, BitVec.setWidth_eq]
  rfl

/-- After a loop that ran the count down, completion sets `TT`. -/
theorem completeTransfer_chan_after (regs : t.chan c h = (s.chan c h).after s.cfg.layout u (s.chan c h).dtc.toNat 0 0)
    (hcfg : t.cfg = s.cfg) :
    (completeTransfer c h (transferEnd c h t)).chan c h = { s.chan c h with
      dsa := stepped ((s.chan c h).sai s.cfg.layout) (s.chan c h).dsa ((s.chan c h).dtc.toNat * subCount u.tsz u.sp) u.sp,
      dta := stepped ((s.chan c h).dai s.cfg.layout) (s.chan c h).dta ((s.chan c h).dtc.toNat * subCount u.tsz u.dp) u.dp,
      dtc := 0, dcs := setBit (s.chan c h).dcs s.cfg.layout.dcs.tt } := by
  have count := Channel.after_dtc s.cfg.layout u (s.chan c h) 0 0 le_rfl
  rw [Nat.sub_self] at count
  rw [completeTransfer_chan_self, transferEnd_chan, transferEnd_cfg, hcfg, regs, Channel.setTt, count]
  rfl

/-- After a loop that failed in chunk `k`, the address error sets `AR`. -/
theorem addressError_chan_after {k j m : Nat} (regs : t.chan c h = (s.chan c h).after s.cfg.layout u k j m)
    (hcfg : t.cfg = s.cfg) (hk : k ≤ (s.chan c h).dtc.toNat) :
    (addressError c h t).chan c h = { s.chan c h with
      dsa := stepped ((s.chan c h).sai s.cfg.layout) (s.chan c h).dsa (k * subCount u.tsz u.sp + j) u.sp,
      dta := stepped ((s.chan c h).dai s.cfg.layout) (s.chan c h).dta (k * subCount u.tsz u.dp + m) u.dp,
      dtc := BitVec.ofNat 24 ((s.chan c h).dtc.toNat - k),
      dcs := setBit (s.chan c h).dcs s.cfg.layout.dcs.ar } := by
  rw [addressError_chan_self, hcfg, regs, Channel.setAr, Channel.after_dtc _ _ _ _ _ hk]
  rfl

/-! ### The sub-accesses of a loop that failed (R172) -/

/-- Those before the one that failed succeeded; outside the bytes that it was to write RAM is theirs, and the address error
undoes none of them. -/
theorem addressError_trace (fit : Fits u) {d : Dir} {n m : Nat} {shapes : List (Dir × Word × Nat)}
    (loop : chunkLoop c h u n s = .fault d t) (issued : IssuedFailing d m s t shapes) :
    ∃ ops op, (addressError c h t).bus = s.bus ++ ops ++ [op] ∧ ops.length = m ∧ (∀ o ∈ ops, succeeded o = true) ∧
      succeeded op = false ∧ ∀ a, ¬ writesTo a op → (addressError c h t).mem.read a = (ramAfter s.cfg ops s.mem).read a := by
  obtain ⟨ops, op, hbus, hlen, -, hok, hfail, -⟩ := issued
  obtain ⟨ops', op', failed, -⟩ := (chunkLoop_data fit.read fit.write n s).2 d t loop
  obtain ⟨rfl, rfl⟩ := failed.eq_of_bus hbus
  exact ⟨ops', op', hbus, hlen, hok, hfail, failed.ram⟩

end Lemmas

/-! ### The obligations of the address-stride controller -/

/-- Settles O22: the loop's closed form gives the addresses and the count, and the loop keeps the rest. -/
theorem successClosedForm : Obligations.SuccessClosedForm := by
  intro s t c h u ready e
  have fit := ready.fits
  obtain ⟨s1, loop, rfl⟩ := runChannel_success_inv ready e
  obtain ⟨regs, -⟩ := (chunkLoop_spec fit.read fit.write _ _).1 s1 loop
  have keeps := (chunkLoop_ends (c := c) (h := h) u _ _).keeps loop
  obtain ⟨others, cores⟩ := keeps.completed_frame
  refine ⟨completeTransfer_chan_after regs keeps.cfg, others, cores, ?_, ?_, ?_⟩
  · rw [transferEnd_eq]
    exact keeps.irq
  · rw [completeTransfer_cfg, transferEnd_cfg, keeps.cfg]
  · rw [completeTransfer_log, transferEnd_eq, keeps.tie, keeps.log]

/-- Settles O23, by the phase that failed: the loop's closed form counts the advances that each phase had made. -/
theorem addressErrorClosedForm : Obligations.AddressErrorClosedForm := by
  intro s t c h u dir ready e
  have fit := ready.fits
  obtain ⟨s1, loop, rfl⟩ := runChannel_addressError_inv ready e
  have keeps := (chunkLoop_ends (c := c) (h := h) u _ _).keeps_fault loop
  obtain ⟨others, otherDmac, pendDcke⟩ := keeps.addressError_frame
  have dmac : ((addressError c h s1).core c).dmac = setBit (s.core c).dmac s.cfg.layout.dmac.ar := by
    rw [addressError_dmac_self, keeps.dmac, keeps.cfg]
  obtain ⟨k, hk, fails⟩ := (chunkLoop_spec fit.read fit.write _ _).2 dir s1 loop
  rcases fails with ⟨rfl, j, hj, regs, issued⟩ | ⟨rfl, j, hj, regs, issued⟩
  · exact ⟨k, j, hk, hj, addressError_chan_after regs keeps.cfg hk.le, dmac, others, otherDmac, pendDcke, keeps.log,
      keeps.irq, addressError_trace fit loop issued⟩
  · have chan := addressError_chan_after regs keeps.cfg hk.le
    rw [← Nat.add_one_mul] at chan
    exact ⟨k, j, hk, hj, chan, dmac, others, otherDmac, pendDcke, keeps.log, keeps.irq,
      addressError_trace fit loop issued⟩

end Sys2Proof.Machine
end

section
/-! SUPPORT. Exceptions (60_exceptions.md): every access completes (R187), an outcome that halts a core blocks the rest of its
pass (R195), the log and the trace only grow (R194, R208), and an idle step does nothing (R207). -/

namespace Sys2Proof.Machine

section Lemmas

variable {c : CoreId} {h : ChanId} {i : Instr} {s t : State}

/-! ### Operations complete (R187) -/

/-- An operation answers a next state where no sub-access can reach the block's own window: only those that start a pass issue
one. -/
theorem exec_completes (i : Instr) (hw : noOwnWindow s.cfg = true) : ∃ t, exec i s = .next t := by
  cases i
  case wrDcs c h v =>
    obtain ⟨o, t, ran⟩ := runChannel_ok (c := c) (h := h) (s := afterDcsWrite c h v s) hw
    exact ⟨t, execWrDcs_next ran⟩
  case wrDmac c v =>
    obtain ⟨t, ran⟩ := runChannels_ok (c := c) (channelIds s.cfg) (s := afterDmacWrite c v s) hw
    exact ⟨t, exec_wrDmac_next ran⟩
  case wrDdrs c v =>
    obtain ⟨t, ran⟩ := runChannels_ok (c := c) (channelIds s.cfg) (s := afterDdrsWrite c v s) hw
    exact ⟨t, exec_wrDdrs_next ran⟩
  all_goals exact ⟨_, rfl⟩

/-- No operation drives the interrupt line (R19). -/
theorem exec_irq (e : exec i s = .next t) : t.irq = s.irq := by
  rcases exec_cases e with ⟨_, _, _, -, pass⟩ | ⟨_, _, -, pass⟩ | ⟨_, _, -, pass⟩ | ⟨-, -, quiet⟩
  · exact pass.irq
  · exact pass.irq
  · exact pass.irq
  · exact quiet.irq

/-- A write returns nothing (R63), and a pass that it starts leaves that as it is. -/
theorem exec_write_reply (hi : isRead i = false) (e : exec i s = .next t) : t.reply = none := by
  cases i
  case wrDcs c h v =>
    obtain ⟨o, ran⟩ := execWrDcs_inv e
    exact (runChannel_keeps ran).reply
  case wrDmac c v => exact (runChannels_keeps _ (exec_wrDmac_inv e)).reply
  case wrDdrs c v => exact (runChannels_keeps _ (exec_wrDdrs_inv e)).reply
  case wrDsa | wrDta | wrDtc | wrDrt | wrDcm | wrDda | wrDsd | wrDirqp | wrDdr | wrDcke | wrBad =>
    cases e
    rfl
  all_goals cases hi

/-! ### Outcomes that block a pass (R195) -/

/-- Every outcome but success sets a bit of `DMAC` that rules out the whole core: `HLT` in descriptor mode and at a halt, `AR`
at an address error. -/
theorem runChannel_blocks {o : ChannelOutcome} (e : runChannel c h s = .ok (o, t)) (ran : o ≠ .notRunnable)
    (failed : o ≠ .success) (h' : ChanId) : runnable t c h' = false := by
  rcases runChannel_cases e with
    ⟨rfl, -⟩ | ⟨-, -, -, rfl⟩ | ⟨d, -, -, -, -, rfl⟩ | ⟨u, s1, -, -, ⟨d, -, -, rfl⟩ | ⟨rfl, -⟩⟩
  · exact absurd rfl ran
  · exact not_runnable_descriptorHalt s h'
  · exact not_runnable_of_dmac_hlt (by simp) h'
  · exact not_runnable_of_dmac_ar (by simp) h'
  · exact absurd rfl failed

/-! ### The diagnostic log (R194, R208) -/

theorem length_ownEvents_le (i : Instr) : (ownEvents i).length ≤ 1 := by
  cases i
  case rdBad | wrBad => exact le_rfl
  all_goals exact Nat.zero_le _

/-- A pass over the configured channels logs at most one event for each. -/
theorem PassKeeps.log_bounded
    (pass : PassKeeps c (channelIds s.cfg) (channelIds s.cfg).length (channelIds s.cfg).length s t) :
    ∃ ds, t.log = s.log ++ ds ∧ ds.length ≤ max 1 (min s.cfg.numChannels 5) := by
  obtain ⟨ds, hlog, hlen⟩ := pass.log
  exact ⟨ds, hlog, hlen.trans ((length_channelIds_le s.cfg).trans (Nat.le_max_right _ _))⟩

/-- An operation appends at most one event for each channel to the log, and more than one only if its pass is over a whole
core. -/
theorem exec_log (e : exec i s = .next t) :
    ∃ ds, t.log = s.log ++ ds ∧ ds.length ≤ max 1 (min s.cfg.numChannels 5) ∧
      ((∀ c v, i ≠ .wrDmac c v) → (∀ c v, i ≠ .wrDdrs c v) → ds.length ≤ 1) := by
  rcases exec_cases e with ⟨c, h, v, -, pass⟩ | ⟨c, v, rfl, pass⟩ | ⟨c, v, rfl, pass⟩ | ⟨-, -, quiet⟩
  · obtain ⟨ds, hlog, hlen⟩ := pass.log
    exact ⟨ds, hlog, hlen.trans (Nat.le_max_left _ _), fun _ _ => hlen⟩
  · obtain ⟨ds, hlog, hlen⟩ := PassKeeps.log_bounded (s := afterDmacWrite c v s) pass
    exact ⟨ds, hlog, hlen, fun hi _ => absurd rfl (hi c v)⟩
  · obtain ⟨ds, hlog, hlen⟩ := PassKeeps.log_bounded (s := afterDdrsWrite c v s) pass
    exact ⟨ds, hlog, hlen, fun _ hi => absurd rfl (hi c v)⟩
  · have hlen := length_ownEvents_le i
    exact ⟨ownEvents i, quiet.log, hlen.trans (Nat.le_max_left _ _), fun _ _ => hlen⟩

/-- An access at an invalid offset decodes to one of the two `Bad` operations (R83, R86). -/
theorem decodeAccess_of_bad {cfg : Config} {a : Access} (hl : locate cfg (accessOffset a) = .bad)
    (hi : decodeAccess cfg a = .ok i) : (∃ off, i = .rdBad off) ∨ ∃ off v, i = .wrBad off v := by
  cases a with
  | read off size =>
    simp only [decodeAccess, show locate cfg off = .bad from hl] at hi
    split at hi <;> cases hi
    exact .inl ⟨off, rfl⟩
  | write off size v =>
    simp only [decodeAccess, show locate cfg off = .bad from hl] at hi
    split at hi <;> cases hi
    exact .inr ⟨off, v, rfl⟩

/-- A step logs and issues what the operation it runs does, and nothing if it runs none. -/
theorem step_log_cases (e : step s = .next t) :
    (t.log = s.log ∧ t.bus = s.bus) ∨
    ∃ a rest i, s.port = .access a :: rest ∧ decodeAccess s.cfg a = .ok i ∧ exec i (s.setPort rest) = .next t := by
  rcases step_cases e with ⟨-, rfl⟩ | ⟨p, rest, -, -, rfl⟩ | ⟨rest, -, -, rfl⟩ | ⟨a, rest, hp, -, rfl | ⟨i, hi, ei⟩⟩
  · exact .inl ⟨rfl, rfl⟩
  · exact .inl ⟨rfl, rfl⟩
  · exact .inl ⟨rfl, rfl⟩
  · exact .inl ⟨rfl, rfl⟩
  · exact .inr ⟨a, rest, i, hp, hi, ei⟩

end Lemmas

/-! ### The obligations of exceptions -/

/-- Settles O32: no pass is refused, a read answers its value, 0 if invalid, and a write nothing. -/
theorem everyAccessCompletes : Obligations.EveryAccessCompletes := by
  intro i s hw
  obtain ⟨t, e⟩ := exec_completes i hw
  refine ⟨t, e, exec_irq e, ?_⟩
  cases hi : isRead i with
  | true =>
    rw [exec_read hi] at e
    cases e
    exact ⟨by simp, by rintro off rfl; rfl⟩
  | false =>
    exact ⟨by simp [exec_write_reply hi e], by rintro off rfl; cases hi⟩

/-- Settles O38: the outcome's bit rules out every channel of the core, and a pass that finds none runnable changes nothing. -/
theorem outcomeBlocksRestOfPass : Obligations.OutcomeBlocksRestOfPass := by
  intro s t c h o e ran failed
  have blocked := runChannel_blocks e ran failed
  exact ⟨blocked, fun hs => runChannels_notRunnable hs fun h' _ => blocked h', channelIds_map_val s.cfg⟩

/-- Settles O60: only an operation logs or issues anything, and a `Bad` access runs one that starts no pass over a core. -/
theorem logAndTraceOnlyGrow : Obligations.LogAndTraceOnlyGrow := by
  intro s t e
  rcases step_log_cases e with ⟨hlog, hbus⟩ | ⟨a, rest, i, hp, hi, ei⟩
  · exact ⟨⟨[], by simp [hlog], Nat.zero_le _, fun _ _ _ _ => Nat.zero_le _⟩, [], by simp [hbus]⟩
  · obtain ⟨ds, hlog, hlen, hone⟩ := exec_log ei
    obtain ⟨ops, hbus, -⟩ := passIsBounded i _ t ei
    refine ⟨⟨ds, hlog, hlen, fun a' rest' hp' hl => ?_⟩, ops, hbus⟩
    cases hp.symm.trans hp'
    rcases decodeAccess_of_bad hl hi with ⟨off, rfl⟩ | ⟨off, v, rfl⟩
    · exact hone (fun _ _ => by simp) fun _ _ => by simp
    · exact hone (fun _ _ => by simp) fun _ _ => by simp

/-- Settles O51: the step finds no request to serve. -/
theorem idleStepChangesNothing : Obligations.IdleStepChangesNothing := by
  intro s hp
  rw [step, hp]

end Sys2Proof.Machine
end

section
/-! SUPPORT. Construction, the state after reset, and the missing device (70_reset_and_hazards.md): which parameters pass the
checks (R211), what the step that constructs answers (R212, R213), what holds where every register is zero (R45, R214), and
what is refused where no device exists (R212, D28). -/

namespace Sys2Proof

variable {p : Config}

/-! ### The checks on the parameters (R211) -/

/-- The check of R211 on the parameter does not hold. -/
def Config.FailsCheck (p : Config) : Parameter → Prop
  | .numChannels => ¬(1 ≤ p.numChannels ∧ p.numChannels ≤ 5)
  | .numCores => ¬(1 ≤ p.numCores ∧ p.numCores ≤ 2)
  | .downstream => p.downstream = none

theorem Config.mem_failing_iff {q : Parameter} : q ∈ p.failing ↔ p.FailsCheck q := by
  cases q <;> simp [Config.failing, Config.FailsCheck]

/-- The parameters are valid where no check fails. -/
theorem Config.valid_iff : p.valid = true ↔
    (1 ≤ p.numChannels ∧ p.numChannels ≤ 5) ∧ (1 ≤ p.numCores ∧ p.numCores ≤ 2) ∧ p.downstream.isSome = true := by
  simp only [Config.valid, Config.failing, List.isEmpty_iff, List.append_eq_nil_iff, ite_eq_left_iff, List.cons_ne_nil,
    imp_false, not_not, and_assoc]

/-- The window is in range if it is as large as R52 asks for the count of cores. -/
theorem Config.ok_of_valid (hv : p.valid = true) (one : p.numCores = 1 → 0x314 ≤ p.windowSize)
    (two : p.numCores = 2 → 0x414 ≤ p.windowSize) : p.ok = true := by
  obtain ⟨-, hcores, -⟩ := Config.valid_iff.1 hv
  have hwin : p.leastWindow ≤ p.windowSize := by
    unfold Config.leastWindow
    split <;> omega
  simp only [Config.ok, Config.inRange, hv, decide_eq_true hwin, Bool.and_self]

end Sys2Proof

namespace Sys2Proof.Machine

section Lemmas

variable {c : CoreId} {h : ChanId} {s t : State} {p : Config} {rest : List Request}

/-! ### The step that constructs (R211 to R213) -/

/-- Whichever failing parameter a construction error picks, its check fails. -/
theorem failsCheck_namedParameter (hv : ¬p.valid = true) : p.FailsCheck (namedParameter p) := by
  rw [← Config.mem_failing_iff, namedParameter]
  split
  next hnil => exact absurd (List.isEmpty_iff.2 hnil) hv
  next q qs hcons =>
    have hlt : Config.namedFailure p % (q :: qs).length < (q :: qs).length := Nat.mod_lt _ (Nat.succ_pos _)
    rw [hcons, List.getD_eq_getElem _ _ hlt]
    exact List.getElem_mem hlt

/-- Parameters with which a device exists are taken. -/
theorem step_construct_of_ok (hp : s.port = .construct p :: rest) (hok : p.ok = true) :
    step s = .next { s.setPort rest with cfg := p, cores := #v[.zero, .zero], irq := false, reply := none } := by
  obtain ⟨hv, hr⟩ := (Bool.and_eq_true _ _).mp hok
  simp only [step, hp, construct, hv, hr, if_true]

/-- Parameters that fail a check end in the construction error. -/
theorem step_construct_of_not_valid (hp : s.port = .construct p :: rest) (hv : ¬p.valid = true) :
    step s = .fault (.configInvalid (namedParameter p)) := by
  simp only [step, hp, construct, if_neg hv]

/-- The one way a construction can have gone that answers a next state. -/
theorem step_construct_next (hp : s.port = .construct p :: rest) (e : step s = .next t) :
    t = { s.setPort rest with cfg := p, cores := #v[.zero, .zero], irq := false, reply := none } := by
  rcases step_cases e with ⟨hp', -⟩ | ⟨p', rest', hp', -, rfl⟩ | ⟨rest', hp', -⟩ | ⟨a, rest', hp', -⟩
  all_goals cases hp.symm.trans hp'
  rfl

/-! ### Where every register is zero (R45, R214) -/

theorem core_of_cores_zero (hcores : s.cores = #v[.zero, .zero]) (c : CoreId) : s.core c = CoreBank.zero := by
  rw [State.core, hcores]
  fin_cases c <;> rfl

theorem chan_of_core_zero (hcore : s.core c = CoreBank.zero) (h : ChanId) : s.chan c h = Channel.zero := by
  rw [State.chan, hcore]
  fin_cases h <;> rfl

@[simp] theorem bitAt_zero (j : Fin 32) : bitAt 0 j = false := BitVec.getLsbD_zero

theorem ndes_zero (l : FieldLayout) : Channel.zero.ndes l = false := bitAt_zero l.dcs.ndes

theorem dmae_zero (l : FieldLayout) : CoreBank.zero.dmae l = false := bitAt_zero l.dmac.dmae

/-! ### Where no device exists (R212, D28) -/

theorem step_access {a : Access} (hp : s.port = .access a :: rest) : step s = serve a (s.setPort rest) := by
  simp only [step, hp]

theorem step_reset_request (hp : s.port = .reset :: rest) : step s = resetRequest (s.setPort rest) := by
  simp only [step, hp]

theorem serve_of_no_device (hok : s.cfg.ok = false) (a : Access) : serve a s = .refused .noDevice := by
  simp only [serve, hok, Bool.false_eq_true, if_false]

theorem resetRequest_of_no_device (hok : s.cfg.ok = false) : resetRequest s = .refused .noDevice := by
  simp only [resetRequest, hok, Bool.false_eq_true, if_false]

end Lemmas

/-! ### The obligations of reset and hazards -/

/-- Settles O47: valid parameters with a window of R52's size give a device, and the error names a member of the list of
failing parameters. -/
theorem constructionChecks : Obligations.ConstructionChecks := by
  intro s p rest hp one two
  by_cases hv : p.valid = true
  · have built := step_construct_of_ok hp (Config.ok_of_valid hv one two)
    exact ⟨⟨fun _ => Config.valid_iff.1 hv, fun _ => ⟨_, built⟩⟩, fun stopped => absurd ⟨_, built⟩ stopped⟩
  · have failed := step_construct_of_not_valid hp hv
    have stopped : ¬∃ t, step s = .next t := fun ⟨t, e⟩ => by cases failed.symm.trans e
    exact ⟨⟨fun built => absurd built stopped, fun checks => absurd (Config.valid_iff.2 checks) hv⟩,
      fun _ => ⟨namedParameter p, failed, failsCheck_namedParameter hv⟩⟩

/-- Settles O48: construction replaces the banks by zero ones, and no channel of zeros is runnable. -/
theorem constructionGivesResetState : Obligations.ConstructionGivesResetState := by
  intro s t p rest hp e
  obtain rfl := step_construct_next hp e
  have cores := core_of_cores_zero (s := { s.setPort rest with cfg := p, cores := _, irq := false, reply := none }) rfl
  have chans := fun c => chan_of_core_zero (cores c)
  exact ⟨rfl, cores, fun c h => ⟨chans c h, not_runnable_of_chan_zero (chans c h)⟩, rfl, rfl, rfl, rfl, rfl⟩

/-- Settles O46: the banks of State.reset are zero ones, and its DRT_AUTO is not 0. -/
theorem stateResetIsZero : Obligations.StateResetIsZero := by
  have cores := core_of_cores_zero (s := State.reset) rfl
  have chans := fun c => chan_of_core_zero (cores c)
  refine ⟨fun c h => ⟨chans c h, not_runnable_of_chan_zero (chans c h), ?_, ?_⟩, fun c => ⟨cores c, ?_⟩, rfl, rfl⟩
  · rw [chans]; exact ndes_zero _
  · rw [chans]; decide
  · rw [cores]; exact dmae_zero _

/-- Settles O52: an access and a reset each ask first whether a device exists. -/
theorem noDeviceIsRefused : Obligations.NoDeviceIsRefused := by
  intro s a rest hok
  exact ⟨fun hp => (step_access hp).trans (serve_of_no_device (s := s.setPort rest) hok a),
    fun hp => (step_reset_request hp).trans (resetRequest_of_no_device (s := s.setPort rest) hok)⟩

/-- Settles O58: the default configuration is one with which a device exists, and State.reset is all zero. -/
theorem resetMeetsInvariant : Obligations.ResetMeetsInvariant :=
  machineInv_of_zero (by decide) rfl rfl rfl

end Sys2Proof.Machine
end

section
/-! SUPPORT. Reading back a plain store (95_test_vectors.md L1.1 to L1.3, L2.2): a read after a write that only stores returns
the bits the register keeps of the value written. -/

namespace Sys2Proof.Machine

section Lemmas

variable {c : CoreId} {h : ChanId} {w r : Instr} {s : State} {x : Word}

/-! ### The bits a narrow register keeps (R87, R88) -/

/-- The low bits of a word, zero-extended, are the word with the bits above them masked off. -/
theorem zext32_low {n : Nat} (hn : n ≤ 32) (v : Word) :
    zext32 (v.extractLsb' 0 n) = v &&& BitVec.ofNat 32 (2 ^ n - 1) := by
  have hmask : 2 ^ n - 1 < 2 ^ 32 :=
    Nat.lt_of_lt_of_le (Nat.sub_one_lt (Nat.two_pow_pos n).ne') (Nat.pow_le_pow_right (by decide) hn)
  have hlow : v.toNat % 2 ^ n < 2 ^ 32 := Nat.lt_of_le_of_lt (Nat.mod_le _ _) v.isLt
  apply BitVec.eq_of_toNat_eq
  rw [zext32, BitVec.toNat_setWidth, BitVec.extractLsb'_toNat, Nat.shiftRight_zero, Nat.mod_eq_of_lt hlow,
    BitVec.toNat_and, BitVec.toNat_ofNat, Nat.mod_eq_of_lt hmask, Nat.and_two_pow_sub_one_eq_mod]

/-! ### A write, then a read -/

/-- A write, a read, and a word: the write and then the read answer, and the read returns the word. -/
def ReadsBack (s : State) : Instr × Instr × Word → Prop
  | (w, r, x) => ∃ t t', exec w s = .next t ∧ exec r t = .next t' ∧ t'.reply = some x

/-- A read returns after a write what its value comes to in the state the write leaves. -/
theorem readsBack_of_stored {P : State → Prop} (hw : ∃ t, exec w s = .next t ∧ P t) (hr : isRead r = true)
    (hx : ∀ t, P t → readValue t r = x) : ReadsBack s (w, r, x) := by
  obtain ⟨t, e, stored⟩ := hw
  exact ⟨t, _, e, exec_read hr t, congrArg some (hx t stored)⟩

/-- After a store into a channel, a read that returns a part `f` of its registers returns that part of those stored. -/
theorem readsBack_of_channelStored {ch : Channel} (hw : ∃ t, exec w s = .next t ∧ ChannelStored c h ch s t)
    (hr : isRead r = true) (f : Channel → Word) (hf : ∀ t, readValue t r = f (t.chan c h)) : ReadsBack s (w, r, f ch) :=
  readsBack_of_stored hw hr fun t ⟨hch, _⟩ => (hf t).trans (congrArg f hch)

/-- A write that leaves `v` in PEND is read back at DIRQP and at DDR: one cell at both offsets (D7). -/
theorem readsBack_pend {dmac v dcke : Word} (hw : ∃ t, exec w s = .next t ∧ CoreStored c dmac v dcke s t) :
    ReadsBack s (w, .rdDirqp c, v) ∧ ReadsBack s (w, .rdDdr c, v) :=
  have pend : ∀ t, CoreStored c dmac v dcke s t → (t.core c).pend = v := fun _ ⟨_, stored, _⟩ => stored
  ⟨readsBack_of_stored hw rfl pend, readsBack_of_stored hw rfl pend⟩

end Lemmas

/-! ### The obligation -/

/-- Settles O10: the write is one of the plain stores of O7, O8 and O9, and the read returns the cell stored; DTC and DRT
return the low bits they keep. -/
theorem writeThenReadBack : Obligations.WriteThenReadBack := by
  intro s c h v w r x hmem
  obtain ⟨dsa, dta, dtc, drt, dcm, dda, dsd⟩ := channelWritesStore s c h v
  obtain ⟨dirqp, dcke⟩ := coreWritesStore s c v
  obtain ⟨dirqpAtDirqp, dirqpAtDdr⟩ := readsBack_pend dirqp
  obtain ⟨ddrAtDirqp, ddrAtDdr⟩ := readsBack_pend (ddrWriteStoresPend s c v)
  have dtcBack := readsBack_of_channelStored dtc (r := .rdDtc c h) rfl (fun ch => zext32 ch.dtc) fun _ => rfl
  have drtBack := readsBack_of_channelStored drt (r := .rdDrt c h) rfl (fun ch => zext32 ch.drt) fun _ => rfl
  rw [zext32_low (by decide)] at dtcBack drtBack
  refine (List.forall_iff_forall_mem (p := ReadsBack s)).1 ?_ (w, r, x) hmem
  refine ⟨?dsa, ?dta, dtcBack, drtBack, ?dcm, ?dda, ?dsd, dirqpAtDirqp, ddrAtDdr, ddrAtDirqp, dirqpAtDdr, ?dcke⟩
  case dsa => exact readsBack_of_channelStored dsa rfl Channel.dsa fun _ => rfl
  case dta => exact readsBack_of_channelStored dta rfl Channel.dta fun _ => rfl
  case dcm => exact readsBack_of_channelStored dcm rfl Channel.dcm fun _ => rfl
  case dda => exact readsBack_of_channelStored dda rfl Channel.dda fun _ => rfl
  case dsd => exact readsBack_of_channelStored dsd rfl Channel.dsd fun _ => rfl
  case dcke => exact readsBack_of_stored dcke rfl fun _ ⟨_, _, stored, _⟩ => stored

end Sys2Proof.Machine
end
